-- ==== Sys2Proof/Word.lean ====
section
/-! DEFINITION. The two word types of the block: the byte of its memories and the 64-bit RawSample (R14). -/

namespace Sys2Proof

/-- A byte of `OBUF`, `IBUF`, `TAG_VALUE`, `DEC_TAG` (R7, R60). -/
abbrev Byte := BitVec 8

/-- A RawSample: "the 64-bit integer reinterpretation of one double" (R14); also every other 64-bit data value (R11). -/
abbrev Sample := BitVec 64

end Sys2Proof
end

