-- ==== Sys2Proof/Config.lean ====
section
/-! DEFINITION. The static configuration `Cfg` (R5), the Window (R24), and the constants with no body: the open
parameters and the content of memory that nothing has written. -/

namespace Sys2Proof

/-- `LEAD_W`: 5 or 6 and nothing else (R5, R6 (a)). -/
inductive LeadWidth where
  | five
  | six
  deriving DecidableEq, Repr

/-- The number of bits of the `LEAD` field (R5). -/
def LeadWidth.bits : LeadWidth → Nat
  | .five => 5
  | .six => 6

/-- The source's Window, the registers `ENC_WIN` and `DEC_WIN` (R24): whether one is in force, its leading and its
trailing zero count. The counts are naturals (R11); `LEAD ≤ 63`, `TRAIL ≤ 63` and, when valid, `LEAD + TRAIL ≤ 63` are
clauses of the invariant. -/
structure Window where
  valid : Bool
  lead : Nat
  trail : Nat
  deriving DecidableEq, Repr

/-- `VALID=0, LEAD=0, TRAIL=0`: no Window in force (R24, R280). -/
def Window.none : Window := ⟨false, 0, 0⟩

/-- The number of meaningful bits the Window spans, `w = 64 − LEAD − TRAIL` (R96, R165, R196). -/
def Window.width (w : Window) : Nat := 64 - w.lead - w.trail

/-- The static configuration, fixed before any operation and changed by none (R5). `none` in a capacity is the spec's
`∞`. Which of these are configurations at all is `Cfg.wf` (R6). -/
structure Cfg where
  sentinel : Sample
  tagEn : Bool
  tagValue : Byte
  leadW : LeadWidth
  windowInit : Option (Nat × Nat)
  obufCap : Option Nat
  ibufCap : Option Nat
  deriving DecidableEq, Repr

/-- `LEAD_MAX = 2^LEAD_W − 1`: 31 or 63 (R5). -/
def Cfg.leadMax (c : Cfg) : Nat := 2 ^ c.leadW.bits - 1

/-- The Window a begin operation loads: none in force, or the pair `WINDOW_INIT` (R24, R160, R190). -/
def Cfg.initialWindow (c : Cfg) : Window :=
  match c.windowInit with
  | none => Window.none
  | some (l, t) => ⟨true, l, t⟩

/-- The number of tag bytes before the first sample: the spec's `T` (R65). -/
def Cfg.tagBytes (c : Cfg) : Nat := if c.tagEn then 1 else 0

/-- `SENTINEL`: OPEN (R5, D3), so a constant with no body. -/
opaque Config.sentinel : Sample

/-- `TAG_VALUE`: OPEN (R5, D4), so a constant with no body. -/
opaque Config.tagValue : Byte

/-- `OBUF_CAP`: OPEN (R5, D11), a number of bytes or `none` for `∞`; a constant with no body. -/
opaque Config.obufCap : Option Nat

/-- `IBUF_CAP`: OPEN (R5, D11), a number of bytes or `none` for `∞`; a constant with no body. -/
opaque Config.ibufCap : Option Nat

/-- FREE VALUE (log 6): what the byte of `OBUF` at an address holds when nothing has written it since a given power-on.
"The reset value of every byte is unspecified" (R26). -/
opaque Config.unwrittenObuf : (epoch addr : Nat) → Byte

/-- FREE VALUE (log 6): what the byte of `IBUF` at an address holds when the host has not written it since a given
power-on (R34, U13: "any value"). -/
opaque Config.unwrittenIbuf : (epoch addr : Nat) → Byte

/-- The configuration of the machine after reset: "value for this hardware" of R5 where the spec gives one, the
constants with no body where it says OPEN. Every statement ranges over every `Cfg`, not over this one (log 1). -/
def Config.atReset : Cfg where
  sentinel := Config.sentinel
  tagEn := false
  tagValue := Config.tagValue
  leadW := .five
  windowInit := none
  obufCap := Config.obufCap
  ibufCap := Config.ibufCap

end Sys2Proof
end

