-- ==== Sys2Proof/Syntax.lean ====
section
/-! DEFINITION. The instructions: one constructor for each of the 20 rows of `spec/opcode_table.json`, the names that
responses and errors use, and what the host drives on the operation port. -/

namespace Sys2Proof

/-- The two kinds of "instruction" of this hardware (`INDEX.md`): the six codewords of the encoded stream, which the
decoder fetches and executes (R92), and the fourteen operations the host issues (R110). A field of a codeword is its
raw value (R105): `len` is the `LEN` field, `m − 1`. -/
inductive Instr where
  /-- `TAG 0xNN` (R93) -/
  | cwTag (tag : Byte)
  /-- `FIRST 0x…` (R94) -/
  | cwFirst (value : Sample)
  /-- `REPEAT` (R95) -/
  | cwRepeat
  /-- `REUSE bits=…` (R96); the width of `bits` is that of the Window in force -/
  | cwReuse (bits : Sample)
  /-- `NEW lead=… len=… bits=…` (R97); `lead` is `LEAD_W` bits wide, `bits` is `len + 1` bits wide -/
  | cwNew (lead : BitVec 6) (len : BitVec 6) (bits : Sample)
  /-- `PAD n` (R100) -/
  | cwPad (n : BitVec 3)
  /-- `SNK_INIT` (R120) -/
  | snkInit
  /-- `SNK_WRITE value, count` (R122); `count` is "a 7-bit number" -/
  | snkWrite (value : Sample) (count : BitVec 7)
  /-- `SNK_FINAL` (R124) -/
  | snkFinal
  /-- `ENC_BEGIN` (R160) -/
  | encBegin
  /-- `ENC_SAMPLE v` (R161) -/
  | encSample (v : Sample)
  /-- `ENC_END` (R167) -/
  | encEnd
  /-- `SRC_INIT len` (R140) -/
  | srcInit (len : Nat)
  /-- `SRC_RDBIT` (R147) -/
  | srcRdBit
  /-- `SRC_RDBITS count` (R148); `count` is "a 7-bit number" -/
  | srcRdBits (count : BitVec 7)
  /-- `DEC_BEGIN len` (R190) -/
  | decBegin (len : Nat)
  /-- `DEC_STEP` (R191) -/
  | decStep
  /-- `DEC_NEXT` (R201) -/
  | decNext
  /-- `DEC_RUN` (R202) -/
  | decRun
  /-- `DEC_SET_EXPECT en, n` (R204) -/
  | decSetExpect (en : Bool) (n : Nat)
  deriving DecidableEq, Repr

/-- The error kinds of R250; the codes 5 to 7 "never occur" (U22). -/
inductive ErrKind where
  | noError
  | reservedValueCollision
  | unexpectedEof
  | invariantViolation
  | capacityExceeded
  deriving DecidableEq, Repr

/-- The cause codes of R252; `noCause` is 0, the cause of every kind but `UnexpectedEof`. -/
inductive Cause where
  | noCause
  | first
  | controlA
  | controlB
  | header
  | bits
  | noWindow
  | windowOverrun
  | rawRead
  deriving DecidableEq, Repr

/-- The codeword names an `ENC_SAMPLE` response can carry (R161). -/
inductive CwName where
  | first
  | repeated
  | reuse
  | new
  deriving DecidableEq, Repr

/-- What the host drives when it issues an operation: the 8-bit code, and beside it one lane for each kind of operand
of R110 ("operands are passed beside the code, not packed into it"). The lanes are the model's (log 3): `value` is
`value` of `SNK_WRITE` and `v` of `ENC_SAMPLE`. -/
structure Issue where
  code : BitVec 8
  value : Sample := 0
  count : BitVec 7 := 0
  len : Nat := 0
  en : Bool := false
  n : Nat := 0
  deriving DecidableEq, Repr

/-- What the host can do to the block: issue an operation (R110), write a byte of `IBUF` (R34, R60), assert the reset
input (R280). -/
inductive HostInput where
  | op (q : Issue)
  | writeIbuf (addr : Nat) (data : Byte)
  | powerOn
  deriving DecidableEq, Repr

/-- The position that selects how the decoder reads the next codeword (R92): `TAG` and `FIRST` and `PAD` are selected by
position, the others by their control bits. `pad n` is the position after the terminal codeword, `n` bits short of a
byte boundary. -/
inductive CwPos where
  | tag
  | first
  | data
  | pad (n : BitVec 3)
  deriving DecidableEq, Repr

end Sys2Proof
end

