-- ==== Sys2Proof/WellFormed.lean ====
section
/-! DEFINITION. Which configurations are configurations (R6) and which operands are in their range (R92, R97, R110). -/

namespace Sys2Proof

/-- Rule R6: (a) holds by the type of `LEAD_W`; (b) `WINDOW_INIT = (l, t)` has `l ≤ LEAD_MAX`, `t ≤ 63` and
`l + t ≤ 63`. (c) is a convention no rule reads, (d) is a duty of the host (R287). -/
def Cfg.wf (c : Cfg) : Bool :=
  match c.windowInit with
  | none => true
  | some (l, t) => decide (l ≤ c.leadMax) && decide (t ≤ 63) && decide (l + t ≤ 63)

/-- Whether `n` bytes lie within a capacity of R5. No byte always does, whatever the capacity is. -/
def withinCap (n : Nat) (cap : Option Nat) : Bool :=
  n == 0 ||
    match cap with
    | none => true
    | some k => decide (n ≤ k)

/-- The `BITS` field of a codeword is in range: its value needs at most `m` bits, `1 ≤ m ≤ 64` (R96, R97). -/
def bitsFit (bits : Sample) (m : Nat) : Bool := decide (1 ≤ m) && decide (m ≤ 64) && decide (bits.toNat < 2 ^ m)

/-- The operands of an instruction are in the range the spec gives them: for a codeword, its fields have the widths of
R92 under the Window in force and it is one of the legal encodings of R96 and R97; for an operation, R110's operand
column. An operation whose operand is out of range is answered `Refused` (R13), not stopped. -/
def Instr.wf (c : Cfg) (w : Window) : Instr → Bool
  | .cwTag _ => c.tagEn
  | .cwFirst _ => true
  | .cwRepeat => true
  | .cwReuse bits => w.valid && bitsFit bits w.width
  | .cwNew lead len bits =>
      decide (lead.toNat ≤ c.leadMax) && decide (lead.toNat + (len.toNat + 1) ≤ 64) && bitsFit bits (len.toNat + 1)
  | .cwPad _ => true
  | .snkInit => true
  | .snkWrite _ count => decide (count.toNat ≤ 64)
  | .snkFinal => true
  | .encBegin => true
  | .encSample _ => true
  | .encEnd => true
  | .srcInit len => withinCap len c.ibufCap
  | .srcRdBit => true
  | .srcRdBits count => decide (1 ≤ count.toNat) && decide (count.toNat ≤ 64)
  | .decBegin len => withinCap len c.ibufCap
  | .decStep => true
  | .decNext => true
  | .decRun => true
  | .decSetExpect _ _ => true

/-- The codeword stands where its position or its control bits select it (R92); an operation stands nowhere in the
stream. -/
def Instr.standsAt (pos : CwPos) : Instr → Bool
  | .cwTag _ => pos == .tag
  | .cwFirst _ => pos == .first
  | .cwRepeat => pos == .data
  | .cwReuse _ => pos == .data
  | .cwNew _ _ _ => pos == .data
  | .cwPad n => pos == .pad n
  | .snkInit => false
  | .snkWrite _ _ => false
  | .snkFinal => false
  | .encBegin => false
  | .encSample _ => false
  | .encEnd => false
  | .srcInit _ => false
  | .srcRdBit => false
  | .srcRdBits _ => false
  | .decBegin _ => false
  | .decStep => false
  | .decNext => false
  | .decRun => false
  | .decSetExpect _ _ => false

end Sys2Proof
end

