-- ==== Sys2Proof/Decode.lean ====
section
/-! DEFINITION. The two decoders (operation codes R110; codewords of the stream R91 to R98), each total, each rejecting by
name, and after them the two encoders, written from the same tables. -/

namespace Sys2Proof

/-- Why a decoder answers no instruction. -/
inductive DecodeError where
  /-- "a code not in the table is `Refused`" (R110) -/
  | unknownCode (code : BitVec 8)
  /-- the stream ends inside the named part of the codeword (R102, R252) -/
  | endOfStream (part : Cause)
  /-- a `REUSE` with no Window in force (R102 (a)) -/
  | reuseWithoutWindow
  /-- a `NEW` with `LEAD + LEN + 1 > 64` (R102 (b)) -/
  | windowTooWide
  deriving DecidableEq, Repr

/-- The operation an issued code and its operand lanes stand for (R110). Lanes an operation has no operand for are not
read. -/
def decodeIssue (q : Issue) : Except DecodeError Instr :=
  match q.code with
  | 0x00#8 => .ok .snkInit
  | 0x01#8 => .ok (.snkWrite q.value q.count)
  | 0x02#8 => .ok .snkFinal
  | 0x04#8 => .ok .encBegin
  | 0x05#8 => .ok (.encSample q.value)
  | 0x06#8 => .ok .encEnd
  | 0x10#8 => .ok (.srcInit q.len)
  | 0x11#8 => .ok .srcRdBit
  | 0x12#8 => .ok (.srcRdBits q.count)
  | 0x14#8 => .ok (.decBegin q.len)
  | 0x15#8 => .ok .decStep
  | 0x16#8 => .ok .decNext
  | 0x17#8 => .ok .decRun
  | 0x18#8 => .ok (.decSetExpect q.en q.n)
  | code => .error (.unknownCode code)

/-- The value of a field whose bits stand in stream order, the first the most significant (R8, R61). -/
def fieldValue (bits : List Bool) : Sample :=
  bits.foldl (fun acc b => (acc <<< 1) ||| (BitVec.ofBool b).setWidth 64) 0

/-- The stream bits of a field of `count` bits, `value[count−1]` first (R8). -/
def fieldBits (value : Sample) (count : Nat) : List Bool :=
  (List.range count).map fun i => value.getLsbD (count - 1 - i)

/-- The next `n` bits of the stream as a field, and the rest of the stream; nothing where fewer than `n` are left. -/
def takeField (n : Nat) (stream : List Bool) : Option (Sample × List Bool) :=
  if n ≤ stream.length then some (fieldValue (stream.take n), stream.drop n) else none

/-- A field of a fixed format: `part` names what is missing when the stream ends inside it (R252). -/
def decodeField (part : Cause) (n : Nat) (stream : List Bool) : Except DecodeError (Sample × List Bool) :=
  match takeField n stream with
  | none => .error (.endOfStream part)
  | some r => .ok r

/-- A codeword after its prefix `1 0`: `BITS`, as wide as the Window in force (R96). -/
def decodeReuse (w : Window) (stream : List Bool) : Except DecodeError (Instr × List Bool) :=
  if w.valid then do
    let (bits, rest) ← decodeField .bits w.width stream
    .ok (.cwReuse bits, rest)
  else .error .reuseWithoutWindow

/-- A codeword after its prefix `1 1`: `LEAD`, `LEN`, `BITS` (R97). -/
def decodeNew (c : Cfg) (stream : List Bool) : Except DecodeError (Instr × List Bool) := do
  let (lead, s1) ← decodeField .header c.leadW.bits stream
  let (len, s2) ← decodeField .header 6 s1
  if lead.toNat + (len.toNat + 1) > 64 then .error .windowTooWide
  else
    let (bits, rest) ← decodeField .bits (len.toNat + 1) s2
    .ok (.cwNew (lead.setWidth 6) (len.setWidth 6) bits, rest)

/-- The codeword that stands at a position of the stream, and the stream after it (R91, R92). -/
def decodeCodeword (c : Cfg) (w : Window) (pos : CwPos) (stream : List Bool) : Except DecodeError (Instr × List Bool) :=
  match pos with
  | .tag => do
      let (t, rest) ← decodeField .first 8 stream
      .ok (.cwTag (t.setWidth 8), rest)
  | .first => do
      let (v, rest) ← decodeField .first 64 stream
      .ok (.cwFirst v, rest)
  | .pad n => if n.toNat ≤ stream.length then .ok (.cwPad n, stream.drop n.toNat) else .error (.endOfStream .noCause)
  | .data =>
      match stream with
      | [] => .error (.endOfStream .controlA)
      | false :: rest => .ok (.cwRepeat, rest)
      | [true] => .error (.endOfStream .controlB)
      | true :: false :: rest => decodeReuse w rest
      | true :: true :: rest => decodeNew c rest

/-- The code and operand lanes of an operation (R110), the unused lanes 0; a codeword is not issued by the host. -/
def encodeIssue : Instr → Option Issue
  | .snkInit => some { code := 0x00#8 }
  | .snkWrite value count => some { code := 0x01#8, value := value, count := count }
  | .snkFinal => some { code := 0x02#8 }
  | .encBegin => some { code := 0x04#8 }
  | .encSample v => some { code := 0x05#8, value := v }
  | .encEnd => some { code := 0x06#8 }
  | .srcInit len => some { code := 0x10#8, len := len }
  | .srcRdBit => some { code := 0x11#8 }
  | .srcRdBits count => some { code := 0x12#8, count := count }
  | .decBegin len => some { code := 0x14#8, len := len }
  | .decStep => some { code := 0x15#8 }
  | .decNext => some { code := 0x16#8 }
  | .decRun => some { code := 0x17#8 }
  | .decSetExpect en n => some { code := 0x18#8, en := en, n := n }
  | .cwTag _ => none
  | .cwFirst _ => none
  | .cwRepeat => none
  | .cwReuse _ => none
  | .cwNew _ _ _ => none
  | .cwPad _ => none

/-- The stream bits of a codeword under a configuration and the Window in force (R92 to R100); an operation has none. -/
def encodeCodeword (c : Cfg) (w : Window) : Instr → Option (List Bool)
  | .cwTag t => some (fieldBits (t.setWidth 64) 8)
  | .cwFirst v => some (fieldBits v 64)
  | .cwRepeat => some [false]
  | .cwReuse bits => some ([true, false] ++ fieldBits bits w.width)
  | .cwNew lead len bits =>
      some ([true, true] ++ fieldBits (lead.setWidth 64) c.leadW.bits ++ fieldBits (len.setWidth 64) 6
        ++ fieldBits bits (len.toNat + 1))
  | .cwPad n => some (List.replicate n.toNat false)
  | .snkInit => none
  | .snkWrite _ _ => none
  | .snkFinal => none
  | .encBegin => none
  | .encSample _ => none
  | .encEnd => none
  | .srcInit _ => none
  | .srcRdBit => none
  | .srcRdBits _ => none
  | .decBegin _ => none
  | .decStep => none
  | .decNext => none
  | .decRun => none
  | .decSetExpect _ _ => none

/-- The stream bits of a byte, bit 7 first (R8). -/
def byteBits (b : Byte) : List Bool := fieldBits (b.setWidth 64) 8

/-- The bytes of an opcode-table word, byte 0 its bits 7..0, in address order; as many as `nbits` takes (log 11). -/
def tableBytes (nbits w : Nat) : List Byte :=
  (List.range ((nbits + 7) / 8)).map fun k => BitVec.ofNat 8 (w / 2 ^ (8 * k))

/-- The stream a table word stands for when it is a codeword: its bytes, then zeros up to the ten bytes the longest
codeword takes (78 bits, R92). -/
def tableStream (nbits w : Nat) : List Byte :=
  tableBytes nbits w ++ List.replicate (10 - (nbits + 7) / 8) 0

/-- The Window a table word's `REUSE` is read under: the widest (log 11). -/
def tableWindow : Window := ⟨true, 0, 0⟩

/-- The position a table word's codeword is read at: a 64-bit word is a `FIRST`, every other a data codeword (log 11). -/
def tablePos (nbits : Nat) : CwPos := if nbits = 64 then .first else .data

/-- The instruction the decoders read from a word numbered as `spec/opcode_table.json` numbers it: a word of one byte
is an operation code with every operand 0, a longer one a codeword of the stream (log 11). -/
def decodeTableWord (nbits w : Nat) : Option Instr :=
  if nbits = 8 then
    match decodeIssue { code := BitVec.ofNat 8 w } with
    | .ok i => some i
    | .error _ => none
  else
    match decodeCodeword Config.atReset tableWindow (tablePos nbits) ((tableStream nbits w).flatMap byteBits) with
    | .ok (i, _) => some i
    | .error _ => none

end Sys2Proof
end

