-- ==== Sys2Proof/Machine/State.lean ====
section
/-! DEFINITION. The state of the block (R20 to R36), the responses (R13), the ways a step of the model can stop, and the
state after reset (R280). -/

namespace Sys2Proof.Machine

/-- `ENC_STATE` (R22). -/
inductive EncState where
  | idle
  | raw
  | active
  | done
  deriving DecidableEq, Repr

/-- `DEC_STATE` (R29); `repeating` is the state `REPEAT`. -/
inductive DecState where
  | idle
  | awaitingFirst
  | readingControlA
  | repeating
  | readingControlB
  | reuseWindow
  | newWindow
  | readingMeaningfulBits
  | checkSentinel
  | done
  | raw
  deriving DecidableEq, Repr

/-- `ENC_ERR` and `DEC_ERR` (R23): the latched kind and cause. The 8-bit register is `ErrReg.word`. -/
structure ErrReg where
  kind : ErrKind
  cause : Cause
  deriving DecidableEq, Repr

/-- A byte memory: the bytes that have been written, by rising address (log 6). -/
abbrev Memory := List Host.Cell

/-- The encoder channel (R21). `SNK_LEN` is derived and not stored; `epoch` is the model's own (log 6). -/
structure EncChannel where
  /-- E0 `ENC_STATE` -/
  state : EncState
  /-- E1 `ENC_ERR` -/
  err : ErrReg
  /-- E2 `ENC_COUNT` -/
  count : Nat
  /-- E3 `ENC_PREV` -/
  prev : Sample
  /-- E4 `ENC_WIN` -/
  win : Window
  /-- E5 `SNK_WBITS` -/
  wbits : Nat
  /-- `OBUF` (R26, R60) -/
  obuf : Memory
  /-- MODEL's own: which power-on filled `OBUF` -/
  epoch : Nat
  deriving DecidableEq, Repr

/-- The decoder channel (R28). `SRC_RPOS` is derived and not stored; `epoch` is the model's own (log 6). -/
structure DecChannel where
  /-- D0 `DEC_STATE` -/
  state : DecState
  /-- D1 `DEC_ERR` -/
  err : ErrReg
  /-- D2 `DEC_COUNT` -/
  count : Nat
  /-- D3 `DEC_PREV` -/
  prev : Sample
  /-- D4 `DEC_WIN` -/
  win : Window
  /-- D5 `DEC_M` -/
  m : Nat
  /-- D6 `DEC_CUR` -/
  cur : Sample
  /-- D7 `DEC_TAG` -/
  tag : Byte
  /-- D8 `DEC_EXPECT` -/
  expect : Nat
  /-- D9 `DEC_EXPECT_EN` -/
  expectEn : Bool
  /-- D10 `SRC_LEN` -/
  srcLen : Nat
  /-- D11 `SRC_CURSOR` -/
  srcCursor : Nat
  /-- D12 `SRC_VALID` -/
  srcValid : Nat
  /-- D13 `SRC_CACHE` -/
  srcCache : Sample
  /-- `IBUF` (R34, R60) -/
  ibuf : Memory
  /-- MODEL's own: which power-on filled `IBUF` -/
  epoch : Nat
  deriving DecidableEq, Repr

/-- The codeword an `ENC_SAMPLE` wrote: "the name and length of the codeword written" (R161). -/
structure CwReport where
  name : CwName
  bits : Nat
  deriving DecidableEq, Repr

/-- The `Ok` results of R110. -/
inductive OkResult where
  /-- no result -/
  | unit
  /-- `SNK_LEN` -/
  | length (n : Nat)
  /-- "the codeword chosen" -/
  | codeword (cw : CwReport)
  /-- "one bit" -/
  | bit (b : Bool)
  /-- "`count`-bit value" -/
  | value (v : Sample)
  /-- `Sample(v)` -/
  | sample (v : Sample)
  /-- `None` of `DEC_STEP` -/
  | noSample
  /-- `End` of `DEC_NEXT` -/
  | endOfStream
  /-- "list of samples" -/
  | samples (vs : List Sample)
  deriving DecidableEq, Repr

/-- "Every operation returns one response to the host" (R13). -/
inductive Response where
  | ok (result : OkResult)
  | err (kind : ErrKind) (cause : Cause)
  | refused
  deriving DecidableEq, Repr

/-- The whole state: the two channels (R20), the configuration, which no step changes (R5, log 1), the host's actions
that have not been taken yet (log 3), and the response the last operation returned (R13, log 4). -/
structure State where
  enc : EncChannel
  dec : DecChannel
  cfg : Cfg
  pending : List HostInput
  resp : Option Response
  deriving DecidableEq, Repr

/-- The faults of the model. The spec's own errors are not among them: they are latched and the machine goes on (R253). -/
inductive Fault where
  /-- The host writes an address of `IBUF` that does not exist, at or above `IBUF_CAP` (R60). Raised by
  `applyWriteIbuf` only, never by an instruction. SAFE: the model stops where the spec says nothing. -/
  | ibufAddressAbsent
  deriving DecidableEq, Repr

/-- The refusals of the model. -/
inductive Refusal where
  /-- No meaning written yet; raised by no arm of `exec`. SAFE: the model stops. -/
  | notModelled (mnemonic : String)
  /-- "A `Cfg` outside (a) or (b) is refused by the model: it has no meaning" (R6, U16). Raised by every meaning in a
  state that carries such a `Cfg`. SAFE: nothing is specified for it. What is no meaning does not raise it (log 2). -/
  | illFormedCfg
  deriving DecidableEq, Repr

/-- What a step or a meaning answers. -/
abbrev Result := Host.Outcome State Fault Refusal

/-- `ENC_ERR = 0`, `DEC_ERR = 0` (R280). -/
def ErrReg.clear : ErrReg := ⟨.noError, .noCause⟩

/-- The encoder channel after power-on: the reset column of R21. -/
def EncChannel.reset : EncChannel where
  state := .idle
  err := ErrReg.clear
  count := 0
  prev := 0
  win := Window.none
  wbits := 0
  obuf := []
  epoch := 0

/-- The decoder channel after power-on: the reset column of R28. -/
def DecChannel.reset : DecChannel where
  state := .idle
  err := ErrReg.clear
  count := 0
  prev := 0
  win := Window.none
  m := 0
  cur := 0
  tag := 0
  expect := 0
  expectEn := false
  srcLen := 0
  srcCursor := 0
  srcValid := 0
  srcCache := 0
  ibuf := []
  epoch := 0

/-- The machine right after reset (R280): every register at its reset value, nothing written in either memory, the
configuration of `Config.atReset`, no action of the host waiting, no response returned yet. -/
def State.reset : State where
  enc := EncChannel.reset
  dec := DecChannel.reset
  cfg := Config.atReset
  pending := []
  resp := none

/-- The state after an operation on the encoder channel: the channel and the response, nothing else (R15). -/
def State.setEnc (s : State) (e : EncChannel) (r : Response) : State := { s with enc := e, resp := some r }

/-- The state after an operation on the decoder channel: the channel and the response, nothing else (R15). -/
def State.setDec (s : State) (d : DecChannel) (r : Response) : State := { s with dec := d, resp := some r }

/-- The state with the oldest action of the host taken off. -/
def State.popInput (s : State) (rest : List HostInput) : State := { s with pending := rest }

end Sys2Proof.Machine
end

