-- ==== Sys2Proof/Machine/Operands.lean ====
section
/-! DEFINITION. Operands: masks and bit counts (R9, R10), the fields of a codeword from a delta and back (R98), byte order
(R8, R61), the numeric codes of states, kinds and causes, and the registers as words (R22, R23, R24, R29). -/

namespace Sys2Proof.Machine

/-- `mask(n)`, `0 ≤ n ≤ 64` (R9). -/
def mask (n : Nat) : Sample := if n = 64 then BitVec.allOnes 64 else ((1 : Sample) <<< n) - 1

/-- `clz64(x)`, `x ≠ 0`: the number of zero bits from `x[63]` downward before the first one (R10). At 0, where the rule
gives no value and no rule asks for one, 64 (log 14). -/
def clz64 (x : Sample) : Nat := ((List.range 64).find? fun i => x.getMsbD i).getD 64

/-- `ctz64(x)`, `x ≠ 0`: the least `i` with `x[i] = 1` (R10). At 0 as `clz64` (log 14). -/
def ctz64 (x : Sample) : Nat := ((List.range 64).find? fun i => x.getLsbD i).getD 64

/-- The leading count an encoder uses: `min(clz64(delta), LEAD_MAX)` (R164). -/
def clampedLead (c : Cfg) (delta : Sample) : Nat := min (clz64 delta) c.leadMax

/-- The meaningful bits as an encoder puts them in a field: `delta >> trail` (R98). -/
def meaningfulBits (delta : Sample) (trail : Nat) : Sample := delta >>> trail

/-- The delta a decoder takes out of a field: `zext_64(BITS) << trail` (R98, R198). -/
def deltaOf (bits : Sample) (trail : Nat) : Sample := bits <<< trail

/-- The number of zero bits from a stream position to the next byte boundary (R100). -/
def padCount (n : Nat) : Nat := (8 - n % 8) % 8

/-- Stream bit `p` of a buffer whose bytes `byteAt` gives: bit `7 − (p & 7)` of byte `p >> 3` (R8). -/
def streamBit (byteAt : Nat → Byte) (p : Nat) : Bool := (byteAt (p / 8)).getLsbD (7 - p % 8)

/-- The `n` bytes from address `a` upward as one number, the byte at the lowest address most significant (R12, R61). -/
def bigEndian (byteAt : Nat → Byte) (a : Nat) : Nat → Sample
  | 0 => 0
  | n + 1 => (bigEndian byteAt a n <<< 8) ||| (byteAt (a + n)).setWidth 64

/-- `ENC_STATE` as the 2 bits the host reads (R22). -/
def EncState.code : EncState → BitVec 2
  | .idle => 0
  | .raw => 1
  | .active => 2
  | .done => 3

/-- `DEC_STATE` as the 4 bits the host reads (R29). -/
def DecState.code : DecState → BitVec 4
  | .idle => 0
  | .awaitingFirst => 1
  | .readingControlA => 2
  | .repeating => 3
  | .readingControlB => 4
  | .reuseWindow => 5
  | .newWindow => 6
  | .readingMeaningfulBits => 7
  | .checkSentinel => 8
  | .done => 9
  | .raw => 10

/-- The code of an error kind (R250). -/
def kindCode : ErrKind → BitVec 3
  | .noError => 0
  | .reservedValueCollision => 1
  | .unexpectedEof => 2
  | .invariantViolation => 3
  | .capacityExceeded => 4

/-- The code of a cause (R252). -/
def causeCode : Cause → BitVec 4
  | .noCause => 0
  | .first => 1
  | .controlA => 2
  | .controlB => 3
  | .header => 4
  | .bits => 5
  | .noWindow => 6
  | .windowOverrun => 7
  | .rawRead => 8

/-- `ENC_ERR`, `DEC_ERR` as the host reads them: `CAUSE` in bits 7:4, bit 3 zero, `KIND` in bits 2:0 (R23). -/
def ErrReg.word (r : ErrReg) : BitVec 8 := causeCode r.cause ++ (0#1 ++ kindCode r.kind)

/-- `ENC_WIN`, `DEC_WIN` as the host reads them: `VALID` in bit 12, `LEAD` in bits 11:6, `TRAIL` in bits 5:0 (R24). -/
def windowWord (w : Window) : BitVec 13 := BitVec.ofBool w.valid ++ (BitVec.ofNat 6 w.lead ++ BitVec.ofNat 6 w.trail)

end Sys2Proof.Machine
end

