-- ==== Sys2Proof/Machine/Flags.lean ====
section
/-! DEFINITION. The conditions the rules test. The block has no arithmetic flags (R36); what it has is `WIN.VALID`,
`DEC_EXPECT_EN`, the derived conditions of R36, and the tests of R123, R141, R165, R192 and R199. -/

namespace Sys2Proof.Machine

/-- `SNK_LEN = (SNK_WBITS + 7) >> 3` (R21). -/
def snkLen (e : EncChannel) : Nat := (e.wbits + 7) / 8

/-- `fits(n)` (R123): the sink has room for `n` more bits. -/
def fits (c : Cfg) (e : EncChannel) (n : Nat) : Bool :=
  match c.obufCap with
  | none => true
  | some k => decide ((e.wbits + n + 7) / 8 ≤ k)

/-- `SRC_RPOS = 8 · SRC_CURSOR − SRC_VALID`: the stream bits consumed (R33, R141). -/
def srcRpos (d : DecChannel) : Nat := 8 * d.srcCursor - d.srcValid

/-- `avail`: the stream bits not yet consumed (R141). -/
def avail (d : DecChannel) : Nat := d.srcValid + 8 * (d.srcLen - d.srcCursor)

/-- "channel failed" of the encoder channel (R36). -/
def encFailed (e : EncChannel) : Bool := e.err.kind != .noError

/-- "channel finished" of the encoder channel (R36). -/
def encFinished (e : EncChannel) : Bool := e.state == .done

/-- "channel failed" of the decoder channel (R36). -/
def decFailed (d : DecChannel) : Bool := d.err.kind != .noError

/-- "channel finished" of the decoder channel (R36). -/
def decFinished (d : DecChannel) : Bool := d.state == .done

/-- "running": a decode is in progress (R112). -/
def DecState.running : DecState → Bool
  | .idle => false
  | .awaitingFirst => true
  | .readingControlA => true
  | .repeating => true
  | .readingControlB => true
  | .reuseWindow => true
  | .newWindow => true
  | .readingMeaningfulBits => true
  | .checkSentinel => true
  | .done => false
  | .raw => false

/-- The reuse test of the encoder: a Window is in force and the delta's counts, the leading one clamped, are each at
least the Window's (R163, R165). -/
def reusable (w : Window) (lead trail : Nat) : Bool := w.valid && decide (w.lead ≤ lead) && decide (w.trail ≤ trail)

/-- The expected-count check fails where the decode would end in success: it is enabled and the count differs (R31,
R192, R199). -/
def countDisagrees (d : DecChannel) (count : Nat) : Bool := d.expectEn && count != d.expect

end Sys2Proof.Machine
end

