-- ==== Sys2Proof/Machine/Ops.lean ====
section
/-! DEFINITION. The operations the meanings share: byte memory, error entry and recovery (R253, R256), the sink's
`writeBits` (R121), the source's `construct`, `refill`, `take`, `readBits` (R140 to R145), the begin operations' Window, and
the two ways an operation on a channel becomes a step of the machine. -/

namespace Sys2Proof.Machine

/-! ### Byte memory -/

/-- The byte a memory holds at an address, or nothing where nothing has been written: an unlisted address has no value
(log 6). -/
def Memory.read? : Memory → Nat → Option Byte
  | [], _ => none
  | (a, b) :: m, x => if x = a then some b else Memory.read? m x

/-- The memory with one byte written; the addresses stay strictly rising. -/
def Memory.write : Memory → Nat → Byte → Memory
  | [], x, v => [(x, v)]
  | (a, b) :: m, x, v =>
    if x < a then (x, v) :: (a, b) :: m
    else if x = a then (x, v) :: m
    else (a, b) :: Memory.write m x v

/-- The canonical form: addresses strictly rising. No listed byte equals what an unlisted address reads as, which is no
value. -/
def Memory.wf : Memory → Bool
  | [] => true
  | [_] => true
  | (a, _) :: (a', b') :: m => decide (a < a') && Memory.wf ((a', b') :: m)

/-- Every listed address lies below a capacity (R60). -/
def Memory.below (cap : Option Nat) (m : Memory) : Bool :=
  match cap with
  | none => true
  | some k => m.all fun cell => decide (cell.1 < k)

/-- The memory that holds a list of bytes from address `a` upward and nothing else. -/
def Memory.ofBytes (a : Nat) : List Byte → Memory
  | [] => []
  | b :: bs => (a, b) :: Memory.ofBytes (a + 1) bs

/-- A byte of `OBUF`; where nothing has been written, a free value (R26, log 6). -/
def obufByte (e : EncChannel) (a : Nat) : Byte := (e.obuf.read? a).getD (Config.unwrittenObuf e.epoch a)

/-- A byte of `IBUF`; where the host has not written, a free value (R34, log 6). -/
def ibufByte (d : DecChannel) (a : Nat) : Byte := (d.ibuf.read? a).getD (Config.unwrittenIbuf d.epoch a)

/-! ### Error entry and recovery -/

/-- `raise <Kind>(cause)` on the encoder channel: the error entry of R253. The kind and cause are latched, the channel
is `DONE`, the response is `Err`; nothing else is saved or changed. -/
def raiseEnc (kind : ErrKind) (cause : Cause) (e : EncChannel) : EncChannel × Response :=
  ({ e with err := ⟨kind, cause⟩, state := .done }, .err kind cause)

/-- What one state rule of the decoder answers: a sample it emitted, nothing emitted, or an error it raised (R191). -/
inductive StepAnswer where
  | sample (v : Sample)
  | noSample
  | err (kind : ErrKind) (cause : Cause)
  deriving DecidableEq, Repr

/-- `raise <Kind>(cause)` on the decoder channel (R253); `d` is the channel with the assignments made before the
`raise`. -/
def raiseDec (kind : ErrKind) (cause : Cause) (d : DecChannel) : DecChannel × StepAnswer :=
  ({ d with err := ⟨kind, cause⟩, state := .done }, .err kind cause)

/-- Recovery of the encoder channel (R256): "there is no return operation"; a begin or init operation clears the error,
rewinds the sink and puts the channel in the state it starts in (R120, R160). -/
def restartEnc (state : EncState) (e : EncChannel) : EncChannel :=
  { e with wbits := 0, err := ErrReg.clear, state := state }

/-- `construct(len)` (R140): the source stands at the start of the slice with an empty cache; no byte is read. -/
def construct (len : Nat) (d : DecChannel) : DecChannel :=
  { d with srcLen := len, srcCursor := 0, srcCache := 0, srcValid := 0 }

/-- Recovery of the decoder channel (R256): a begin or init operation constructs the source, clears the error and puts
the channel in the state it starts in (R140, R190). -/
def restartDec (state : DecState) (len : Nat) (d : DecChannel) : DecChannel :=
  { construct len d with err := ErrReg.clear, state := state }

/-! ### The sink: `writeBits` -/

/-- One turn of the loop of R121: the bit goes to stream position `SNK_WBITS`, a new byte being written whole and a
byte already begun having the bit turned on. -/
def putBit (b : Bool) (e : EncChannel) : EncChannel :=
  let p := e.wbits
  let bit : Byte := (BitVec.ofBool b).setWidth 8 <<< (7 - p % 8)
  let byte : Byte := if p % 8 = 0 then bit else obufByte e (p / 8) ||| bit
  { e with obuf := e.obuf.write (p / 8) byte, wbits := p + 1 }

/-- `writeBits(value, count)` (R121): `value[count−1]` first, `value[0]` last. -/
def writeBits (value : Sample) : Nat → EncChannel → EncChannel
  | 0, e => e
  | count + 1, e => writeBits value count (putBit (value.getLsbD count) e)

/-! ### The source: `refill`, `take`, `readBits` -/

/-- `refill()` (R142): the next `min(8, SRC_LEN − SRC_CURSOR)` bytes of the slice, big-endian, into the low bits of the
cache. Performed only when `SRC_VALID = 0` and `SRC_CURSOR < SRC_LEN`. -/
def refill (d : DecChannel) : DecChannel :=
  let k := min 8 (d.srcLen - d.srcCursor)
  { d with
    srcCache := bigEndian (ibufByte d) d.srcCursor k
    srcValid := 8 * k
    srcCursor := d.srcCursor + k }

/-- The refill of R145's loop: only when the cache is empty. -/
def refillIfEmpty (d : DecChannel) : DecChannel := if d.srcValid = 0 then refill d else d

/-- `take(n)`, `1 ≤ n ≤ SRC_VALID` (R143): the top `n` of the valid bits, which are cleared. -/
def takeBits (n : Nat) (d : DecChannel) : Sample × DecChannel :=
  let chunk := (d.srcCache >>> (d.srcValid - n)) &&& mask n
  let valid := d.srcValid - n
  (chunk, { d with srcValid := valid, srcCache := d.srcCache &&& mask valid })

/-- The loop of R145 with `rem` bits still to read. `fuel` bounds the turns: each turn takes at least one bit, so
`rem` turns are enough (log 13). -/
def readLoop : (fuel rem : Nat) → Sample → DecChannel → Sample × DecChannel
  | 0, _, result, d => (result, d)
  | fuel + 1, rem, result, d =>
    if rem = 0 then (result, d)
    else
      let d1 := refillIfEmpty d
      let n := min rem d1.srcValid
      let t := takeBits n d1
      let result' := if n = 64 then t.1 else (result <<< n) ||| t.1
      readLoop fuel (rem - n) result' t.2

/-- `readBits(count)` (R145); nothing where `count > avail`, and then nothing is consumed (R146). -/
def readBits (count : Nat) (d : DecChannel) : Option (Sample × DecChannel) :=
  if count > avail d then none else some (readLoop count count 0 d)

/-- The unread part of the stream: the valid bits of the cache, then the bytes from `SRC_CURSOR` to `SRC_LEN` (R33). -/
def unreadBits (d : DecChannel) : List Bool :=
  fieldBits d.srcCache d.srcValid
    ++ (List.range (d.srcLen - d.srcCursor)).flatMap fun i => byteBits (ibufByte d (d.srcCursor + i))

/-- The stream bits of `OBUF` that have been written, in order (R121, R125 (b)). -/
def writtenBits (e : EncChannel) : List Bool := (List.range e.wbits).map (streamBit (obufByte e))

/-! ### From a channel to the machine -/

/-- An operation on the encoder channel as a step of the machine: it reads the configuration and its channel, writes its
channel, and returns its response (R13, R15). A `Cfg` outside R6 is refused (log 2). -/
def onEnc (f : Cfg → EncChannel → EncChannel × Response) (s : State) : Result :=
  if s.cfg.wf then
    let r := f s.cfg s.enc
    .next (s.setEnc r.1 r.2)
  else .refused .illFormedCfg

/-- An operation on the decoder channel as a step of the machine (R13, R15). -/
def onDec (f : Cfg → DecChannel → DecChannel × Response) (s : State) : Result :=
  if s.cfg.wf then
    let r := f s.cfg s.dec
    .next (s.setDec r.1 r.2)
  else .refused .illFormedCfg

end Sys2Proof.Machine
end

