-- ==== Sys2Proof/Machine/BitSink.lean ====
section
/-! DEFINITION. The operations of the `variable_width_bit_packer` (BitSink): `SNK_INIT`, `SNK_WRITE`, `SNK_FINAL`
(`40_bit_packer.md`). -/

namespace Sys2Proof.Machine

/-- `SNK_INIT` (R120): an empty sink for direct use, in every state of the channel. -/
def snkInit (_ : Cfg) (e : EncChannel) : EncChannel × Response :=
  (restartEnc .raw e, .ok .unit)

/-- `SNK_WRITE value, count` (R122). -/
def snkWrite (value : Sample) (count : BitVec 7) (c : Cfg) (e : EncChannel) : EncChannel × Response :=
  if e.state ≠ .raw ∨ count.toNat > 64 then (e, .refused)
  else if fits c e count.toNat then (writeBits value count.toNat e, .ok .unit)
  else raiseEnc .capacityExceeded .noCause e

/-- `SNK_FINAL` (R124): nothing is written, the padding bits are zero already. -/
def snkFinal (_ : Cfg) (e : EncChannel) : EncChannel × Response :=
  if e.state ≠ .raw then (e, .refused)
  else ({ e with state := .done }, .ok (.length (snkLen e)))

/-- The meaning of `SNK_INIT`. -/
def execSnkInit (s : State) : Result := onEnc snkInit s

/-- The meaning of `SNK_WRITE`. -/
def execSnkWrite (value : Sample) (count : BitVec 7) (s : State) : Result := onEnc (snkWrite value count) s

/-- The meaning of `SNK_FINAL`. -/
def execSnkFinal (s : State) : Result := onEnc snkFinal s

end Sys2Proof.Machine
end

