-- ==== Sys2Proof/Machine/BitSource.lean ====
section
/-! DEFINITION. The operations of the `bit_buffer_with_refill` (BitSource): `SRC_INIT`, `SRC_RDBIT`, `SRC_RDBITS`
(`41_bit_buffer.md`). -/

namespace Sys2Proof.Machine

/-- The response to the host that a state rule's or a raw read's answer stands for (R13, R191). -/
def stepResponse : StepAnswer → Response
  | .sample v => .ok (.sample v)
  | .noSample => .ok .noSample
  | .err kind cause => .err kind cause

/-- A raw read of `count` bits in `RAW`: the value as `result` presents it, or `UnexpectedEof(RAW_READ)` (R147, R148). -/
def rawRead (count : Nat) (result : Sample → OkResult) (d : DecChannel) : DecChannel × Response :=
  match readBits count d with
  | some (v, d') => (d', .ok (result v))
  | none =>
    let r := raiseDec .unexpectedEof .rawRead d
    (r.1, stepResponse r.2)

/-- `SRC_INIT len` (R140). -/
def srcInit (len : Nat) (c : Cfg) (d : DecChannel) : DecChannel × Response :=
  if withinCap len c.ibufCap then (restartDec .raw len d, .ok .unit) else (d, .refused)

/-- `SRC_RDBIT` (R147): the bit read by `readBits(1)`, as a boolean (R144). -/
def srcRdBit (_ : Cfg) (d : DecChannel) : DecChannel × Response :=
  if d.state ≠ .raw then (d, .refused) else rawRead 1 (fun v => .bit (v.getLsbD 0)) d

/-- `SRC_RDBITS count` (R148). -/
def srcRdBits (count : BitVec 7) (_ : Cfg) (d : DecChannel) : DecChannel × Response :=
  if d.state ≠ .raw ∨ count.toNat = 0 ∨ count.toNat > 64 then (d, .refused)
  else rawRead count.toNat .value d

/-- The meaning of `SRC_INIT`. -/
def execSrcInit (len : Nat) (s : State) : Result := onDec (srcInit len) s

/-- The meaning of `SRC_RDBIT`. -/
def execSrcRdBit (s : State) : Result := onDec srcRdBit s

/-- The meaning of `SRC_RDBITS`. -/
def execSrcRdBits (count : BitVec 7) (s : State) : Result := onDec (srcRdBits count) s

end Sys2Proof.Machine
end

