-- ==== Sys2Proof/Machine/Decoder.lean ====
section
/-! DEFINITION. The operations of the `delta_xor_decoder` (Decoder): `DEC_BEGIN`, `DEC_STEP`, `DEC_NEXT`, `DEC_RUN`,
`DEC_SET_EXPECT` (`43_decoder.md`), over one definition per state of its state machine. A state rule that reads a field is
the read followed by a definition of what the field's value does (`accept…`), which the codewords' meanings share. -/

namespace Sys2Proof.Machine

/-! ### What a field's value does -/

/-- The tag is latched, not compared (R192). -/
def acceptTag (t : Sample) (d : DecChannel) : DecChannel := { d with tag := t.setWidth 8 }

/-- The first sample is emitted without being compared with `SENTINEL` (R192). -/
def acceptFirst (v : Sample) (d : DecChannel) : DecChannel × StepAnswer :=
  ({ d with prev := v, count := 1, state := .readingControlA }, .sample v)

/-- The header of a `NEW`: the Window and `DEC_M`, or `WINDOW_OVERRUN` with both unchanged (R197). -/
def acceptHeader (lead len : Nat) (d : DecChannel) : DecChannel × StepAnswer :=
  let m := len + 1
  if lead + m > 64 then raiseDec .unexpectedEof .windowOverrun d
  else ({ d with win := ⟨true, lead, 64 - lead - m⟩, m := m, state := .readingMeaningfulBits }, .noSample)

/-- The meaningful bits give the delta and the value to test (R198). -/
def acceptBits (x : Sample) (d : DecChannel) : DecChannel × StepAnswer :=
  ({ d with cur := d.prev ^^^ deltaOf x d.win.trail, state := .checkSentinel }, .noSample)

/-! ### The states -/

/-- The end of a decode that succeeds: `DONE`, or `InvariantViolation` where the expected count is checked and differs
from the samples emitted, `count` (R192, R199). -/
def finishDecode (count : Nat) (d : DecChannel) : DecChannel × StepAnswer :=
  if countDisagrees d count then raiseDec .invariantViolation .noCause d
  else ({ d with state := .done }, .noSample)

/-- The tag byte where one is used (R192); nothing where it cannot be read. -/
def readTag (c : Cfg) (d : DecChannel) : Option DecChannel :=
  if c.tagEn then (readBits 8 d).map fun r => acceptTag r.1 r.2 else some d

/-- State `AWAITING_FIRST` (R192). -/
def ruleAwaitingFirst (c : Cfg) (d : DecChannel) : DecChannel × StepAnswer :=
  if d.srcLen = 0 then finishDecode 0 d
  else
    match readTag c d with
    | none => raiseDec .unexpectedEof .first d
    | some d1 =>
      match readBits 64 d1 with
      | none => raiseDec .unexpectedEof .first d1
      | some (v, d2) => acceptFirst v d2

/-- State `READING_CONTROL_A` (R193). -/
def ruleControlA (d : DecChannel) : DecChannel × StepAnswer :=
  match readBits 1 d with
  | none => raiseDec .unexpectedEof .controlA d
  | some (a, d') => ({ d' with state := if a = 0 then .repeating else .readingControlB }, .noSample)

/-- State `REPEAT` (R194). -/
def ruleRepeat (d : DecChannel) : DecChannel × StepAnswer :=
  ({ d with count := d.count + 1, state := .readingControlA }, .sample d.prev)

/-- State `READING_CONTROL_B` (R195). -/
def ruleControlB (d : DecChannel) : DecChannel × StepAnswer :=
  match readBits 1 d with
  | none => raiseDec .unexpectedEof .controlB d
  | some (b, d') => ({ d' with state := if b = 0 then .reuseWindow else .newWindow }, .noSample)

/-- State `REUSE_WINDOW` (R196). -/
def ruleReuseWindow (d : DecChannel) : DecChannel × StepAnswer :=
  if d.win.valid then ({ d with m := d.win.width, state := .readingMeaningfulBits }, .noSample)
  else raiseDec .unexpectedEof .noWindow d

/-- State `NEW_WINDOW` (R197). -/
def ruleNewWindow (c : Cfg) (d : DecChannel) : DecChannel × StepAnswer :=
  match readBits c.leadW.bits d with
  | none => raiseDec .unexpectedEof .header d
  | some (l, d1) =>
    match readBits 6 d1 with
    | none => raiseDec .unexpectedEof .header d1
    | some (f, d2) => acceptHeader l.toNat f.toNat d2

/-- State `READING_MEANINGFUL_BITS` (R198). -/
def ruleMeaningfulBits (d : DecChannel) : DecChannel × StepAnswer :=
  match readBits d.m d with
  | none => raiseDec .unexpectedEof .bits d
  | some (x, d') => acceptBits x d'

/-- State `CHECK_SENTINEL` (R199). -/
def ruleCheckSentinel (c : Cfg) (d : DecChannel) : DecChannel × StepAnswer :=
  if d.cur = c.sentinel then finishDecode d.count d
  else ({ d with prev := d.cur, count := d.count + 1, state := .readingControlA }, .sample d.cur)

/-- The rule of `DEC_STATE` applied once (R191). In `IDLE`, `RAW` and `DONE`, where the operation is refused before it
comes here, nothing. -/
def decStepRule (c : Cfg) (d : DecChannel) : DecChannel × StepAnswer :=
  match d.state with
  | .idle => (d, .noSample)
  | .awaitingFirst => ruleAwaitingFirst c d
  | .readingControlA => ruleControlA d
  | .repeating => ruleRepeat d
  | .readingControlB => ruleControlB d
  | .reuseWindow => ruleReuseWindow d
  | .newWindow => ruleNewWindow c d
  | .readingMeaningfulBits => ruleMeaningfulBits d
  | .checkSentinel => ruleCheckSentinel c d
  | .done => (d, .noSample)
  | .raw => (d, .noSample)

/-! ### The operations -/

/-- `DEC_BEGIN len` (R190). -/
def decBegin (len : Nat) (c : Cfg) (d : DecChannel) : DecChannel × Response :=
  if withinCap len c.ibufCap then
    ({ restartDec .awaitingFirst len d with
        count := 0, prev := 0, cur := 0, m := 0, tag := 0, win := c.initialWindow },
      .ok .unit)
  else (d, .refused)

/-- `DEC_STEP` (R191): one transition of the state machine. -/
def decStep (c : Cfg) (d : DecChannel) : DecChannel × Response :=
  if d.state.running then
    let r := decStepRule c d
    (r.1, stepResponse r.2)
  else (d, .refused)

/-- The loop of R201. `fuel` bounds the steps: five always lead to a sample, to `DONE` or to an error (R201, log 13). -/
def nextLoop (c : Cfg) : Nat → DecChannel → DecChannel × StepAnswer
  | 0, d => (d, .noSample)
  | fuel + 1, d =>
    let r := decStepRule c d
    if r.2 = .noSample ∧ r.1.state ≠ .done then nextLoop c fuel r.1 else r

/-- One `DEC_NEXT` from a running state (R201): the answer `noSample` stands for `End`. -/
def nextRule (c : Cfg) (d : DecChannel) : DecChannel × StepAnswer := nextLoop c 5 d

/-- The response of `DEC_NEXT` (R201). -/
def nextResponse : StepAnswer → Response
  | .sample v => .ok (.sample v)
  | .noSample => .ok .endOfStream
  | .err kind cause => .err kind cause

/-- `DEC_NEXT` (R201): advance to the next emitted sample or to the end. -/
def decNext (c : Cfg) (d : DecChannel) : DecChannel × Response :=
  if d.state.running then
    let r := nextRule c d
    (r.1, nextResponse r.2)
  else (d, .refused)

/-- The loop of R202, `out` the samples so far. `fuel` bounds the turns: every `DEC_NEXT` after the first consumes at
least one of the stream's bits (R202, log 13). -/
def runLoop (c : Cfg) : (fuel : Nat) → (out : List Sample) → DecChannel → DecChannel × Response
  | 0, out, d => (d, .ok (.samples out))
  | fuel + 1, out, d =>
    match nextRule c d with
    | (d', .sample v) => runLoop c fuel (out ++ [v]) d'
    | (d', .noSample) => (d', .ok (.samples out))
    | (d', .err kind cause) => (d', .err kind cause)

/-- `DEC_RUN` (R202): run to the end. -/
def decRun (c : Cfg) (d : DecChannel) : DecChannel × Response :=
  if d.state.running then runLoop c (avail d + 2) [] d else (d, .refused)

/-- `DEC_SET_EXPECT en, n` (R204): legal in every state. -/
def decSetExpect (en : Bool) (n : Nat) (_ : Cfg) (d : DecChannel) : DecChannel × Response :=
  ({ d with expectEn := en, expect := n }, .ok .unit)

/-- The meaning of `DEC_BEGIN`. -/
def execDecBegin (len : Nat) (s : State) : Result := onDec (decBegin len) s

/-- The meaning of `DEC_STEP`. -/
def execDecStep (s : State) : Result := onDec decStep s

/-- The meaning of `DEC_NEXT`. -/
def execDecNext (s : State) : Result := onDec decNext s

/-- The meaning of `DEC_RUN`. -/
def execDecRun (s : State) : Result := onDec decRun s

/-- The meaning of `DEC_SET_EXPECT`. -/
def execDecSetExpect (en : Bool) (n : Nat) (s : State) : Result := onDec (decSetExpect en n) s

end Sys2Proof.Machine
end

