-- ==== Sys2Proof/Machine/Codewords.lean ====
section
/-! DEFINITION. The six codewords of the stream as instructions: the decoder's execution of each (R92 to R100, R192 to
R199), with the codeword's fields as operands. The stream bits the codeword takes are consumed as the state rules consume
them; the values come from the operands. `DEC_NEXT` fetches the codeword that stands next and does the same (log 5). -/

namespace Sys2Proof.Machine

/-- The position the decoder stands at, where it stands between two codewords (R92). -/
def codewordPos (c : Cfg) (d : DecChannel) : Option CwPos :=
  match d.state with
  | .awaitingFirst =>
    if d.srcLen = 0 then none
    else if c.tagEn && srcRpos d == 0 then some .tag
    else if srcRpos d = 8 * c.tagBytes then some .first
    else none
  | .readingControlA => some .data
  | .done => if decFailed d then none else some (.pad (BitVec.ofNat 3 (padCount (srcRpos d))))
  | _ => none

/-- The codeword that stands next in the stream, and the stream after it: the decoder's fetch. -/
def fetchCodeword (c : Cfg) (d : DecChannel) : Option (Except DecodeError (Instr × List Bool)) :=
  (codewordPos c d).map fun pos => decodeCodeword c d.win pos (unreadBits d)

/-- One part of a codeword: its bits are consumed, or the error of the state that reads them is raised; then `next`. -/
def consume (n : Nat) (cause : Cause) (next : DecChannel → DecChannel × StepAnswer) (d : DecChannel) :
    DecChannel × StepAnswer :=
  match readBits n d with
  | none => raiseDec .unexpectedEof cause d
  | some (_, d') => next d'

/-- What follows a rule that did not raise: `next` from where it left the channel. -/
def andThen (r : DecChannel × StepAnswer) (next : DecChannel → DecChannel × StepAnswer) : DecChannel × StepAnswer :=
  match r with
  | (d, .noSample) => next d
  | other => other

/-- The meaningful bits of a codeword, then the sentinel test (R198, R199). -/
def finishCodeword (c : Cfg) (bits : Sample) (d : DecChannel) : DecChannel × StepAnswer :=
  consume d.m .bits (fun d' => andThen (acceptBits bits d') (ruleCheckSentinel c)) d

/-- `TAG`: the byte is latched; the `FIRST` codeword is still awaited (R93, R192). -/
def stepTag (t : Byte) (d : DecChannel) : DecChannel × StepAnswer :=
  consume 8 .first (fun d' => (acceptTag (t.setWidth 64) d', .noSample)) d

/-- `FIRST` (R94, R192). -/
def stepFirst (v : Sample) (d : DecChannel) : DecChannel × StepAnswer :=
  consume 64 .first (acceptFirst v) d

/-- `REPEAT` (R95, R193, R194). -/
def stepRepeat (d : DecChannel) : DecChannel × StepAnswer :=
  consume 1 .controlA ruleRepeat d

/-- `REUSE` (R96, R193, R195, R196, R198, R199). -/
def stepReuse (c : Cfg) (bits : Sample) (d : DecChannel) : DecChannel × StepAnswer :=
  consume 1 .controlA (consume 1 .controlB fun d' => andThen (ruleReuseWindow d') (finishCodeword c bits)) d

/-- `NEW` (R97, R193, R195, R197, R198, R199). -/
def stepNew (c : Cfg) (lead len : Nat) (bits : Sample) (d : DecChannel) : DecChannel × StepAnswer :=
  consume 1 .controlA
    (consume 1 .controlB
      (consume c.leadW.bits .header
        (consume 6 .header fun d' => andThen (acceptHeader lead len d') (finishCodeword c bits)))) d

/-- A codeword in a position that does not select it, or with a field wider than its format, is `Refused` like any
operation not legal there (R13, log 5); `legal` is the rest of its conditions. -/
def onCodeword (i : Instr) (legal : Cfg → DecChannel → Bool) (rule : Cfg → DecChannel → DecChannel × StepAnswer)
    (response : StepAnswer → Response) (c : Cfg) (d : DecChannel) : DecChannel × Response :=
  if (codewordPos c d).any (fun pos => i.standsAt pos) && legal c d then
    let r := rule c d
    (r.1, response r.2)
  else (d, .refused)

/-- The `BITS` of a `REUSE` fit the Window in force; without one there is no width to fit, and the codeword is
malformed (R96, R102 (a)). -/
def reuseFits (bits : Sample) (_ : Cfg) (d : DecChannel) : Bool := !d.win.valid || bitsFit bits d.win.width

/-- The fields of a `NEW` fit their widths; where the counts exceed 64 there is no `BITS` field to fit, and the
codeword is malformed (R97, R102 (b)). -/
def newFits (lead len : Nat) (bits : Sample) (c : Cfg) (_ : DecChannel) : Bool :=
  decide (lead ≤ c.leadMax) && (decide (lead + (len + 1) > 64) || bitsFit bits (len + 1))

/-- The meaning of `TAG`. -/
def execCwTag (t : Byte) (s : State) : Result :=
  onDec (onCodeword (.cwTag t) (fun _ _ => true) (fun _ => stepTag t) stepResponse) s

/-- The meaning of `FIRST`. -/
def execCwFirst (v : Sample) (s : State) : Result :=
  onDec (onCodeword (.cwFirst v) (fun _ _ => true) (fun _ => stepFirst v) nextResponse) s

/-- The meaning of `REPEAT`. -/
def execCwRepeat (s : State) : Result :=
  onDec (onCodeword .cwRepeat (fun _ _ => true) (fun _ => stepRepeat) nextResponse) s

/-- The meaning of `REUSE`. -/
def execCwReuse (bits : Sample) (s : State) : Result :=
  onDec (onCodeword (.cwReuse bits) (reuseFits bits) (fun c => stepReuse c bits) nextResponse) s

/-- The meaning of `NEW`. -/
def execCwNew (lead len : BitVec 6) (bits : Sample) (s : State) : Result :=
  onDec (onCodeword (.cwNew lead len bits) (newFits lead.toNat len.toNat bits)
    (fun c => stepNew c lead.toNat len.toNat bits) nextResponse) s

/-- The meaning of `PAD`: after the terminal codeword "the decoder stops at the sentinel and reads nothing after it"
(R100), so nothing changes. -/
def execCwPad (n : BitVec 3) (s : State) : Result :=
  onDec (onCodeword (.cwPad n) (fun _ _ => true) (fun _ d => (d, .noSample)) fun _ => .ok .unit) s

end Sys2Proof.Machine
end

