-- ==== Sys2Proof/Machine/Encoder.lean ====
section
/-! DEFINITION. The operations of the `delta_xor_encoder` (Encoder): `ENC_BEGIN`, `ENC_SAMPLE`, `ENC_END`
(`42_encoder.md`), over the steps `first_value`, `emit_delta`, `reuse_window`, `new_window`. -/

namespace Sys2Proof.Machine

/-- What a step that writes a codeword answers: the channel after it and the codeword, or nothing where it raises
`CapacityExceeded`, having written nothing (R123). -/
abbrev Emitted := Option (EncChannel × CwReport)

/-- `first_value(v)` (R162): the tag byte where one is used, then the whole sample. -/
def firstValue (c : Cfg) (v : Sample) (e : EncChannel) : Emitted :=
  let n := 64 + 8 * c.tagBytes
  if fits c e n then
    let tagged := if c.tagEn then writeBits (c.tagValue.setWidth 64) 8 e else e
    some (writeBits v 64 tagged, ⟨.first, n⟩)
  else none

/-- The `REPEAT` codeword: one `0` bit; the Window is not touched (R163). -/
def emitRepeat (c : Cfg) (e : EncChannel) : Emitted :=
  if fits c e 1 then some (writeBits 0 1 e, ⟨.repeated, 1⟩) else none

/-- `reuse_window(delta)` (R165): `1 0`, then the delta's bits inside the Window in force. -/
def reuseWindow (c : Cfg) (delta : Sample) (e : EncChannel) : Emitted :=
  let w := e.win.width
  if fits c e (2 + w) then
    some (writeBits (meaningfulBits delta e.win.trail) w (writeBits 0b10 2 e), ⟨.reuse, 2 + w⟩)
  else none

/-- `new_window(delta, lead, trail)` (R166): `1 1`, the clamped leading count, the length minus one, the meaningful
bits; the Window becomes `(lead, trail)`. -/
def newWindow (c : Cfg) (delta : Sample) (lead trail : Nat) (e : EncChannel) : Emitted :=
  let m := 64 - lead - trail
  let n := 2 + c.leadW.bits + 6 + m
  if fits c e n then
    let prefixed := writeBits 0b11 2 e
    let withLead := writeBits (BitVec.ofNat 64 lead) c.leadW.bits prefixed
    let withLen := writeBits (BitVec.ofNat 64 (m - 1)) 6 withLead
    let written := writeBits (meaningfulBits delta trail) m withLen
    some ({ written with win := ⟨true, lead, trail⟩ }, ⟨.new, n⟩)
  else none

/-- `emit_delta(delta)` (R163), for every value after the first and for the terminal delta. -/
def emitDelta (c : Cfg) (delta : Sample) (e : EncChannel) : Emitted :=
  if delta = 0 then emitRepeat c e
  else
    let lead := clampedLead c delta
    let trail := ctz64 delta
    if reusable e.win lead trail then reuseWindow c delta e else newWindow c delta lead trail e

/-- `ENC_BEGIN` (R160). -/
def encBegin (c : Cfg) (e : EncChannel) : EncChannel × Response :=
  ({ restartEnc .active e with count := 0, prev := 0, win := c.initialWindow }, .ok .unit)

/-- `ENC_SAMPLE v` (R161): the sentinel test, then the first value or a delta. -/
def encSample (v : Sample) (c : Cfg) (e : EncChannel) : EncChannel × Response :=
  if e.state ≠ .active then (e, .refused)
  else if v = c.sentinel then raiseEnc .reservedValueCollision .noCause e
  else
    match if e.count = 0 then firstValue c v e else emitDelta c (v ^^^ e.prev) e with
    | some (e', cw) => ({ e' with prev := v, count := e.count + 1 }, .ok (.codeword cw))
    | none => raiseEnc .capacityExceeded .noCause e

/-- The finalize of `ENC_END` (R124, R167). -/
def finishEncode (e : EncChannel) : EncChannel × Response :=
  ({ e with state := .done }, .ok (.length (snkLen e)))

/-- `ENC_END` (R167): the terminal codeword where any sample was given, then the finalize. -/
def encEnd (c : Cfg) (e : EncChannel) : EncChannel × Response :=
  if e.state ≠ .active then (e, .refused)
  else if e.count = 0 then finishEncode e
  else
    match emitDelta c (c.sentinel ^^^ e.prev) e with
    | some (e', _) => finishEncode e'
    | none => raiseEnc .capacityExceeded .noCause e

/-- The meaning of `ENC_BEGIN`. -/
def execEncBegin (s : State) : Result := onEnc encBegin s

/-- The meaning of `ENC_SAMPLE`. -/
def execEncSample (v : Sample) (s : State) : Result := onEnc (encSample v) s

/-- The meaning of `ENC_END`. -/
def execEncEnd (s : State) : Result := onEnc encEnd s

end Sys2Proof.Machine
end

