-- ==== Sys2Proof/Machine/Dispatch.lean ====
section
/-! DEFINITION. One arm per instruction. -/

namespace Sys2Proof.Machine

def exec (i : Instr) (s : State) : Host.Outcome State Fault Refusal :=
  match i with
  -- the codewords of the stream
  | .cwTag t => Sys2Proof.Machine.execCwTag t s
  | .cwFirst v => Sys2Proof.Machine.execCwFirst v s
  | .cwRepeat => Sys2Proof.Machine.execCwRepeat s
  | .cwReuse bits => Sys2Proof.Machine.execCwReuse bits s
  | .cwNew lead len bits => Sys2Proof.Machine.execCwNew lead len bits s
  | .cwPad n => Sys2Proof.Machine.execCwPad n s
  -- the sink
  | .snkInit => Sys2Proof.Machine.execSnkInit s
  | .snkWrite value count => Sys2Proof.Machine.execSnkWrite value count s
  | .snkFinal => Sys2Proof.Machine.execSnkFinal s
  -- the encoder
  | .encBegin => Sys2Proof.Machine.execEncBegin s
  | .encSample v => Sys2Proof.Machine.execEncSample v s
  | .encEnd => Sys2Proof.Machine.execEncEnd s
  -- the source
  | .srcInit len => Sys2Proof.Machine.execSrcInit len s
  | .srcRdBit => Sys2Proof.Machine.execSrcRdBit s
  | .srcRdBits count => Sys2Proof.Machine.execSrcRdBits count s
  -- the decoder
  | .decBegin len => Sys2Proof.Machine.execDecBegin len s
  | .decStep => Sys2Proof.Machine.execDecStep s
  | .decNext => Sys2Proof.Machine.execDecNext s
  | .decRun => Sys2Proof.Machine.execDecRun s
  | .decSetExpect en n => Sys2Proof.Machine.execDecSetExpect en n s

end Sys2Proof.Machine
end

