-- ==== Sys2Proof/Machine/HostPort.lean ====
section
/-! DEFINITION. The host's side of the block: the actions that are not operations (a write to `IBUF`, the reset input), what
the host reads (registers by index, bytes of `OBUF`), and how an instruction is placed where the next step takes it. -/

namespace Sys2Proof.Machine

/-- Whether an address lies inside a memory of the given capacity (R60). -/
def addressExists (a : Nat) (cap : Option Nat) : Bool :=
  match cap with
  | none => true
  | some k => decide (a < k)

/-- The host writes a byte of `IBUF` (R34, R60). It is performed in every state of the decoder channel: while a decode
runs, what it does is what the later refills read (R284, R285). DESIGN CHOICE (log 15): R69 gives such a write no meaning. -/
def applyWriteIbuf (a : Nat) (b : Byte) (s : State) : Result :=
  if addressExists a s.cfg.ibufCap then .next { s with dec := { s.dec with ibuf := s.dec.ibuf.write a b } }
  else .fault .ibufAddressAbsent

/-- The reset input (R280): every register at its reset value, the content of both memories unspecified again, the
configuration and the host's waiting actions untouched (log 10). -/
def applyPowerOn (s : State) : State :=
  { State.reset with
    enc := { EncChannel.reset with epoch := s.enc.epoch + 1 }
    dec := { DecChannel.reset with epoch := s.dec.epoch + 1 }
    cfg := s.cfg
    pending := s.pending }

/-- A code that is not in the table: the response is `Refused` and nothing else changes (R110). -/
def refuseCode (s : State) : State := { s with resp := some .refused }

/-- The register of the encoder channel with index `E<i>` as the host reads it (R21); another index answers nothing (log 12). -/
def hostReadEnc (i : Nat) (s : State) : Option Nat :=
  match i with
  | 0 => some s.enc.state.code.toNat
  | 1 => some s.enc.err.word.toNat
  | 2 => some s.enc.count
  | 3 => some s.enc.prev.toNat
  | 4 => some (windowWord s.enc.win).toNat
  | 5 => some s.enc.wbits
  | 6 => some (snkLen s.enc)
  | _ => none

/-- The register of the decoder channel with index `D<i>` as the host reads it (R28); another index answers nothing (log 12). -/
def hostReadDec (i : Nat) (s : State) : Option Nat :=
  match i with
  | 0 => some s.dec.state.code.toNat
  | 1 => some s.dec.err.word.toNat
  | 2 => some s.dec.count
  | 3 => some s.dec.prev.toNat
  | 4 => some (windowWord s.dec.win).toNat
  | 5 => some s.dec.m
  | 6 => some s.dec.cur.toNat
  | 7 => some s.dec.tag.toNat
  | 8 => some s.dec.expect
  | 9 => some (BitVec.ofBool s.dec.expectEn).toNat
  | 10 => some s.dec.srcLen
  | 11 => some s.dec.srcCursor
  | 12 => some s.dec.srcValid
  | 13 => some s.dec.srcCache.toNat
  | 14 => some (srcRpos s.dec)
  | _ => none

/-- The byte of `OBUF` the host reads at an address: the defined part is `OBUF[0 .. SNK_LEN)`, and beyond it a byte
"holds no value" (R26, log 12). -/
def hostReadObuf (a : Nat) (s : State) : Option Byte := if a < snkLen s.enc then some (obufByte s.enc a) else none

/-- The bytes `OBUF[0 .. SNK_LEN)`: the result of `finalize` (R124). -/
def obufBytes (e : EncChannel) : List Byte := (List.range (snkLen e)).map (obufByte e)

/-- An operation placed where the next step takes it: at the head of the host's waiting actions (log 11). -/
def placeOperation (q : Issue) (s : State) : State := { s with pending := .op q :: s.pending }

/-- A codeword placed where the next step fetches it: the bytes of the stream in `IBUF`, after a tag byte where a
`FIRST` follows one, the decoder at the codeword with the Window a `REUSE` is read under, and `DEC_NEXT` issued
(log 11). -/
def placeCodeword (pos : CwPos) (bytes : List Byte) (s : State) : State :=
  let leading : List Byte := if pos = .first && s.cfg.tagEn then [0] else []
  let stream := leading ++ bytes
  placeOperation { code := 0x16#8 }
    { s with
      dec := { construct stream.length s.dec with
        ibuf := Memory.ofBytes 0 stream
        win := tableWindow
        state := if pos = .first then .awaitingFirst else .readingControlA } }

/-- `withFetchWord` (log 11): a table word of one byte is an operation, a longer one a codeword. -/
def placeTableWord (s : State) (nbits w : Nat) : State :=
  if nbits = 8 then placeOperation { code := BitVec.ofNat 8 w } s
  else placeCodeword (tablePos nbits) (tableStream nbits w) s

end Sys2Proof.Machine
end

