-- ==== Sys2Proof/Machine/Step.lean ====
section
/-! DEFINITION. One step of the machine: the oldest waiting action of the host is taken (R3, R15, R66). -/

namespace Sys2Proof.Machine

/-- One action of the host on a state that no longer holds it: an operation is decoded and executed, a code not in the
table is `Refused` (R110), a write to `IBUF` is performed, the reset input resets. DESIGN CHOICE (log 2): in a state whose
`Cfg` breaks R6 (b), for which U16 specifies nothing, every meaning refuses, while the unknown code, the host write and the
reset input are performed as in any other state. -/
def applyInput (input : HostInput) (s : State) : Result :=
  match input with
  | .op q =>
    match decodeIssue q with
    | .ok i => exec i s
    | .error _ => .next (refuseCode s)
  | .writeIbuf a b => applyWriteIbuf a b s
  | .powerOn => .next (applyPowerOn s)

/-- One step: with no action waiting the block does nothing ("it changes state only when the host issues one of the
operations", R3), under a `Cfg` that breaks R6 (b) as well (DESIGN CHOICE, log 2); else the oldest action is taken. -/
def step (s : State) : Host.Outcome State Fault Refusal :=
  match s.pending with
  | [] => .next s
  | input :: rest => applyInput input (s.popInput rest)

/-- `s` with the instruction of a table word placed where the very next step runs it (log 11). -/
def State.withFetchWord (s : State) (nbits w : Nat) : State := placeTableWord s nbits w

end Sys2Proof.Machine
end

