-- ==== Sys2Proof/Machine/Codec.lean ====
section
/-! DEFINITION. The source's whole-sequence operations as the compositions the spec gives: `encode` (R168) and `decode`
(R203), over `exec`. -/

namespace Sys2Proof.Machine

/-- One operation issued to a state: the state after it and its response; nothing where the model stops. -/
def issue (i : Instr) (s : State) : Option (State × Response) :=
  match exec i s with
  | .next t => t.resp.map fun r => (t, r)
  | .fault _ => none
  | .refused _ => none

/-- `for v in values: ENC_SAMPLE v`, stopping at the first response that is not `Ok` (R168). -/
def sampleLoop : List Sample → State → Option (State × Option ErrKind)
  | [], s => some (s, none)
  | v :: vs, s =>
    match issue (.encSample v) s with
    | some (t, .ok _) => sampleLoop vs t
    | some (t, .err kind _) => some (t, some kind)
    | _ => none

/-- `encode(values)` (R168): `Ok` of the bytes `OBUF[0 .. SNK_LEN)`, or `Err` of a kind; nothing where an operation was
refused, which the composition never is, or the model stops. -/
def encode (values : List Sample) (s : State) : Option (Except ErrKind (List Byte)) := do
  let (s0, _) ← issue .encBegin s
  let (s1, failed) ← sampleLoop values s0
  match failed with
  | some kind => return .error kind
  | none =>
    match ← issue .encEnd s1 with
    | (t, .ok _) => return .ok (obufBytes t.enc)
    | (_, .err kind _) => return .error kind
    | (_, .refused) => none

/-- The host writes a buffer to `IBUF[0 .. len)` (R203). -/
def loadIbuf (buffer : List Byte) (s : State) : State :=
  { s with dec := { s.dec with ibuf := Memory.ofBytes 0 buffer } }

/-- `decode(buffer)` (R203): `Ok` of the samples, or `Err` of a kind; nothing where an operation was refused (the buffer
is longer than `IBUF_CAP`) or the model stops. -/
def decode (buffer : List Byte) (s : State) : Option (Except ErrKind (List Sample)) := do
  match ← issue (.decBegin buffer.length) (loadIbuf buffer s) with
  | (s1, .ok _) =>
    match ← issue .decRun s1 with
    | (_, .ok (.samples vs)) => return .ok vs
    | (_, .err kind _) => return .error kind
    | _ => none
  | _ => none

end Sys2Proof.Machine
end

