-- ==== Sys2Proof/Safety.lean ====
section
/-! DEFINITION. The invariants the spec gives the machine (R24, R26, R32, R125, R149, R169, R205) and what a safe run is. -/

namespace Sys2Proof.Machine

/-- A Window register holds what R24 says it can: counts in range, `LEAD + TRAIL ≤ 63` when valid, both 0 when not. -/
def windowOk (c : Cfg) (w : Window) : Bool :=
  if w.valid then decide (w.lead ≤ c.leadMax) && decide (w.trail ≤ 63) && decide (w.lead + w.trail ≤ 63)
  else w.lead == 0 && w.trail == 0

/-- Every byte of the defined part of `OBUF` has been written (R26, R71). -/
def obufWritten (e : EncChannel) : Bool := (List.range (snkLen e)).all fun a => (e.obuf.read? a).isSome

/-- The padding bits of the last byte are zero (R26, R125 (c)). -/
def paddingZero (e : EncChannel) : Bool :=
  (List.range (padCount e.wbits)).all fun i => streamBit (obufByte e) (e.wbits + i) == false

/-- The invariant of the BitSink (R125 (a), (c)) and of the memory `OBUF`. -/
def sinkOk (c : Cfg) (e : EncChannel) : Bool :=
  e.obuf.wf && e.obuf.below c.obufCap && fits c e 0 && obufWritten e && paddingZero e

/-- The invariant of the encoder channel: the sink's, the Window's, R169 (a), (b) while `ACTIVE`, and an error latched
only in `DONE` with a kind of the encoder and no cause (R23, R250, R253). -/
def encOk (c : Cfg) (e : EncChannel) : Bool :=
  sinkOk c e && windowOk c e.win &&
    (e.state != .active ||
      ((e.wbits == 0) == (e.count == 0) && (e.count == 0 || e.prev != c.sentinel))) &&
    (e.err == ErrReg.clear ||
      (e.state == .done && e.err.cause == .noCause &&
        (e.err.kind == .reservedValueCollision || e.err.kind == .capacityExceeded)))

/-- The invariant of the BitSource (R149 (a) to (e), R32, R34) and of the memory `IBUF`. -/
def sourceOk (c : Cfg) (d : DecChannel) : Bool :=
  d.ibuf.wf && d.ibuf.below c.ibufCap && withinCap d.srcLen c.ibufCap &&
    decide (d.srcCursor ≤ d.srcLen) && decide (d.srcValid ≤ 64) && decide (d.srcCache.toNat < 2 ^ d.srcValid) &&
    decide (d.srcValid ≤ 8 * d.srcCursor) && (d.srcCursor % 8 == 0 || d.srcCursor == d.srcLen)

/-- An error latched in `DEC_ERR` has a kind of the decoder, a cause exactly for `UnexpectedEof`, and the channel is in
`DONE` (R23, R250 to R253). -/
def decErrOk (d : DecChannel) : Bool :=
  d.err == ErrReg.clear ||
    (d.state == .done &&
      ((d.err.kind == .unexpectedEof && d.err.cause != .noCause) ||
        (d.err.kind == .invariantViolation && d.err.cause == .noCause)))

/-- The invariant of the decoder channel: the source's, the Window's, `DEC_M` in range, no sample counted before the
first one is read (R190), R205 (a) and (c), the error register's. -/
def decOk (c : Cfg) (d : DecChannel) : Bool :=
  sourceOk c d && windowOk c d.win && decide (d.m ≤ 64) &&
    (d.state != .awaitingFirst || d.count == 0) &&
    (!d.state.running || d.state == .awaitingFirst || decide (1 ≤ d.count)) &&
    (d.state != .readingMeaningfulBits || (d.win.valid && d.m == d.win.width && decide (1 ≤ d.m))) &&
    decErrOk d

/-- The invariant of the machine: the configuration is one (R6) and both channels keep theirs. -/
def Inv (s : State) : Prop := s.cfg.wf = true ∧ encOk s.cfg s.enc = true ∧ decOk s.cfg s.dec = true

/-- R149 (f): the valid bits of the cache are the stream bits `SRC_RPOS` to `8 · SRC_CURSOR − 1` of `IBUF`. It holds
after every operation as long as the host does not write `IBUF` behind the cache (R284, R285). -/
def CacheMirrors (d : DecChannel) : Prop :=
  ∀ i, i < d.srcValid → d.srcCache.getLsbD (d.srcValid - 1 - i) = streamBit (ibufByte d) (srcRpos d + i)

/-- Where `SRC_CURSOR` stands after the next `n` stream bits have been read: a refill is performed only when the cache is
empty and a bit is still wanted, and takes `min(8, SRC_LEN − SRC_CURSOR)` bytes (R142, R145). So it has not moved where
the cache held the `n` bits, and else there was one refill for every 64 bits, begun or whole, that the cache did not
hold. -/
def cursorAfter (d : DecChannel) (n : Nat) : Nat :=
  if n ≤ d.srcValid then d.srcCursor else min d.srcLen (d.srcCursor + 8 * ((n - d.srcValid + 63) / 64))

/-- The source registers after a read of `n` stream bits, each with its exact value (R142, R143): the cursor as the lazy
refill leaves it; as many valid bits as there were, and 8 more for each byte a refill took, less the `n` read; in the
cache the next stream bits, the consumed ones cleared. A read of no bit leaves all three as they were. -/
def ReadLazily (d d' : DecChannel) (n : Nat) : Prop :=
  d'.srcCursor = cursorAfter d n ∧ d'.srcValid + n = d.srcValid + 8 * (d'.srcCursor - d.srcCursor) ∧
    d'.srcCache = if n = 0 then d.srcCache else fieldValue (((unreadBits d).drop n).take d'.srcValid)

/-- Between `d` and `d'` the source has consumed `n` stream bits and nothing else of the channel has changed: the unread
part of the stream is `n` bits shorter, `SRC_RPOS` has grown by `n` (R33, R145), and the source registers hold exactly
what the reads leave in them (R142, R143). For `n = 0` it says `d' = d`. -/
def Consumed (d d' : DecChannel) (n : Nat) : Prop :=
  d' = { d with srcCursor := d'.srcCursor, srcValid := d'.srcValid, srcCache := d'.srcCache } ∧
    unreadBits d' = (unreadBits d).drop n ∧ srcRpos d' = srcRpos d + n ∧ ReadLazily d d' n

/-- A step of the decoder channel that consumes `k` stream bits and then raises `UnexpectedEof`: the error latched, the
channel `DONE`, nothing else changed (R253). The read that failed has changed nothing, so where no bit was consumed
before it, `SRC_CURSOR`, `SRC_VALID` and `SRC_CACHE` are exactly as they were (R146). -/
def EofAfter (s : State) (k : Nat) (cause : Cause) (r : Result) : Prop :=
  ∃ d, Consumed s.dec d k ∧ (k = 0 → d = s.dec) ∧
    r = .next { s with
      dec := { d with err := ⟨.unexpectedEof, cause⟩, state := .done }
      resp := some (.err .unexpectedEof cause) }

/-- The memory `mem` is `OBUF` after the field `bits` has been appended to the sink of `e`: the written stream bits are
the old ones and then the field, the padding is zero (R121), and of the bytes only `SNK_WBITS >> 3` to
`(SNK_WBITS + count − 1) >> 3` can have changed (R64). -/
def Appended (e : EncChannel) (bits : List Bool) (mem : Memory) : Prop :=
  let e' := { e with obuf := mem, wbits := e.wbits + bits.length }
  writtenBits e' = writtenBits e ++ bits ∧ paddingZero e' = true ∧
    ∀ a, (bits = [] ∨ a < e.wbits / 8 ∨ (e.wbits + bits.length - 1) / 8 < a) → mem.read? a = e.obuf.read? a

/-- The operations of the encoder channel (R110, column "channel"). -/
def isEncoderOp : Instr → Bool
  | .cwTag _ => false
  | .cwFirst _ => false
  | .cwRepeat => false
  | .cwReuse _ => false
  | .cwNew _ _ _ => false
  | .cwPad _ => false
  | .snkInit => true
  | .snkWrite _ _ => true
  | .snkFinal => true
  | .encBegin => true
  | .encSample _ => true
  | .encEnd => true
  | .srcInit _ => false
  | .srcRdBit => false
  | .srcRdBits _ => false
  | .decBegin _ => false
  | .decStep => false
  | .decNext => false
  | .decRun => false
  | .decSetExpect _ _ => false

/-- Every register of the channel at the reset value R21 gives it. -/
def encAtReset (e : EncChannel) : Prop :=
  e.state = .idle ∧ e.err.word = 0 ∧ e.count = 0 ∧ e.prev = 0 ∧ windowWord e.win = 0 ∧ e.wbits = 0 ∧ snkLen e = 0

/-- Every register of the channel at the reset value R28 gives it. -/
def decAtReset (d : DecChannel) : Prop :=
  d.state = .idle ∧ d.err.word = 0 ∧ d.count = 0 ∧ d.prev = 0 ∧ windowWord d.win = 0 ∧ d.m = 0 ∧ d.cur = 0 ∧ d.tag = 0 ∧
    d.expect = 0 ∧ d.expectEn = false ∧ d.srcLen = 0 ∧ d.srcCursor = 0 ∧ d.srcValid = 0 ∧ d.srcCache = 0 ∧ srcRpos d = 0

/-- The outcome of a step that a run of the machine may take: a next state that keeps the invariant. -/
def SafeOutcome : Result → Prop
  | .next t => Inv t
  | .fault _ => False
  | .refused _ => False

end Sys2Proof.Machine
end

