-- ==== Sys2Proof/Certificates/Slice0/Obligations.lean ====
section
/-! DEFINITION. The statements for the provers. Each says which rule of the spec it formalises. -/

open Sys2Proof Sys2Proof.Machine

/-! ### One step -/

/-- A step takes the operation the host issued longest ago: what its code and operand lanes decode to is executed on the
state that no longer holds it (R3, R15, R110; the waiting list is the model's choice, log 3). A code that is not in the
table of R110 is answered `Refused`, and nothing else changes; under a `Cfg` that breaks R6 (b) that answer is the model's
choice too (log 2). -/
def Obligations.StepRunsIssuedOperation : Prop :=
  ∀ (s : State) (q : Issue) (rest : List HostInput), s.pending = .op q :: rest →
    (∀ i : Instr, decodeIssue q = .ok i → step s = exec i { s with pending := rest }) ∧
    (q.code ∉ [0x00#8, 0x01#8, 0x02#8, 0x04#8, 0x05#8, 0x06#8, 0x10#8, 0x11#8, 0x12#8, 0x14#8, 0x15#8, 0x16#8, 0x17#8,
        0x18#8] →
      step s = .next { s with pending := rest, resp := some .refused })

/-- The host's write to an address of `IBUF` that exists: that byte and nothing else (R34, R60). MODEL'S CHOICES: the
waiting list the write stands in (log 3); that the last response stays (log 4); and that the write is performed in every
state of the decoder channel (log 15), where the later refills see it as R284 and R285 say, while R69 gives such a write no
meaning and U17 sets it outside every theorem; and that it is performed under a `Cfg` that breaks R6 (b) (log 2). -/
def Obligations.HostWriteStoresOneByte : Prop :=
  ∀ (s : State) (a : Nat) (b : Byte) (rest : List HostInput),
    s.pending = .writeIbuf a b :: rest → (∀ k, s.cfg.ibufCap = some k → a < k) →
    ∃ mem : Memory, step s = .next { s with pending := rest, dec := { s.dec with ibuf := mem } } ∧
      ∀ x, mem.read? x = if x = a then some b else s.dec.ibuf.read? x

/-- The reset state, and the state after the reset input, hold every register at its reset value, whatever
`WINDOW_INIT` is; the configuration is not reset (R21, R28, R280). That the reset input is performed under a `Cfg` that
breaks R6 (b) is the model's choice (log 2). -/
def Obligations.ResetGivesResetValues : Prop :=
  (encAtReset State.reset.enc ∧ decAtReset State.reset.dec) ∧
    ∀ (s : State) (rest : List HostInput), s.pending = .powerOn :: rest →
      ∃ t, step s = .next t ∧ encAtReset t.enc ∧ decAtReset t.dec ∧ t.cfg = s.cfg ∧ t.pending = rest

/-! ### Encodings -/

/-- Words written out bit by bit decode to the instructions they stand for: all fourteen operation codes of R110, and a
codeword of each of the six forms, from the streams V21, V28, V34, P2 and V77 (`LEAD_W` 5 and 6). -/
def Obligations.WrittenOutEncodingsDecode : Prop :=
  (∀ q : Issue, q.code = 0b00000000#8 → decodeIssue q = .ok .snkInit) ∧
  (∀ q : Issue, q.code = 0b00000001#8 → decodeIssue q = .ok (.snkWrite q.value q.count)) ∧
  (∀ q : Issue, q.code = 0b00000010#8 → decodeIssue q = .ok .snkFinal) ∧
  (∀ q : Issue, q.code = 0b00000100#8 → decodeIssue q = .ok .encBegin) ∧
  (∀ q : Issue, q.code = 0b00000101#8 → decodeIssue q = .ok (.encSample q.value)) ∧
  (∀ q : Issue, q.code = 0b00000110#8 → decodeIssue q = .ok .encEnd) ∧
  (∀ q : Issue, q.code = 0b00010000#8 → decodeIssue q = .ok (.srcInit q.len)) ∧
  (∀ q : Issue, q.code = 0b00010001#8 → decodeIssue q = .ok .srcRdBit) ∧
  (∀ q : Issue, q.code = 0b00010010#8 → decodeIssue q = .ok (.srcRdBits q.count)) ∧
  (∀ q : Issue, q.code = 0b00010100#8 → decodeIssue q = .ok (.decBegin q.len)) ∧
  (∀ q : Issue, q.code = 0b00010101#8 → decodeIssue q = .ok .decStep) ∧
  (∀ q : Issue, q.code = 0b00010110#8 → decodeIssue q = .ok .decNext) ∧
  (∀ q : Issue, q.code = 0b00010111#8 → decodeIssue q = .ok .decRun) ∧
  (∀ q : Issue, q.code = 0b00011000#8 → decodeIssue q = .ok (.decSetExpect q.en q.n)) ∧
  (∀ (c : Cfg) (w : Window) (rest : List Bool),
    decodeCodeword c w .first ([false, false] ++ List.replicate 10 true ++ List.replicate 52 false ++ rest)
      = .ok (.cwFirst 0x3FF0000000000000#64, rest)) ∧
  (∀ (c : Cfg) (w : Window) (rest : List Bool),
    decodeCodeword c w (.pad 4#3) ([false, false, false, false] ++ rest) = .ok (.cwPad 4#3, rest)) ∧
  (∀ (c : Cfg) (w : Window) (rest : List Bool),
    decodeCodeword c w .tag ([true, false, true, false, false, true, false, true] ++ rest) = .ok (.cwTag 0xA5#8, rest)) ∧
  (∀ (c : Cfg) (w : Window) (rest : List Bool), decodeCodeword c w .data (false :: rest) = .ok (.cwRepeat, rest)) ∧
  (∀ (c : Cfg) (rest : List Bool),
    decodeCodeword c ⟨true, 31, 28⟩ .data ([true, false, false, true, true, true, false] ++ rest)
      = .ok (.cwReuse 0b01110#64, rest)) ∧
  (∀ (c : Cfg) (w : Window) (rest : List Bool), c.leadW = .five →
    decodeCodeword c w .data
      ([true, true, true, false, true, true, true, false, false, false, false, false, false, true] ++ rest)
      = .ok (.cwNew 23#6 0#6 1#64, rest)) ∧
  (∀ (c : Cfg) (w : Window) (rest : List Bool), c.leadW = .six →
    decodeCodeword c w .data
      ([true, true, true, true, true, true, true, true, false, false, false, false, false, false, true] ++ rest)
      = .ok (.cwNew 63#6 0#6 1#64, rest))

/-- Every operation is the one its code and operand lanes decode to (R110). -/
def Obligations.IssueDecodeInvertsEncode : Prop :=
  ∀ (i : Instr) (q : Issue), encodeIssue i = some q → decodeIssue q = .ok i

/-- DECODE AND ENCODE AGREE: every well-formed codeword is read back whole from its bits, with every field, in front of
any stream, under every configuration and Window (R91 to R98). -/
def Obligations.CodewordDecodeInvertsEncode : Prop :=
  ∀ (c : Cfg) (w : Window) (pos : CwPos) (i : Instr) (bits rest : List Bool),
    i.standsAt pos = true → i.wf c w = true → encodeCodeword c w i = some bits →
    decodeCodeword c w pos (bits ++ rest) = .ok (i, rest)

/-- The other direction: whatever codeword the decoder reads at a data position under a Window of R24, the bits it took
are that codeword's encoding, and the codeword is well formed; so no two codewords share a prefix (R91). -/
def Obligations.CodewordEncodeInvertsDecode : Prop :=
  ∀ (c : Cfg) (w : Window) (i : Instr) (stream rest : List Bool),
    windowOk c w = true → decodeCodeword c w .data stream = .ok (i, rest) →
    i.wf c w = true ∧ ∃ bits, encodeCodeword c w i = some bits ∧ stream = bits ++ rest

/-! ### Invariants and independence -/

/-- The reset state meets the invariant. -/
def Obligations.ResetMeetsInvariant : Prop := Inv State.reset

/-- EVERY STEP KEEPS THE INVARIANT, from every state that meets it: the memories keep their canonical form and stay
inside their capacities, the sink's defined bytes are written and its padding zero (R125), the source's registers stay
in their ranges (R32, R149), the Windows legal (R24), the decoder's and encoder's clauses hold (R169, R205), and an error
is latched only in `DONE` (R253). -/
def Obligations.StepKeepsInvariant : Prop :=
  ∀ s t : State, Inv s → step s = .next t → Inv t

/-- Every instruction keeps the cache a mirror of `IBUF` (R149 (f)). -/
def Obligations.OperationsKeepCacheMirror : Prop :=
  ∀ (s t : State) (i : Instr), Inv s → CacheMirrors s.dec → exec i s = .next t → CacheMirrors t.dec

/-- The unread part of the stream is the stream bits of `IBUF` from `SRC_RPOS` to the end of the slice (R33, R141). -/
def Obligations.UnreadPartIsTheStreamFromRpos : Prop :=
  ∀ s : State, Inv s → CacheMirrors s.dec →
    srcRpos s.dec + avail s.dec = 8 * s.dec.srcLen ∧
    unreadBits s.dec = (List.range (avail s.dec)).map fun i => streamBit (ibufByte s.dec) (srcRpos s.dec + i)

/-- `Cfg` is fixed: no step changes it (R5). -/
def Obligations.StepKeepsConfiguration : Prop :=
  ∀ s t : State, step s = .next t → t.cfg = s.cfg

/-- "An operation on one channel neither reads nor writes any state of the other" (R15), for the encoder channel: the
decoder channel is unchanged, and the new encoder channel and the response are the same from every state with the same
encoder channel and configuration. -/
def Obligations.EncoderOperationsOwnTheirChannel : Prop :=
  ∀ (i : Instr) (s₁ s₂ t₁ : State), isEncoderOp i = true → s₁.cfg = s₂.cfg → s₁.enc = s₂.enc → exec i s₁ = .next t₁ →
    ∃ t₂, exec i s₂ = .next t₂ ∧ t₁.dec = s₁.dec ∧ t₂.dec = s₂.dec ∧ t₁.enc = t₂.enc ∧ t₁.resp = t₂.resp ∧
      t₁.pending = s₁.pending ∧ t₁.cfg = s₁.cfg

/-- R15 for the decoder channel: its operations, and the codewords it executes. -/
def Obligations.DecoderOperationsOwnTheirChannel : Prop :=
  ∀ (i : Instr) (s₁ s₂ t₁ : State), isEncoderOp i = false → s₁.cfg = s₂.cfg → s₁.dec = s₂.dec → exec i s₁ = .next t₁ →
    ∃ t₂, exec i s₂ = .next t₂ ∧ t₁.enc = s₁.enc ∧ t₂.enc = s₂.enc ∧ t₁.dec = t₂.dec ∧ t₁.resp = t₂.resp ∧
      t₁.pending = s₁.pending ∧ t₁.cfg = s₁.cfg

/-- "The Window is updated only on the "explicit window" branch" (R238): an `ENC_SAMPLE` that did not write a `NEW`, and a
`DEC_STEP` in a state other than `NEW_WINDOW`, leave it as it was. -/
def Obligations.WindowChangesOnlyByNew : Prop :=
  (∀ (s t : State) (v : Sample), exec (.encSample v) s = .next t →
    (∀ n, t.resp ≠ some (.ok (.codeword ⟨.new, n⟩))) → t.enc.win = s.enc.win) ∧
  (∀ s t : State, Inv s → s.dec.state ≠ .newWindow → exec .decStep s = .next t → t.dec.win = s.dec.win)

/-! ### Counts and register words -/

/-- `clz64` and `ctz64` of a value other than 0 (R10). -/
def Obligations.ZeroCountsCountZeros : Prop :=
  ∀ x : Sample, x ≠ 0 →
    clz64 x ≤ 63 ∧ x.getLsbD (63 - clz64 x) = true ∧ (∀ j, 63 - clz64 x < j → x.getLsbD j = false) ∧
    ctz64 x ≤ 63 ∧ x.getLsbD (ctz64 x) = true ∧ (∀ j, j < ctz64 x → x.getLsbD j = false) ∧
    clz64 x + ctz64 x ≤ 63

/-- What the host reads. The error registers: `KIND` in bits 2:0, bit 3 zero, `CAUSE` in bits 7:4 (R23), with the codes
of R250 and R252. The Window registers: `VALID` in bit 12, `LEAD` in bits 11:6, `TRAIL` in bits 5:0 (R24). The codes of the
states (R22, R29). The registers by their indices E0 to E6 and D0 to D14 (R21, R28). The bytes of `OBUF` below `SNK_LEN`
(R26); that the read of an index the tables do not have, or of a byte at or above `SNK_LEN`, answers nothing is the model's
choice (log 12), as is that the host reads under a `Cfg` that breaks R6 (b) (log 2). -/
def Obligations.RegisterWordsHaveTheirFields : Prop :=
  (∀ r : ErrReg, r.word.extractLsb' 0 3 = kindCode r.kind ∧ r.word.getLsbD 3 = false ∧
    r.word.extractLsb' 4 4 = causeCode r.cause) ∧
  (∀ (c : Cfg) (w : Window), windowOk c w = true →
    (windowWord w).getLsbD 12 = w.valid ∧ ((windowWord w).extractLsb' 6 6).toNat = w.lead ∧
      ((windowWord w).extractLsb' 0 6).toNat = w.trail) ∧
  (kindCode .noError = 0 ∧ kindCode .reservedValueCollision = 1 ∧ kindCode .unexpectedEof = 2 ∧
    kindCode .invariantViolation = 3 ∧ kindCode .capacityExceeded = 4) ∧
  (causeCode .noCause = 0 ∧ causeCode .first = 1 ∧ causeCode .controlA = 2 ∧ causeCode .controlB = 3 ∧
    causeCode .header = 4 ∧ causeCode .bits = 5 ∧ causeCode .noWindow = 6 ∧ causeCode .windowOverrun = 7 ∧
    causeCode .rawRead = 8) ∧
  (EncState.code .idle = 0 ∧ EncState.code .raw = 1 ∧ EncState.code .active = 2 ∧ EncState.code .done = 3) ∧
  (DecState.code .idle = 0 ∧ DecState.code .awaitingFirst = 1 ∧ DecState.code .readingControlA = 2 ∧
    DecState.code .repeating = 3 ∧ DecState.code .readingControlB = 4 ∧ DecState.code .reuseWindow = 5 ∧
    DecState.code .newWindow = 6 ∧ DecState.code .readingMeaningfulBits = 7 ∧ DecState.code .checkSentinel = 8 ∧
    DecState.code .done = 9 ∧ DecState.code .raw = 10) ∧
  ∀ s : State,
    (hostReadEnc 0 s = some s.enc.state.code.toNat ∧ hostReadEnc 1 s = some s.enc.err.word.toNat ∧
      hostReadEnc 2 s = some s.enc.count ∧ hostReadEnc 3 s = some s.enc.prev.toNat ∧
      hostReadEnc 4 s = some (windowWord s.enc.win).toNat ∧ hostReadEnc 5 s = some s.enc.wbits ∧
      hostReadEnc 6 s = some ((s.enc.wbits + 7) / 8) ∧ ∀ i, 7 ≤ i → hostReadEnc i s = none) ∧
    (hostReadDec 0 s = some s.dec.state.code.toNat ∧ hostReadDec 1 s = some s.dec.err.word.toNat ∧
      hostReadDec 2 s = some s.dec.count ∧ hostReadDec 3 s = some s.dec.prev.toNat ∧
      hostReadDec 4 s = some (windowWord s.dec.win).toNat ∧ hostReadDec 5 s = some s.dec.m ∧
      hostReadDec 6 s = some s.dec.cur.toNat ∧ hostReadDec 7 s = some s.dec.tag.toNat ∧
      hostReadDec 8 s = some s.dec.expect ∧ hostReadDec 9 s = some (if s.dec.expectEn then 1 else 0) ∧
      hostReadDec 10 s = some s.dec.srcLen ∧ hostReadDec 11 s = some s.dec.srcCursor ∧
      hostReadDec 12 s = some s.dec.srcValid ∧ hostReadDec 13 s = some s.dec.srcCache.toNat ∧
      hostReadDec 14 s = some (8 * s.dec.srcCursor - s.dec.srcValid) ∧ ∀ i, 15 ≤ i → hostReadDec i s = none) ∧
    (Inv s → ∀ a, a < (s.enc.wbits + 7) / 8 → ∃ b, s.enc.obuf.read? a = some b ∧ hostReadObuf a s = some b) ∧
    ∀ a, (s.enc.wbits + 7) / 8 ≤ a → hostReadObuf a s = none

/-! ### The sink -/

/-- `SNK_INIT` (R120), from every state of the channel. -/
def Obligations.SnkInitOpensEmptySink : Prop :=
  ∀ s : State, s.cfg.wf = true →
    exec .snkInit s = .next { s with
      enc := { s.enc with wbits := 0, err := ErrReg.clear, state := .raw }
      resp := some (.ok .unit) }

/-- `SNK_WRITE` (R122): refused outside `RAW` or for a count above 64; `CapacityExceeded` and nothing written where the
field does not fit (R123); else the low `count` bits are appended, most significant first (R121). -/
def Obligations.SnkWriteAppendsField : Prop :=
  ∀ (s : State) (value : Sample) (count : BitVec 7), Inv s →
    ((s.enc.state ≠ .raw ∨ count.toNat > 64) →
      exec (.snkWrite value count) s = .next { s with resp := some .refused }) ∧
    (s.enc.state = .raw → count.toNat ≤ 64 → fits s.cfg s.enc count.toNat = false →
      exec (.snkWrite value count) s = .next { s with
        enc := { s.enc with err := ⟨.capacityExceeded, .noCause⟩, state := .done }
        resp := some (.err .capacityExceeded .noCause) }) ∧
    (s.enc.state = .raw → count.toNat ≤ 64 → fits s.cfg s.enc count.toNat = true →
      ∃ mem : Memory,
        exec (.snkWrite value count) s = .next { s with
          enc := { s.enc with obuf := mem, wbits := s.enc.wbits + count.toNat }
          resp := some (.ok .unit) } ∧
        Appended s.enc (fieldBits value count.toNat) mem)

/-- `SNK_FINAL` (R124): `DONE`, the length in bytes, nothing written; refused outside `RAW`. -/
def Obligations.SnkFinalAnswersLength : Prop :=
  ∀ s : State, s.cfg.wf = true →
    (s.enc.state = .raw →
      exec .snkFinal s = .next { s with
        enc := { s.enc with state := .done }, resp := some (.ok (.length ((s.enc.wbits + 7) / 8))) }) ∧
    (s.enc.state ≠ .raw → exec .snkFinal s = .next { s with resp := some .refused })

/-! ### The encoder -/

/-- `ENC_BEGIN` (R160), from every state of the channel. -/
def Obligations.EncBeginStartsEncode : Prop :=
  ∀ s : State, s.cfg.wf = true →
    exec .encBegin s = .next { s with
      enc := { s.enc with
        wbits := 0, err := ErrReg.clear, count := 0, prev := 0, state := .active
        win := match s.cfg.windowInit with | none => ⟨false, 0, 0⟩ | some (l, t) => ⟨true, l, t⟩ }
      resp := some (.ok .unit) }

/-- `ENC_SAMPLE` of the first value (R162): the tag byte where one is used, then the 64 bits of the value; the Window is
not read or changed. -/
def Obligations.EncSampleWritesFirstValueWhole : Prop :=
  ∀ (s : State) (v : Sample), Inv s → s.enc.state = .active → s.enc.count = 0 → v ≠ s.cfg.sentinel →
    fits s.cfg s.enc (64 + 8 * s.cfg.tagBytes) = true →
    ∃ mem : Memory,
      exec (.encSample v) s = .next { s with
        enc := { s.enc with
          obuf := mem, wbits := s.enc.wbits + (64 + 8 * s.cfg.tagBytes), prev := v, count := 1 }
        resp := some (.ok (.codeword ⟨.first, 64 + 8 * s.cfg.tagBytes⟩)) } ∧
      Appended s.enc
        ((if s.cfg.tagEn then fieldBits (s.cfg.tagValue.setWidth 64) 8 else []) ++ fieldBits v 64) mem

/-- `ENC_SAMPLE` of a value equal to the one before it: the `REPEAT` codeword, one `0` bit (R163). -/
def Obligations.EncSampleOfEqualValueWritesRepeat : Prop :=
  ∀ s : State, Inv s → s.enc.state = .active → s.enc.count ≠ 0 → fits s.cfg s.enc 1 = true →
    ∃ mem : Memory,
      exec (.encSample s.enc.prev) s = .next { s with
        enc := { s.enc with obuf := mem, wbits := s.enc.wbits + 1, count := s.enc.count + 1 }
        resp := some (.ok (.codeword ⟨.repeated, 1⟩)) } ∧
      Appended s.enc [false] mem

/-- `ENC_SAMPLE` of a value whose delta fits the Window in force, the leading count clamped: the `REUSE` codeword, which
holds all of the delta; the Window is unchanged (R164, R165, R237). -/
def Obligations.EncSampleInsideWindowWritesReuse : Prop :=
  ∀ (s : State) (v : Sample), Inv s → s.enc.state = .active → s.enc.count ≠ 0 → v ≠ s.cfg.sentinel → v ≠ s.enc.prev →
    s.enc.win.valid = true → s.enc.win.lead ≤ min (clz64 (v ^^^ s.enc.prev)) s.cfg.leadMax →
    s.enc.win.trail ≤ ctz64 (v ^^^ s.enc.prev) →
    fits s.cfg s.enc (2 + (64 - s.enc.win.lead - s.enc.win.trail)) = true →
    ∃ mem : Memory,
      exec (.encSample v) s = .next { s with
        enc := { s.enc with
          obuf := mem
          wbits := s.enc.wbits + (2 + (64 - s.enc.win.lead - s.enc.win.trail))
          prev := v, count := s.enc.count + 1 }
        resp := some (.ok (.codeword ⟨.reuse, 2 + (64 - s.enc.win.lead - s.enc.win.trail)⟩)) } ∧
      Appended s.enc
        ([true, false] ++
          fieldBits ((v ^^^ s.enc.prev) >>> s.enc.win.trail) (64 - s.enc.win.lead - s.enc.win.trail)) mem ∧
      ((v ^^^ s.enc.prev) >>> s.enc.win.trail).toNat < 2 ^ (64 - s.enc.win.lead - s.enc.win.trail) ∧
      ((v ^^^ s.enc.prev) >>> s.enc.win.trail) <<< s.enc.win.trail = v ^^^ s.enc.prev

/-- `ENC_SAMPLE` of a value whose delta does not fit the Window in force: the `NEW` codeword with the clamped leading
count, the length minus one and the meaningful bits, which hold all of the delta; the Window becomes the one announced
(R164, R166). -/
def Obligations.EncSampleOutsideWindowWritesNew : Prop :=
  ∀ (s : State) (v : Sample) (lead trail m : Nat), Inv s → s.enc.state = .active → s.enc.count ≠ 0 →
    v ≠ s.cfg.sentinel → v ≠ s.enc.prev →
    lead = min (clz64 (v ^^^ s.enc.prev)) s.cfg.leadMax → trail = ctz64 (v ^^^ s.enc.prev) → m = 64 - lead - trail →
    (s.enc.win.valid = false ∨ lead < s.enc.win.lead ∨ trail < s.enc.win.trail) →
    fits s.cfg s.enc (2 + s.cfg.leadW.bits + 6 + m) = true →
    ∃ mem : Memory,
      exec (.encSample v) s = .next { s with
        enc := { s.enc with
          obuf := mem
          wbits := s.enc.wbits + (2 + s.cfg.leadW.bits + 6 + m)
          prev := v, count := s.enc.count + 1, win := ⟨true, lead, trail⟩ }
        resp := some (.ok (.codeword ⟨.new, 2 + s.cfg.leadW.bits + 6 + m⟩)) } ∧
      Appended s.enc
        ([true, true] ++ fieldBits (BitVec.ofNat 64 lead) s.cfg.leadW.bits ++ fieldBits (BitVec.ofNat 64 (m - 1)) 6 ++
          fieldBits ((v ^^^ s.enc.prev) >>> trail) m) mem ∧
      1 ≤ m ∧ lead < 2 ^ s.cfg.leadW.bits ∧ ((v ^^^ s.enc.prev) >>> trail).toNat < 2 ^ m ∧
      ((v ^^^ s.enc.prev) >>> trail) <<< trail = v ^^^ s.enc.prev

/-- `ENC_SAMPLE` of the reserved value, first or later, whatever room there is: `ReservedValueCollision`, latched, the
channel `DONE`, nothing written (R161, R253, R255). -/
def Obligations.EncSampleOfSentinelCollides : Prop :=
  ∀ s : State, s.cfg.wf = true → s.enc.state = .active →
    exec (.encSample s.cfg.sentinel) s = .next { s with
      enc := { s.enc with err := ⟨.reservedValueCollision, .noCause⟩, state := .done }
      resp := some (.err .reservedValueCollision .noCause) }

/-- `ENC_SAMPLE` and `ENC_END` of a codeword for which `OBUF` has no room: `CapacityExceeded`, latched, the channel
`DONE`, nothing written, nothing else changed (R123, R162, R163, R165, R166, R167). `n` is the codeword's length. -/
def Obligations.CodewordBeyondCapacityRaises : Prop :=
  ∀ (s t : State) (n : Nat), Inv s → s.enc.state = .active → fits s.cfg s.enc n = false →
    t = { s with
      enc := { s.enc with err := ⟨.capacityExceeded, .noCause⟩, state := .done }
      resp := some (.err .capacityExceeded .noCause) } →
    (∀ v, v ≠ s.cfg.sentinel → s.enc.count = 0 → n = 64 + 8 * s.cfg.tagBytes → exec (.encSample v) s = .next t) ∧
    (s.enc.count ≠ 0 → n = 1 → exec (.encSample s.enc.prev) s = .next t) ∧
    (∀ delta v, delta ≠ 0 → s.enc.count ≠ 0 →
      n = (if s.enc.win.valid = true ∧ s.enc.win.lead ≤ min (clz64 delta) s.cfg.leadMax ∧ s.enc.win.trail ≤ ctz64 delta
        then 2 + (64 - s.enc.win.lead - s.enc.win.trail)
        else 2 + s.cfg.leadW.bits + 6 + (64 - min (clz64 delta) s.cfg.leadMax - ctz64 delta)) →
      (v = s.enc.prev ^^^ delta → v ≠ s.cfg.sentinel → exec (.encSample v) s = .next t) ∧
      (s.cfg.sentinel = s.enc.prev ^^^ delta → exec .encEnd s = .next t))

/-- `ENC_END` (R167): with no sample, nothing is written and the result is the empty buffer; else the terminal codeword,
a `REUSE` or a `NEW` for the delta to `SENTINEL`, is written; the channel is `DONE` and the response is the length in
bytes. `ENC_PREV` and `ENC_COUNT` are not changed. -/
def Obligations.EncEndWritesTerminalCodeword : Prop :=
  ∀ (s : State) (delta : Sample) (lead trail m w : Nat), Inv s → s.enc.state = .active →
    delta = s.cfg.sentinel ^^^ s.enc.prev → lead = min (clz64 delta) s.cfg.leadMax → trail = ctz64 delta →
    m = 64 - lead - trail → w = 64 - s.enc.win.lead - s.enc.win.trail →
    (s.enc.count = 0 →
      exec .encEnd s = .next { s with enc := { s.enc with state := .done }, resp := some (.ok (.length 0)) }) ∧
    (s.enc.count ≠ 0 → s.enc.win.valid = true ∧ s.enc.win.lead ≤ lead ∧ s.enc.win.trail ≤ trail →
      fits s.cfg s.enc (2 + w) = true →
      ∃ mem : Memory,
        exec .encEnd s = .next { s with
          enc := { s.enc with obuf := mem, wbits := s.enc.wbits + (2 + w), state := .done }
          resp := some (.ok (.length ((s.enc.wbits + (2 + w) + 7) / 8))) } ∧
        Appended s.enc ([true, false] ++ fieldBits (delta >>> s.enc.win.trail) w) mem) ∧
    (s.enc.count ≠ 0 → ¬ (s.enc.win.valid = true ∧ s.enc.win.lead ≤ lead ∧ s.enc.win.trail ≤ trail) →
      fits s.cfg s.enc (2 + s.cfg.leadW.bits + 6 + m) = true →
      ∃ mem : Memory,
        exec .encEnd s = .next { s with
          enc := { s.enc with
            obuf := mem, wbits := s.enc.wbits + (2 + s.cfg.leadW.bits + 6 + m), state := .done
            win := ⟨true, lead, trail⟩ }
          resp := some (.ok (.length ((s.enc.wbits + (2 + s.cfg.leadW.bits + 6 + m) + 7) / 8))) } ∧
        Appended s.enc
          ([true, true] ++ fieldBits (BitVec.ofNat 64 lead) s.cfg.leadW.bits ++ fieldBits (BitVec.ofNat 64 (m - 1)) 6 ++
            fieldBits (delta >>> trail) m) mem)

/-! ### The source -/

/-- `SRC_INIT len` (R140): the source at the start of the slice, the cache empty, the error cleared, `RAW`, from every
state of the channel; refused where the slice is longer than `IBUF`. -/
def Obligations.SrcInitConstructsSource : Prop :=
  ∀ (s : State) (len : Nat), s.cfg.wf = true →
    ((∀ k, s.cfg.ibufCap = some k → len ≤ k) →
      exec (.srcInit len) s = .next { s with
        dec := { s.dec with
          srcLen := len, srcCursor := 0, srcCache := 0, srcValid := 0, err := ErrReg.clear, state := .raw }
        resp := some (.ok .unit) }) ∧
    (∀ k, s.cfg.ibufCap = some k → k < len → exec (.srcInit len) s = .next { s with resp := some .refused })

/-- `SRC_RDBIT` (R144, R147): the next stream bit; at the end of the data `UnexpectedEof(RAW_READ)` with nothing
consumed; refused outside `RAW`. -/
def Obligations.SrcRdBitAnswersNextBit : Prop :=
  ∀ s : State, Inv s →
    (s.dec.state ≠ .raw → exec .srcRdBit s = .next { s with resp := some .refused }) ∧
    (s.dec.state = .raw → unreadBits s.dec = [] →
      exec .srcRdBit s = .next { s with
        dec := { s.dec with err := ⟨.unexpectedEof, .rawRead⟩, state := .done }
        resp := some (.err .unexpectedEof .rawRead) }) ∧
    (∀ b rest, s.dec.state = .raw → unreadBits s.dec = b :: rest →
      ∃ d, Consumed s.dec d 1 ∧ exec .srcRdBit s = .next { s with dec := d, resp := some (.ok (.bit b)) })

/-- `SRC_RDBITS count` (R145, R146, R148): the next `count` stream bits, the first as the most significant; fewer left,
`UnexpectedEof(RAW_READ)` with nothing consumed; refused outside `RAW` and for a count of 0 or above 64. -/
def Obligations.SrcRdBitsAnswersField : Prop :=
  ∀ (s : State) (count : BitVec 7), Inv s →
    ((s.dec.state ≠ .raw ∨ count.toNat = 0 ∨ count.toNat > 64) →
      exec (.srcRdBits count) s = .next { s with resp := some .refused }) ∧
    (s.dec.state = .raw → 1 ≤ count.toNat → count.toNat ≤ 64 → (unreadBits s.dec).length < count.toNat →
      exec (.srcRdBits count) s = .next { s with
        dec := { s.dec with err := ⟨.unexpectedEof, .rawRead⟩, state := .done }
        resp := some (.err .unexpectedEof .rawRead) }) ∧
    (s.dec.state = .raw → 1 ≤ count.toNat → count.toNat ≤ 64 → count.toNat ≤ (unreadBits s.dec).length →
      ∃ d v, Consumed s.dec d count.toNat ∧
        exec (.srcRdBits count) s = .next { s with dec := d, resp := some (.ok (.value v)) } ∧
        v.toNat < 2 ^ count.toNat ∧
        ∀ i, i < count.toNat → (unreadBits s.dec)[i]? = some (v.getLsbD (count.toNat - 1 - i)))

/-! ### The decoder -/

/-- `DEC_BEGIN len` (R190), from every state of the channel; refused where the slice is longer than `IBUF`.
`DEC_EXPECT` and `DEC_EXPECT_EN` are not changed. -/
def Obligations.DecBeginStartsDecode : Prop :=
  ∀ (s : State) (len : Nat), s.cfg.wf = true →
    ((∀ k, s.cfg.ibufCap = some k → len ≤ k) →
      exec (.decBegin len) s = .next { s with
        dec := { s.dec with
          srcLen := len, srcCursor := 0, srcCache := 0, srcValid := 0, err := ErrReg.clear, count := 0, prev := 0
          cur := 0, m := 0, tag := 0, state := .awaitingFirst
          win := match s.cfg.windowInit with | none => ⟨false, 0, 0⟩ | some (l, t) => ⟨true, l, t⟩ }
        resp := some (.ok .unit) }) ∧
    (∀ k, s.cfg.ibufCap = some k → k < len → exec (.decBegin len) s = .next { s with resp := some .refused })

/-- `DEC_STEP` in `AWAITING_FIRST` (R192): an empty slice ends the decode, with the expected-count check; else the tag
byte, where one is used, is latched and the first sample emitted without a sentinel test; a slice too short raises
`UnexpectedEof(FIRST)`, a tag that was read staying consumed, and without a tag the source exactly as it was (R146). -/
def Obligations.DecStepAwaitingFirst : Prop :=
  ∀ s : State, Inv s → s.dec.state = .awaitingFirst →
    (s.dec.srcLen = 0 → s.dec.expectEn = true → s.dec.expect ≠ 0 →
      exec .decStep s = .next { s with
        dec := { s.dec with err := ⟨.invariantViolation, .noCause⟩, state := .done }
        resp := some (.err .invariantViolation .noCause) }) ∧
    (s.dec.srcLen = 0 → (s.dec.expectEn = false ∨ s.dec.expect = 0) →
      exec .decStep s = .next { s with dec := { s.dec with state := .done }, resp := some (.ok .noSample) }) ∧
    (s.dec.srcLen ≠ 0 → (unreadBits s.dec).length < 8 * s.cfg.tagBytes →
      exec .decStep s = .next { s with
        dec := { s.dec with err := ⟨.unexpectedEof, .first⟩, state := .done }
        resp := some (.err .unexpectedEof .first) }) ∧
    (s.dec.srcLen ≠ 0 → 8 * s.cfg.tagBytes ≤ (unreadBits s.dec).length →
      ∃ tag, tag = (if s.cfg.tagEn then (fieldValue ((unreadBits s.dec).take 8)).setWidth 8 else s.dec.tag) ∧
        ((unreadBits s.dec).length < 8 * s.cfg.tagBytes + 64 →
          ∃ d, Consumed s.dec d (8 * s.cfg.tagBytes) ∧ (s.cfg.tagEn = false → d = s.dec) ∧
            exec .decStep s = .next { s with
              dec := { d with tag := tag, err := ⟨.unexpectedEof, .first⟩, state := .done }
              resp := some (.err .unexpectedEof .first) }) ∧
        (∀ v, 8 * s.cfg.tagBytes + 64 ≤ (unreadBits s.dec).length →
          v = fieldValue (((unreadBits s.dec).drop (8 * s.cfg.tagBytes)).take 64) →
          ∃ d, Consumed s.dec d (8 * s.cfg.tagBytes + 64) ∧
            exec .decStep s = .next { s with
              dec := { d with tag := tag, prev := v, count := 1, state := .readingControlA }
              resp := some (.ok (.sample v)) }))

/-- `DEC_STEP` in `READING_CONTROL_A` and `READING_CONTROL_B` (R193, R195): one bit decides the next state; at the end of
the data `UnexpectedEof` with the state's cause and nothing consumed. -/
def Obligations.DecStepReadingControlBits : Prop :=
  ∀ s : State, Inv s →
    (s.dec.state = .readingControlA → unreadBits s.dec = [] →
      exec .decStep s = .next { s with
        dec := { s.dec with err := ⟨.unexpectedEof, .controlA⟩, state := .done }
        resp := some (.err .unexpectedEof .controlA) }) ∧
    (∀ a rest, s.dec.state = .readingControlA → unreadBits s.dec = a :: rest →
      ∃ d, Consumed s.dec d 1 ∧
        exec .decStep s = .next { s with
          dec := { d with state := if a then .readingControlB else .repeating }, resp := some (.ok .noSample) }) ∧
    (s.dec.state = .readingControlB → unreadBits s.dec = [] →
      exec .decStep s = .next { s with
        dec := { s.dec with err := ⟨.unexpectedEof, .controlB⟩, state := .done }
        resp := some (.err .unexpectedEof .controlB) }) ∧
    (∀ b rest, s.dec.state = .readingControlB → unreadBits s.dec = b :: rest →
      ∃ d, Consumed s.dec d 1 ∧
        exec .decStep s = .next { s with
          dec := { d with state := if b then .newWindow else .reuseWindow }, resp := some (.ok .noSample) })

/-- `DEC_STEP` in `REPEAT` (R194): the previous value again; no bit is read, no sentinel test made. -/
def Obligations.DecStepRepeat : Prop :=
  ∀ s : State, s.cfg.wf = true → s.dec.state = .repeating →
    exec .decStep s = .next { s with
      dec := { s.dec with count := s.dec.count + 1, state := .readingControlA }
      resp := some (.ok (.sample s.dec.prev)) }

/-- `DEC_STEP` in `REUSE_WINDOW` (R196): the width of the Window in force, or `UnexpectedEof(NO_WINDOW)`; no bit is
read. -/
def Obligations.DecStepReuseWindow : Prop :=
  ∀ s : State, s.cfg.wf = true → s.dec.state = .reuseWindow →
    (s.dec.win.valid = true →
      exec .decStep s = .next { s with
        dec := { s.dec with m := 64 - s.dec.win.lead - s.dec.win.trail, state := .readingMeaningfulBits }
        resp := some (.ok .noSample) }) ∧
    (s.dec.win.valid = false →
      exec .decStep s = .next { s with
        dec := { s.dec with err := ⟨.unexpectedEof, .noWindow⟩, state := .done }
        resp := some (.err .unexpectedEof .noWindow) })

/-- `DEC_STEP` in `NEW_WINDOW` (R197): `LEAD`, then `LEN`; the Window and `DEC_M`, or `WINDOW_OVERRUN` with both
unchanged; a field that cannot be read raises `HEADER`, a `LEAD` that was read staying consumed. -/
def Obligations.DecStepNewWindow : Prop :=
  ∀ (s : State) (lead len : Nat), Inv s → s.dec.state = .newWindow →
    lead = (fieldValue ((unreadBits s.dec).take s.cfg.leadW.bits)).toNat →
    len = (fieldValue (((unreadBits s.dec).drop s.cfg.leadW.bits).take 6)).toNat →
    ((unreadBits s.dec).length < s.cfg.leadW.bits →
      exec .decStep s = .next { s with
        dec := { s.dec with err := ⟨.unexpectedEof, .header⟩, state := .done }
        resp := some (.err .unexpectedEof .header) }) ∧
    (s.cfg.leadW.bits ≤ (unreadBits s.dec).length → (unreadBits s.dec).length < s.cfg.leadW.bits + 6 →
      ∃ d, Consumed s.dec d s.cfg.leadW.bits ∧
        exec .decStep s = .next { s with
          dec := { d with err := ⟨.unexpectedEof, .header⟩, state := .done }
          resp := some (.err .unexpectedEof .header) }) ∧
    (s.cfg.leadW.bits + 6 ≤ (unreadBits s.dec).length →
      ∃ d, Consumed s.dec d (s.cfg.leadW.bits + 6) ∧
        (lead + (len + 1) > 64 →
          exec .decStep s = .next { s with
            dec := { d with err := ⟨.unexpectedEof, .windowOverrun⟩, state := .done }
            resp := some (.err .unexpectedEof .windowOverrun) }) ∧
        (lead + (len + 1) ≤ 64 →
          exec .decStep s = .next { s with
            dec := { d with
              win := ⟨true, lead, 64 - lead - (len + 1)⟩, m := len + 1, state := .readingMeaningfulBits }
            resp := some (.ok .noSample) }))

/-- `DEC_STEP` in `READING_MEANINGFUL_BITS` (R198): `DEC_M` bits give the delta and the value to test; fewer left,
`UnexpectedEof(BITS)` with nothing consumed and the Window as it is. -/
def Obligations.DecStepReadingMeaningfulBits : Prop :=
  ∀ s : State, Inv s → s.dec.state = .readingMeaningfulBits →
    ((unreadBits s.dec).length < s.dec.m →
      exec .decStep s = .next { s with
        dec := { s.dec with err := ⟨.unexpectedEof, .bits⟩, state := .done }
        resp := some (.err .unexpectedEof .bits) }) ∧
    (s.dec.m ≤ (unreadBits s.dec).length →
      ∃ d, Consumed s.dec d s.dec.m ∧
        exec .decStep s = .next { s with
          dec := { d with
            cur := s.dec.prev ^^^ (fieldValue ((unreadBits s.dec).take s.dec.m) <<< s.dec.win.trail)
            state := .checkSentinel }
          resp := some (.ok .noSample) })

/-- `DEC_STEP` in `CHECK_SENTINEL` (R199): a value other than `SENTINEL` is emitted; `SENTINEL` is not, and ends the
decode, with the expected-count check. No bit is read. -/
def Obligations.DecStepCheckSentinel : Prop :=
  ∀ s : State, s.cfg.wf = true → s.dec.state = .checkSentinel →
    (s.dec.cur ≠ s.cfg.sentinel →
      exec .decStep s = .next { s with
        dec := { s.dec with prev := s.dec.cur, count := s.dec.count + 1, state := .readingControlA }
        resp := some (.ok (.sample s.dec.cur)) }) ∧
    (s.dec.cur = s.cfg.sentinel → (s.dec.expectEn = false ∨ s.dec.count = s.dec.expect) →
      exec .decStep s = .next { s with dec := { s.dec with state := .done }, resp := some (.ok .noSample) }) ∧
    (s.dec.cur = s.cfg.sentinel → s.dec.expectEn = true → s.dec.count ≠ s.dec.expect →
      exec .decStep s = .next { s with
        dec := { s.dec with err := ⟨.invariantViolation, .noCause⟩, state := .done }
        resp := some (.err .invariantViolation .noCause) })

/-- `DEC_NEXT` is `DEC_STEP` repeated until a sample, an error or `DONE` (R201). -/
def Obligations.DecNextIsRepeatedDecStep : Prop :=
  ∀ (s t : State) (r : Response), s.dec.state.running = true → exec .decStep s = .next t → t.resp = some r →
    (∀ v, r = .ok (.sample v) → exec .decNext s = .next t) ∧
    (∀ kind cause, r = .err kind cause → exec .decNext s = .next t) ∧
    (r = .ok .noSample → t.dec.state = .done → exec .decNext s = .next { t with resp := some (.ok .endOfStream) }) ∧
    (r = .ok .noSample → t.dec.state ≠ .done → exec .decNext s = exec .decNext t)

/-- `DEC_NEXT` and `DEC_RUN` complete from every running state (R201, R202). `DEC_NEXT` ends with a sample, the decoder
between two codewords; with `End`, the decode done and no error; or with an error, latched. `DEC_RUN` ends with the list
of the samples, the decode done and no error, or with an error, latched. Neither changes the encoder channel, `IBUF`,
`SRC_LEN` or the expected-count registers. -/
def Obligations.DecNextAndDecRunComplete : Prop :=
  ∀ s : State, Inv s → s.dec.state.running = true →
    (∃ t, exec .decNext s = .next t ∧
      (t.enc = s.enc ∧ t.cfg = s.cfg ∧ t.pending = s.pending ∧ t.dec.ibuf = s.dec.ibuf ∧ t.dec.epoch = s.dec.epoch ∧
        t.dec.srcLen = s.dec.srcLen ∧ t.dec.expect = s.dec.expect ∧ t.dec.expectEn = s.dec.expectEn) ∧
      ((∃ v, t.resp = some (.ok (.sample v)) ∧ t.dec.state = .readingControlA ∧ t.dec.prev = v ∧
          t.dec.count = s.dec.count + 1 ∧ t.dec.err = ErrReg.clear) ∨
        (t.resp = some (.ok .endOfStream) ∧ t.dec.state = .done ∧ t.dec.err = ErrReg.clear) ∨
        ∃ kind cause, t.resp = some (.err kind cause) ∧ t.dec.state = .done ∧ t.dec.err = ⟨kind, cause⟩)) ∧
    (∃ t, exec .decRun s = .next t ∧
      (t.enc = s.enc ∧ t.cfg = s.cfg ∧ t.pending = s.pending ∧ t.dec.ibuf = s.dec.ibuf ∧ t.dec.epoch = s.dec.epoch ∧
        t.dec.srcLen = s.dec.srcLen ∧ t.dec.expect = s.dec.expect ∧ t.dec.expectEn = s.dec.expectEn) ∧
      t.dec.state = .done ∧
      ((∃ vs, t.resp = some (.ok (.samples vs)) ∧ t.dec.err = ErrReg.clear ∧
          t.dec.count = s.dec.count + vs.length) ∨
        ∃ kind cause, t.resp = some (.err kind cause) ∧ t.dec.err = ⟨kind, cause⟩))

/-- `DEC_RUN` is `DEC_NEXT` repeated until `End` or an error, its samples collected, and it completes (R202). -/
def Obligations.DecRunIsRepeatedDecNext : Prop :=
  ∀ (s t : State) (r : Response), Inv s → s.dec.state.running = true → exec .decNext s = .next t → t.resp = some r →
    (∀ kind cause, r = .err kind cause → exec .decRun s = .next t) ∧
    (r = .ok .endOfStream → exec .decRun s = .next { t with resp := some (.ok (.samples [])) }) ∧
    (∀ v, r = .ok (.sample v) →
      ∃ u, exec .decRun t = .next u ∧
        ((∃ vs, u.resp = some (.ok (.samples vs)) ∧
            exec .decRun s = .next { u with resp := some (.ok (.samples (v :: vs))) }) ∨
          ∃ kind cause, u.resp = some (.err kind cause) ∧ exec .decRun s = .next u))

/-- THE DECODER EXECUTES THE CODEWORD IT FETCHES: where a codeword other than a tag stands next in the stream, `DEC_NEXT`
answers what the codeword's own meaning answers, and consumes exactly its bits (R91, R92, R201). -/
def Obligations.DecNextExecutesFetchedCodeword : Prop :=
  ∀ (s : State) (i : Instr) (rest : List Bool), Inv s → s.dec.state.running = true →
    fetchCodeword s.cfg s.dec = some (.ok (i, rest)) → (∀ b, i ≠ .cwTag b) →
    (s.dec.state = .awaitingFirst → s.cfg.tagEn = false) →
    exec .decNext s = exec i s ∧ ∃ t, exec i s = .next t ∧ unreadBits t.dec = rest

/-- With a tag byte, the first `DEC_NEXT` answers what the `TAG` codeword and then the `FIRST` codeword answer
(R92, R93, R94, R192). -/
def Obligations.DecNextAtStartExecutesTagThenFirst : Prop :=
  ∀ (s : State) (b : Byte) (v : Sample) (rest rest' : List Bool), Inv s → s.dec.state = .awaitingFirst →
    fetchCodeword s.cfg s.dec = some (.ok (.cwTag b, rest)) →
    ∃ t, exec (.cwTag b) s = .next t ∧ unreadBits t.dec = rest ∧
      (fetchCodeword t.cfg t.dec = some (.ok (.cwFirst v, rest')) →
        exec .decNext s = exec (.cwFirst v) t ∧ ∃ u, exec (.cwFirst v) t = .next u ∧ unreadBits u.dec = rest')

/-- Where no codeword can be fetched at a codeword boundary, `DEC_NEXT` raises `UnexpectedEof` with the cause that names
what is missing or malformed (R102, R252): at the start of the stream, or between two codewords. Where the stream starts
with a tag and ends inside the `FIRST` behind it, `DEC_NEXT` raises `UnexpectedEof(FIRST)` with the channel as the `TAG`
codeword leaves it (R192; the codeword as an instruction is log 5's). -/
def Obligations.DecNextRaisesWhereNoCodewordStands : Prop :=
  ∀ (s : State) (why : DecodeError), Inv s →
    (s.dec.state = .readingControlA ∨ s.dec.state = .awaitingFirst → fetchCodeword s.cfg s.dec = some (.error why) →
      ∃ t cause, exec .decNext s = .next t ∧ t.resp = some (.err .unexpectedEof cause) ∧ t.dec.state = .done ∧
        t.dec.err = ⟨.unexpectedEof, cause⟩ ∧ t.dec.count = s.dec.count ∧ t.dec.prev = s.dec.prev ∧
        (why = .endOfStream cause ∨ (why = .reuseWithoutWindow ∧ cause = .noWindow) ∨
          (why = .windowTooWide ∧ cause = .windowOverrun)) ∧
        (s.dec.state = .awaitingFirst → cause = .first)) ∧
    ∀ (b : Byte) (rest : List Bool) (t : State), s.dec.state = .awaitingFirst →
      fetchCodeword s.cfg s.dec = some (.ok (.cwTag b, rest)) → exec (.cwTag b) s = .next t →
      fetchCodeword t.cfg t.dec = some (.error why) →
      why = .endOfStream .first ∧
        exec .decNext s = .next { t with
          dec := { t.dec with err := ⟨.unexpectedEof, .first⟩, state := .done }
          resp := some (.err .unexpectedEof .first) }

/-- `DEC_SET_EXPECT en, n` (R204), in every state of the channel. -/
def Obligations.DecSetExpectSetsBoth : Prop :=
  ∀ (s : State) (en : Bool) (n : Nat), s.cfg.wf = true →
    exec (.decSetExpect en n) s = .next { s with
      dec := { s.dec with expectEn := en, expect := n }, resp := some (.ok .unit) }

/-- The operations that are not legal in the channel's state are answered `Refused` and change nothing (R111, R112). -/
def Obligations.IllegalOperationsAreRefused : Prop :=
  ∀ s : State, s.cfg.wf = true →
    (s.enc.state ≠ .raw → ∀ value count, exec (.snkWrite value count) s = .next { s with resp := some .refused }) ∧
    (s.enc.state ≠ .raw → exec .snkFinal s = .next { s with resp := some .refused }) ∧
    (s.enc.state ≠ .active → ∀ v, exec (.encSample v) s = .next { s with resp := some .refused }) ∧
    (s.enc.state ≠ .active → exec .encEnd s = .next { s with resp := some .refused }) ∧
    (s.dec.state ≠ .raw → exec .srcRdBit s = .next { s with resp := some .refused }) ∧
    (s.dec.state ≠ .raw → ∀ count, exec (.srcRdBits count) s = .next { s with resp := some .refused }) ∧
    (s.dec.state = .idle ∨ s.dec.state = .raw ∨ s.dec.state = .done →
      exec .decStep s = .next { s with resp := some .refused } ∧
      exec .decNext s = .next { s with resp := some .refused } ∧
      exec .decRun s = .next { s with resp := some .refused })

/-! ### The codewords -/

/-- `TAG` at stream bit 0 where a tag is used, and `FIRST` behind it or at stream bit 0 (R93, R94, R192): the byte is
latched, the value emitted unchecked, and exactly the codeword's bits are consumed. MODEL'S CHOICE (log 5): a codeword is an
instruction of its own, so that `TAG` alone answers `Ok(None)` and leaves `AWAITING_FIRST` behind the tag byte, a state that
no sequence of operations reaches. -/
def Obligations.TagAndFirstCodewordsExecute : Prop :=
  ∀ s : State, Inv s → s.dec.state = .awaitingFirst → s.dec.srcLen ≠ 0 →
    (∀ b : Byte, s.cfg.tagEn = true → srcRpos s.dec = 0 → 8 ≤ (unreadBits s.dec).length →
      ∃ d, Consumed s.dec d 8 ∧
        exec (.cwTag b) s = .next { s with dec := { d with tag := b }, resp := some (.ok .noSample) }) ∧
    (∀ v : Sample, srcRpos s.dec = 8 * s.cfg.tagBytes → 64 ≤ (unreadBits s.dec).length →
      ∃ d, Consumed s.dec d 64 ∧
        exec (.cwFirst v) s = .next { s with
          dec := { d with prev := v, count := 1, state := .readingControlA }, resp := some (.ok (.sample v)) })

/-- `REPEAT` (R95): one bit consumed, the previous value emitted again, the Window neither read nor changed. -/
def Obligations.RepeatCodewordExecutes : Prop :=
  ∀ s : State, Inv s → s.dec.state = .readingControlA → unreadBits s.dec ≠ [] →
    ∃ d, Consumed s.dec d 1 ∧
      exec .cwRepeat s = .next { s with
        dec := { d with count := s.dec.count + 1, state := .readingControlA }
        resp := some (.ok (.sample s.dec.prev)) }

/-- `REUSE` (R96): under a Window in force, `2 + w` bits consumed; the delta is the bits shifted left by the Window's
trailing count; the value it gives is emitted, or ends the stream, with the expected-count check, where it is `SENTINEL`. The Window is
not changed.
Without a Window, `UnexpectedEof(NO_WINDOW)` behind the two control bits (R102 (a)). -/
def Obligations.ReuseCodewordExecutes : Prop :=
  ∀ (s : State) (bits v : Sample), Inv s → s.dec.state = .readingControlA →
    (s.dec.win.valid = true → bits.toNat < 2 ^ s.dec.win.width → 2 + s.dec.win.width ≤ (unreadBits s.dec).length →
      v = s.dec.prev ^^^ (bits <<< s.dec.win.trail) →
      ∃ d, Consumed s.dec d (2 + s.dec.win.width) ∧
        (v ≠ s.cfg.sentinel →
          exec (.cwReuse bits) s = .next { s with
            dec := { d with
              m := s.dec.win.width, cur := v, prev := v, count := s.dec.count + 1, state := .readingControlA }
            resp := some (.ok (.sample v)) }) ∧
        (v = s.cfg.sentinel → s.dec.expectEn = false ∨ s.dec.count = s.dec.expect →
          exec (.cwReuse bits) s = .next { s with
            dec := { d with m := s.dec.win.width, cur := v, state := .done }, resp := some (.ok .endOfStream) }) ∧
        (v = s.cfg.sentinel → s.dec.expectEn = true → s.dec.count ≠ s.dec.expect →
          exec (.cwReuse bits) s = .next { s with
            dec := { d with
              m := s.dec.win.width, cur := v, err := ⟨.invariantViolation, .noCause⟩, state := .done }
            resp := some (.err .invariantViolation .noCause) })) ∧
    (s.dec.win.valid = false → 2 ≤ (unreadBits s.dec).length →
      ∃ d, Consumed s.dec d 2 ∧
        exec (.cwReuse bits) s = .next { s with
          dec := { d with err := ⟨.unexpectedEof, .noWindow⟩, state := .done }
          resp := some (.err .unexpectedEof .noWindow) })

/-- `NEW` (R97): where `LEAD + m ≤ 64`, the Window becomes `(LEAD, 64 − LEAD − m)`, the codeword's bits are consumed, the
delta is the bits shifted left by the new trailing count; the value is emitted, or ends the stream, with the
expected-count check, where it is `SENTINEL`. Else `UnexpectedEof(WINDOW_OVERRUN)` behind the header, the Window unchanged (R102 (b)). -/
def Obligations.NewCodewordExecutes : Prop :=
  ∀ (s : State) (lead len : BitVec 6) (bits v : Sample) (m trail n : Nat), Inv s → s.dec.state = .readingControlA →
    lead.toNat ≤ s.cfg.leadMax → m = len.toNat + 1 → trail = 64 - lead.toNat - m → n = 2 + s.cfg.leadW.bits + 6 →
    (lead.toNat + m ≤ 64 → bits.toNat < 2 ^ m → n + m ≤ (unreadBits s.dec).length →
      v = s.dec.prev ^^^ (bits <<< trail) →
      ∃ d, Consumed s.dec d (n + m) ∧
        (v ≠ s.cfg.sentinel →
          exec (.cwNew lead len bits) s = .next { s with
            dec := { d with
              win := ⟨true, lead.toNat, trail⟩, m := m, cur := v, prev := v, count := s.dec.count + 1
              state := .readingControlA }
            resp := some (.ok (.sample v)) }) ∧
        (v = s.cfg.sentinel → s.dec.expectEn = false ∨ s.dec.count = s.dec.expect →
          exec (.cwNew lead len bits) s = .next { s with
            dec := { d with win := ⟨true, lead.toNat, trail⟩, m := m, cur := v, state := .done }
            resp := some (.ok .endOfStream) }) ∧
        (v = s.cfg.sentinel → s.dec.expectEn = true → s.dec.count ≠ s.dec.expect →
          exec (.cwNew lead len bits) s = .next { s with
            dec := { d with
              win := ⟨true, lead.toNat, trail⟩, m := m, cur := v, err := ⟨.invariantViolation, .noCause⟩
              state := .done }
            resp := some (.err .invariantViolation .noCause) })) ∧
    (lead.toNat + m > 64 → n ≤ (unreadBits s.dec).length →
      ∃ d, Consumed s.dec d n ∧
        exec (.cwNew lead len bits) s = .next { s with
          dec := { d with err := ⟨.unexpectedEof, .windowOverrun⟩, state := .done }
          resp := some (.err .unexpectedEof .windowOverrun) })

/-- A codeword that the stream ends inside of raises `UnexpectedEof` with the cause of the part that is missing; the
parts before it stay consumed, and the read that failed changes nothing (R102, R146, R192 to R198, R252). A `TAG` is never
cut short: it stands at stream bit 0 of a slice that is not empty, so its 8 bits are there (R192: "the tag read
succeeds"). -/
def Obligations.CodewordCutShortRaises : Prop :=
  ∀ (s : State) (n L : Nat), Inv s → (unreadBits s.dec).length = n → L = s.cfg.leadW.bits →
    (s.dec.state = .awaitingFirst → s.dec.srcLen ≠ 0 →
      (srcRpos s.dec = 0 → 8 ≤ n) ∧
      (∀ v, srcRpos s.dec = 8 * s.cfg.tagBytes → n < 64 → EofAfter s 0 .first (exec (.cwFirst v) s))) ∧
    (s.dec.state = .readingControlA →
      (n = 0 → EofAfter s 0 .controlA (exec .cwRepeat s)) ∧
      (∀ bits, (s.dec.win.valid = true → bits.toNat < 2 ^ s.dec.win.width) →
        (n = 0 → EofAfter s 0 .controlA (exec (.cwReuse bits) s)) ∧
        (n = 1 → EofAfter s 1 .controlB (exec (.cwReuse bits) s)) ∧
        (s.dec.win.valid = true → 2 ≤ n → n < 2 + s.dec.win.width →
          ∃ d, Consumed s.dec d 2 ∧
            exec (.cwReuse bits) s = .next { s with
              dec := { d with m := s.dec.win.width, err := ⟨.unexpectedEof, .bits⟩, state := .done }
              resp := some (.err .unexpectedEof .bits) })) ∧
      ∀ (lead len : BitVec 6) (bits : Sample), lead.toNat ≤ s.cfg.leadMax →
        (lead.toNat + (len.toNat + 1) ≤ 64 → bits.toNat < 2 ^ (len.toNat + 1)) →
        (n = 0 → EofAfter s 0 .controlA (exec (.cwNew lead len bits) s)) ∧
        (n = 1 → EofAfter s 1 .controlB (exec (.cwNew lead len bits) s)) ∧
        (2 ≤ n → n < 2 + L → EofAfter s 2 .header (exec (.cwNew lead len bits) s)) ∧
        (2 + L ≤ n → n < 2 + L + 6 → EofAfter s (2 + L) .header (exec (.cwNew lead len bits) s)) ∧
        (lead.toNat + (len.toNat + 1) ≤ 64 → 2 + L + 6 ≤ n → n < 2 + L + 6 + (len.toNat + 1) →
          ∃ d, Consumed s.dec d (2 + L + 6) ∧
            exec (.cwNew lead len bits) s = .next { s with
              dec := { d with
                win := ⟨true, lead.toNat, 64 - lead.toNat - (len.toNat + 1)⟩, m := len.toNat + 1
                err := ⟨.unexpectedEof, .bits⟩, state := .done }
              resp := some (.err .unexpectedEof .bits) }))

/-- `PAD` (R100): after the terminal codeword, the zero bits up to the next byte boundary change nothing: "the decoder
stops at the sentinel and reads nothing after it". MODEL'S CHOICE (log 5): a `PAD` is executed in `DONE`, with exactly the
count R100 gives, and answered `Ok`. -/
def Obligations.PadCodewordChangesNothing : Prop :=
  ∀ (s : State) (n : BitVec 3), s.cfg.wf = true → s.dec.state = .done → s.dec.err = ErrReg.clear →
    n.toNat = (8 - srcRpos s.dec % 8) % 8 → exec (.cwPad n) s = .next { s with resp := some (.ok .unit) }

/-- MODEL'S CHOICE (log 5): a codeword executed where its position or the decoder's state does not select it, a `PAD` with
another count than R100 gives, and a `REUSE` or `NEW` with a field wider than its format, are answered `Refused`, and
nothing else changes. -/
def Obligations.CodewordsOutOfPlaceAreRefused : Prop :=
  ∀ s : State, s.cfg.wf = true →
    (∀ b, s.dec.state ≠ .awaitingFirst ∨ s.dec.srcLen = 0 ∨ s.cfg.tagEn = false ∨ srcRpos s.dec ≠ 0 →
      exec (.cwTag b) s = .next { s with resp := some .refused }) ∧
    (∀ v, s.dec.state ≠ .awaitingFirst ∨ s.dec.srcLen = 0 ∨ srcRpos s.dec ≠ 8 * s.cfg.tagBytes →
      exec (.cwFirst v) s = .next { s with resp := some .refused }) ∧
    (s.dec.state ≠ .readingControlA →
      exec .cwRepeat s = .next { s with resp := some .refused } ∧
      (∀ bits, exec (.cwReuse bits) s = .next { s with resp := some .refused }) ∧
      ∀ lead len bits, exec (.cwNew lead len bits) s = .next { s with resp := some .refused }) ∧
    (∀ bits, s.dec.win.valid = true → 2 ^ s.dec.win.width ≤ bits.toNat →
      exec (.cwReuse bits) s = .next { s with resp := some .refused }) ∧
    (∀ lead len bits, s.cfg.leadMax < lead.toNat ∨
        (lead.toNat + (len.toNat + 1) ≤ 64 ∧ 2 ^ (len.toNat + 1) ≤ bits.toNat) →
      exec (.cwNew lead len bits) s = .next { s with resp := some .refused }) ∧
    (∀ n, s.dec.state ≠ .done ∨ s.dec.err.kind ≠ .noError ∨ n.toNat ≠ (8 - srcRpos s.dec % 8) % 8 →
      exec (.cwPad n) s = .next { s with resp := some .refused })

/-! ### The codec as a whole -/

/-- ROUND TRIP: "For all finite sequences `S` of RawSample not containing the sentinel: `decode(encode(S)) == S`"
(R230), for every configuration whose buffers hold the bound of R291, from every state, on the same machine. -/
def Obligations.DecodeOfEncodeIsTheSequence : Prop :=
  ∀ (s : State) (values : List Sample), s.cfg.wf = true → s.cfg.sentinel ∉ values →
    (∀ k, s.cfg.obufCap = some k ∨ s.cfg.ibufCap = some k →
      (8 * s.cfg.tagBytes + 64 + (s.cfg.leadW.bits + 72) * values.length + 7) / 8 ≤ k) →
    s.dec.expectEn = false ∨ s.dec.expect = values.length →
    ∃ bytes, encode values s = some (.ok bytes) ∧ decode bytes s = some (.ok values)

/-- "`encode([])` yields an empty buffer; `decode([])` yields an empty sequence" (R231), for every configuration, tag or
no tag. The expected-count check: with it off, or 0 expected, the decode is `Ok`; with another count expected, an
`InvariantViolation` (R192, R204). -/
def Obligations.EmptySequenceIsTheEmptyBuffer : Prop :=
  ∀ s : State, s.cfg.wf = true →
    encode [] s = some (.ok []) ∧
    (s.dec.expectEn = false ∨ s.dec.expect = 0 → decode [] s = some (.ok [])) ∧
    (s.dec.expectEn = true → s.dec.expect ≠ 0 → decode [] s = some (.error .invariantViolation))

/-- "Any input containing the sentinel bit pattern must make `encode` fail with `ReservedValueCollision`, never silently
truncate" (R234), wherever it stands, on every sink that holds the bound of R291 for the sequence or has no bound (on a
smaller one `CapacityExceeded` may come first, R123). -/
def Obligations.EncodeOfSentinelCollides : Prop :=
  ∀ (s : State) (values : List Sample), s.cfg.wf = true → s.cfg.sentinel ∈ values →
    (∀ k, s.cfg.obufCap = some k →
      (8 * s.cfg.tagBytes + 64 + (s.cfg.leadW.bits + 72) * values.length + 7) / 8 ≤ k) →
    encode values s = some (.error .reservedValueCollision)

/-- The size of a constant sequence, with no Window at the start (R232, R233). -/
def Obligations.ConstantSequenceHasItsSize : Prop :=
  ∀ (s : State) (v : Sample) (n lead trail : Nat) (bytes : List Byte), s.cfg.wf = true → s.cfg.windowInit = none →
    lead = min (clz64 (v ^^^ s.cfg.sentinel)) s.cfg.leadMax → trail = ctz64 (v ^^^ s.cfg.sentinel) →
    encode (List.replicate (n + 1) v) s = some (.ok bytes) →
    bytes.length = (8 * s.cfg.tagBytes + 64 + n + (8 + s.cfg.leadW.bits + (64 - lead - trail)) + 7) / 8

/-- TRUNCATION: an encoded buffer cut to any shorter length that leaves at least one byte makes `decode` fail with
`UnexpectedEof` (R235). -/
def Obligations.TruncatedStreamIsUnexpectedEof : Prop :=
  ∀ (s : State) (values : List Sample) (bytes : List Byte) (n : Nat), s.cfg.wf = true →
    encode values s = some (.ok bytes) → 1 ≤ n → n < bytes.length → (∀ k, s.cfg.ibufCap = some k → n ≤ k) →
    decode (bytes.take n) s = some (.error .unexpectedEof)

/-- `decode` is total: on every buffer that fits `IBUF` it answers `Ok` or `Err`, with `UnexpectedEof` the only error
unless the expected-count check is on (R203, R240). -/
def Obligations.DecodeOfAnyBytesAnswers : Prop :=
  ∀ (s : State) (buffer : List Byte), s.cfg.wf = true → (∀ k, s.cfg.ibufCap = some k → buffer.length ≤ k) →
    (∃ vs, decode buffer s = some (.ok vs)) ∨ decode buffer s = some (.error .unexpectedEof) ∨
      (s.dec.expectEn = true ∧ decode buffer s = some (.error .invariantViolation))
end

