-- ==== Sys2Proof/Laws/State.lean ====
section
/-! SUPPORT. One lemma per field per update of the state. -/

namespace Sys2Proof.Machine

variable (s : State) (e : EncChannel) (d : DecChannel) (r : Response) (rest : List HostInput)

@[simp] theorem State.setEnc_enc : (s.setEnc e r).enc = e := rfl
@[simp] theorem State.setEnc_dec : (s.setEnc e r).dec = s.dec := rfl
@[simp] theorem State.setEnc_cfg : (s.setEnc e r).cfg = s.cfg := rfl
@[simp] theorem State.setEnc_pending : (s.setEnc e r).pending = s.pending := rfl
@[simp] theorem State.setEnc_resp : (s.setEnc e r).resp = some r := rfl

@[simp] theorem State.setDec_enc : (s.setDec d r).enc = s.enc := rfl
@[simp] theorem State.setDec_dec : (s.setDec d r).dec = d := rfl
@[simp] theorem State.setDec_cfg : (s.setDec d r).cfg = s.cfg := rfl
@[simp] theorem State.setDec_pending : (s.setDec d r).pending = s.pending := rfl
@[simp] theorem State.setDec_resp : (s.setDec d r).resp = some r := rfl

@[simp] theorem State.popInput_enc : (s.popInput rest).enc = s.enc := rfl
@[simp] theorem State.popInput_dec : (s.popInput rest).dec = s.dec := rfl
@[simp] theorem State.popInput_cfg : (s.popInput rest).cfg = s.cfg := rfl
@[simp] theorem State.popInput_pending : (s.popInput rest).pending = rest := rfl
@[simp] theorem State.popInput_resp : (s.popInput rest).resp = s.resp := rfl

/-! ### `raise` and the restarts -/

variable (kind : ErrKind) (cause : Cause)

@[simp] theorem raiseEnc_state : (raiseEnc kind cause e).1.state = .done := rfl
@[simp] theorem raiseEnc_err : (raiseEnc kind cause e).1.err = ⟨kind, cause⟩ := rfl
@[simp] theorem raiseEnc_count : (raiseEnc kind cause e).1.count = e.count := rfl
@[simp] theorem raiseEnc_prev : (raiseEnc kind cause e).1.prev = e.prev := rfl
@[simp] theorem raiseEnc_win : (raiseEnc kind cause e).1.win = e.win := rfl
@[simp] theorem raiseEnc_wbits : (raiseEnc kind cause e).1.wbits = e.wbits := rfl
@[simp] theorem raiseEnc_obuf : (raiseEnc kind cause e).1.obuf = e.obuf := rfl
@[simp] theorem raiseEnc_epoch : (raiseEnc kind cause e).1.epoch = e.epoch := rfl
@[simp] theorem raiseEnc_response : (raiseEnc kind cause e).2 = .err kind cause := rfl

@[simp] theorem raiseDec_state : (raiseDec kind cause d).1.state = .done := rfl
@[simp] theorem raiseDec_err : (raiseDec kind cause d).1.err = ⟨kind, cause⟩ := rfl
@[simp] theorem raiseDec_count : (raiseDec kind cause d).1.count = d.count := rfl
@[simp] theorem raiseDec_prev : (raiseDec kind cause d).1.prev = d.prev := rfl
@[simp] theorem raiseDec_win : (raiseDec kind cause d).1.win = d.win := rfl
@[simp] theorem raiseDec_m : (raiseDec kind cause d).1.m = d.m := rfl
@[simp] theorem raiseDec_cur : (raiseDec kind cause d).1.cur = d.cur := rfl
@[simp] theorem raiseDec_tag : (raiseDec kind cause d).1.tag = d.tag := rfl
@[simp] theorem raiseDec_expect : (raiseDec kind cause d).1.expect = d.expect := rfl
@[simp] theorem raiseDec_expectEn : (raiseDec kind cause d).1.expectEn = d.expectEn := rfl
@[simp] theorem raiseDec_srcLen : (raiseDec kind cause d).1.srcLen = d.srcLen := rfl
@[simp] theorem raiseDec_srcCursor : (raiseDec kind cause d).1.srcCursor = d.srcCursor := rfl
@[simp] theorem raiseDec_srcValid : (raiseDec kind cause d).1.srcValid = d.srcValid := rfl
@[simp] theorem raiseDec_srcCache : (raiseDec kind cause d).1.srcCache = d.srcCache := rfl
@[simp] theorem raiseDec_ibuf : (raiseDec kind cause d).1.ibuf = d.ibuf := rfl
@[simp] theorem raiseDec_epoch : (raiseDec kind cause d).1.epoch = d.epoch := rfl
@[simp] theorem raiseDec_answer : (raiseDec kind cause d).2 = .err kind cause := rfl

variable (es : EncState) (ds : DecState) (len : Nat)

@[simp] theorem restartEnc_state : (restartEnc es e).state = es := rfl
@[simp] theorem restartEnc_err : (restartEnc es e).err = ErrReg.clear := rfl
@[simp] theorem restartEnc_count : (restartEnc es e).count = e.count := rfl
@[simp] theorem restartEnc_prev : (restartEnc es e).prev = e.prev := rfl
@[simp] theorem restartEnc_win : (restartEnc es e).win = e.win := rfl
@[simp] theorem restartEnc_wbits : (restartEnc es e).wbits = 0 := rfl
@[simp] theorem restartEnc_obuf : (restartEnc es e).obuf = e.obuf := rfl
@[simp] theorem restartEnc_epoch : (restartEnc es e).epoch = e.epoch := rfl

@[simp] theorem restartDec_state : (restartDec ds len d).state = ds := rfl
@[simp] theorem restartDec_err : (restartDec ds len d).err = ErrReg.clear := rfl
@[simp] theorem restartDec_count : (restartDec ds len d).count = d.count := rfl
@[simp] theorem restartDec_prev : (restartDec ds len d).prev = d.prev := rfl
@[simp] theorem restartDec_win : (restartDec ds len d).win = d.win := rfl
@[simp] theorem restartDec_m : (restartDec ds len d).m = d.m := rfl
@[simp] theorem restartDec_cur : (restartDec ds len d).cur = d.cur := rfl
@[simp] theorem restartDec_tag : (restartDec ds len d).tag = d.tag := rfl
@[simp] theorem restartDec_expect : (restartDec ds len d).expect = d.expect := rfl
@[simp] theorem restartDec_expectEn : (restartDec ds len d).expectEn = d.expectEn := rfl
@[simp] theorem restartDec_srcLen : (restartDec ds len d).srcLen = len := rfl
@[simp] theorem restartDec_srcCursor : (restartDec ds len d).srcCursor = 0 := rfl
@[simp] theorem restartDec_srcValid : (restartDec ds len d).srcValid = 0 := rfl
@[simp] theorem restartDec_srcCache : (restartDec ds len d).srcCache = 0 := rfl
@[simp] theorem restartDec_ibuf : (restartDec ds len d).ibuf = d.ibuf := rfl
@[simp] theorem restartDec_epoch : (restartDec ds len d).epoch = d.epoch := rfl

/-! ### One bit written -/

variable (b : Bool)

@[simp] theorem putBit_state : (putBit b e).state = e.state := rfl
@[simp] theorem putBit_err : (putBit b e).err = e.err := rfl
@[simp] theorem putBit_count : (putBit b e).count = e.count := rfl
@[simp] theorem putBit_prev : (putBit b e).prev = e.prev := rfl
@[simp] theorem putBit_win : (putBit b e).win = e.win := rfl
@[simp] theorem putBit_wbits : (putBit b e).wbits = e.wbits + 1 := rfl
@[simp] theorem putBit_epoch : (putBit b e).epoch = e.epoch := rfl

/-! ### What a step of a channel changes of the machine -/

/-- An operation on the encoder channel answers a next state exactly when the configuration is one; the state is the
old one with the channel's and the response's new values. -/
theorem onEnc_eq (f : Cfg → EncChannel → EncChannel × Response) (h : s.cfg.wf = true) :
    onEnc f s = .next (s.setEnc (f s.cfg s.enc).1 (f s.cfg s.enc).2) := by
  simp [onEnc, h]

/-- Everything an operation on the encoder channel can do. -/
theorem onEnc_next {f : Cfg → EncChannel → EncChannel × Response} {s t : State} (h : onEnc f s = .next t) :
    s.cfg.wf = true ∧ t = s.setEnc (f s.cfg s.enc).1 (f s.cfg s.enc).2 := by
  unfold onEnc at h
  split at h
  · exact ⟨‹_›, (Host.Outcome.next.inj h).symm⟩
  · cases h

/-- An operation on the decoder channel answers a next state exactly when the configuration is one. -/
theorem onDec_eq (f : Cfg → DecChannel → DecChannel × Response) (h : s.cfg.wf = true) :
    onDec f s = .next (s.setDec (f s.cfg s.dec).1 (f s.cfg s.dec).2) := by
  simp [onDec, h]

/-- Everything an operation on the decoder channel can do. -/
theorem onDec_next {f : Cfg → DecChannel → DecChannel × Response} {s t : State} (h : onDec f s = .next t) :
    s.cfg.wf = true ∧ t = s.setDec (f s.cfg s.dec).1 (f s.cfg s.dec).2 := by
  unfold onDec at h
  split at h
  · exact ⟨‹_›, (Host.Outcome.next.inj h).symm⟩
  · cases h

end Sys2Proof.Machine
end

