-- ==== Sys2Proof/Laws/Stream.lean ====
section
/-! SUPPORT. Fields as bit strings and back (R8): the small lemmas of `fieldBits`, `fieldValue`, `takeField`. -/

namespace Sys2Proof

@[simp] theorem fieldBits_length (v : Sample) (n : Nat) : (fieldBits v n).length = n := by simp [fieldBits]

@[simp] theorem fieldBits_zero (v : Sample) : fieldBits v 0 = [] := rfl

/-- The first bit of a field is its most significant. -/
theorem fieldBits_succ (v : Sample) (n : Nat) : fieldBits v (n + 1) = v.getLsbD n :: fieldBits v n := by
  simp only [fieldBits, List.range_succ_eq_map, List.map_cons, List.map_map]
  refine List.cons_eq_cons.2 ⟨by simp, List.map_congr_left fun i _ => ?_⟩
  simp only [Function.comp]
  congr 1
  omega

theorem fieldBits_getElem? (v : Sample) (n i : Nat) :
    (fieldBits v n)[i]? = if i < n then some (v.getLsbD (n - 1 - i)) else none := by
  simp [fieldBits, List.getElem?_map]
  split <;> simp_all

@[simp] theorem fieldValue_nil : fieldValue [] = 0 := rfl

theorem fieldValue_snoc (bs : List Bool) (b : Bool) :
    fieldValue (bs ++ [b]) = (fieldValue bs <<< 1) ||| (BitVec.ofBool b).setWidth 64 := by
  simp [fieldValue]

/-- The bits of a field's value: bit `i` is the stream bit `i` places before the last. -/
theorem fieldValue_getLsbD (bs : List Bool) (i : Nat) :
    (fieldValue bs).getLsbD i = (decide (i < 64) && bs.reverse.getD i false) := by
  induction bs using List.reverseRecOn generalizing i with
  | nil => simp
  | append_singleton bs b ih =>
    rw [fieldValue_snoc]
    simp only [BitVec.getLsbD_or, BitVec.getLsbD_shiftLeft, ih, BitVec.getLsbD_setWidth, List.reverse_append,
      List.reverse_singleton, List.singleton_append]
    rcases i with _ | i
    · cases b <;> simp
    · by_cases h : i + 1 < 64
      · have h' : i < 64 := by omega
        cases b <;> simp [h, h']
      · simp [h]

/-- A field read back bit by bit. -/
theorem fieldBits_fieldValue (bs : List Bool) (h : bs.length ≤ 64) : fieldBits (fieldValue bs) bs.length = bs := by
  apply List.ext_getElem?
  intro i
  rw [fieldBits_getElem?]
  split
  · rw [fieldValue_getLsbD, List.getD_eq_getElem?_getD, List.getElem?_reverse (by omega)]
    have h1 : bs.length - 1 - (bs.length - 1 - i) = i := by omega
    rw [h1, List.getElem?_eq_getElem (by assumption)]
    simp
    omega
  · rw [List.getElem?_eq_none (by omega)]

/-- The value of a field of `n` bits needs `n` bits. -/
theorem fieldValue_toNat_lt (bs : List Bool) : (fieldValue bs).toNat < 2 ^ bs.length := by
  refine Nat.lt_pow_two_of_testBit _ fun i hi => ?_
  rw [← BitVec.getLsbD, fieldValue_getLsbD]
  simp [List.getElem?_eq_none (show bs.reverse.length ≤ i by simpa using hi)]

/-- A value that needs at most `n` bits is the value of its field of `n` bits. -/
theorem fieldValue_fieldBits (v : Sample) (n : Nat) (h : v.toNat < 2 ^ n) : fieldValue (fieldBits v n) = v := by
  apply BitVec.eq_of_getLsbD_eq
  intro i hi
  rw [fieldValue_getLsbD]
  by_cases hn : i < n
  · rw [List.getD_eq_getElem?_getD, List.getElem?_reverse (by simpa using hn), fieldBits_getElem?]
    simp only [fieldBits_length]
    rw [if_pos (by omega), show n - 1 - (n - 1 - i) = i by omega]
    simp [hi]
  · rw [List.getD_eq_getElem?_getD, List.getElem?_eq_none (by simpa using hn)]
    have : v.toNat.testBit i = false :=
      Nat.testBit_lt_two_pow (lt_of_lt_of_le h (Nat.pow_le_pow_right (by omega) (by omega)))
    simp [BitVec.getLsbD, this]

/-- The value of two fields side by side: the first is the more significant. -/
theorem fieldValue_append (as bs : List Bool) (h : bs.length ≤ 64) :
    fieldValue (as ++ bs) = (fieldValue as <<< bs.length) ||| fieldValue bs := by
  apply BitVec.eq_of_getLsbD_eq
  intro i hi
  simp only [BitVec.getLsbD_or, BitVec.getLsbD_shiftLeft, fieldValue_getLsbD, List.reverse_append,
    List.getD_eq_getElem?_getD, hi, decide_true, Bool.true_and]
  by_cases hb : i < bs.length
  · rw [List.getElem?_append_left (by simpa using hb)]
    simp [hb]
  · rw [List.getElem?_append_right (by simpa using hb)]
    simp only [List.length_reverse, hb, decide_false, Bool.not_false, Bool.true_and]
    rw [List.getElem?_eq_none (l := bs.reverse) (by simpa using hb)]
    simp [show i - bs.length < 64 by omega]

/-- Everything `takeField` can do. -/
theorem takeField_eq_some {n : Nat} {stream : List Bool} {v : Sample} {rest : List Bool}
    (h : takeField n stream = some (v, rest)) :
    n ≤ stream.length ∧ v = fieldValue (stream.take n) ∧ rest = stream.drop n := by
  unfold takeField at h
  split at h
  · simp only [Option.some.injEq, Prod.mk.injEq] at h
    exact ⟨‹_›, h.1.symm, h.2.symm⟩
  · cases h

theorem takeField_eq_none {n : Nat} {stream : List Bool} : takeField n stream = none ↔ stream.length < n := by
  simp [takeField]

/-- A field written and then read. -/
theorem takeField_fieldBits (v : Sample) (n : Nat) (rest : List Bool) (h : v.toNat < 2 ^ n) :
    takeField n (fieldBits v n ++ rest) = some (v, rest) := by
  simp [takeField, fieldValue_fieldBits v n h]

@[simp] theorem byteBits_length (b : Byte) : (byteBits b).length = 8 := by simp [byteBits]

/-- Bit `i` of a byte in stream order is its bit `7 − i` (R8). -/
theorem byteBits_getElem? (b : Byte) (i : Nat) :
    (byteBits b)[i]? = if i < 8 then some (b.getLsbD (7 - i)) else none := by
  rw [byteBits, fieldBits_getElem?]
  split
  · rw [BitVec.getLsbD_setWidth]
    simp [show 8 - 1 - i < 64 by omega]
  · rfl

end Sys2Proof
end

