-- ==== Sys2Proof/Laws/Source.lean ====
section
/-! SUPPORT. What the source's unit operations do: `refill` (R142), `take` (R143), `readBits` (R145), in terms of the unread
part of the stream (R33). -/

namespace Sys2Proof.Machine

/-- `mask(n)` has its low `n` bits one (R9). -/
theorem mask_getLsbD {n : Nat} (hn : n ≤ 64) (i : Nat) : (mask n).getLsbD i = decide (i < n) := by
  unfold mask
  split
  · subst_vars
    exact BitVec.getLsbD_allOnes
  · have h1 : 2 ^ n < 2 ^ 64 := Nat.pow_lt_pow_right (by omega) (by omega)
    have h2 : 0 < 2 ^ n := Nat.pow_pos (by omega)
    have h : ((1 : Sample) <<< n - 1) = BitVec.ofNat 64 (2 ^ n - 1) := by
      apply BitVec.eq_of_toNat_eq
      have h3 : ((1 : Sample) <<< n).toNat = 2 ^ n := by
        rw [BitVec.toNat_shiftLeft, Nat.shiftLeft_eq]
        exact (congrArg (· % 2 ^ 64) (Nat.one_mul _)).trans (Nat.mod_eq_of_lt h1)
      have h4 : ((1 : Sample)).toNat = 1 := rfl
      rw [BitVec.toNat_sub, h3, h4, BitVec.toNat_ofNat, Nat.mod_eq_of_lt (show 2 ^ n - 1 < 2 ^ 64 by omega)]
      omega
    rw [h, BitVec.getLsbD_ofNat, Nat.testBit_two_pow_sub_one]
    by_cases h : i < n
    · simp [h]; omega
    · simp [h]

/-! ### The unread part of the stream -/

@[simp] theorem unreadBits_length (d : DecChannel) : (unreadBits d).length = avail d := by
  simp [unreadBits, avail, Nat.mul_comm]

/-- The bytes of a buffer as stream bits and as a big-endian number agree (R61). -/
theorem bigEndian_eq_fieldValue (f : Nat → Byte) (a k : Nat) :
    bigEndian f a k = fieldValue ((List.range k).flatMap fun i => byteBits (f (a + i))) := by
  induction k with
  | zero => rfl
  | succ k ih =>
    rw [List.range_succ, List.flatMap_append, List.flatMap_singleton, fieldValue_append _ _ (by simp), byteBits_length,
      ← ih, bigEndian]
    congr 1
    rw [byteBits, fieldValue_fieldBits]
    rw [BitVec.toNat_setWidth]
    have := (f (a + k)).isLt
    omega

/-- A field without its first `n` bits. -/
theorem fieldBits_drop (v : Sample) (m n : Nat) : (fieldBits v m).drop n = fieldBits v (m - n) := by
  apply List.ext_getElem?
  intro i
  rw [List.getElem?_drop, fieldBits_getElem?, fieldBits_getElem?]
  by_cases h : n + i < m
  · rw [if_pos h, if_pos (by omega), show m - 1 - (n + i) = m - n - 1 - i by omega]
  · rw [if_neg h, if_neg (by omega)]

theorem fieldBits_and_mask (v : Sample) {m : Nat} (h : m ≤ 64) : fieldBits (v &&& mask m) m = fieldBits v m := by
  apply List.ext_getElem?
  intro i
  rw [fieldBits_getElem?, fieldBits_getElem?]
  split
  · rw [BitVec.getLsbD_and, mask_getLsbD h]
    simp [show m - 1 - i < m by omega]
  · rfl

/-- The chunk `take(n)` answers is the value of the first `n` of the valid bits (R143). -/
theorem takeBits_chunk {d : DecChannel} {n : Nat} (hn : n ≤ d.srcValid) (hv : d.srcValid ≤ 64) :
    (takeBits n d).1 = fieldValue ((fieldBits d.srcCache d.srcValid).take n) := by
  apply BitVec.eq_of_getLsbD_eq
  intro i hi
  simp only [takeBits, BitVec.getLsbD_and, mask_getLsbD (show n ≤ 64 by omega), BitVec.getLsbD_ushiftRight,
    fieldValue_getLsbD, hi, decide_true, Bool.true_and, List.getD_eq_getElem?_getD]
  by_cases h : i < n
  · rw [List.getElem?_reverse (by simp; omega), List.getElem?_take, List.length_take, fieldBits_length,
      Nat.min_eq_left hn, if_pos (by omega), fieldBits_getElem?, if_pos (by omega),
      show d.srcValid - 1 - (n - 1 - i) = d.srcValid - n + i by omega]
    simp [h]
  · rw [List.getElem?_eq_none (by simp; omega)]
    simp [h]

/-- `take(n)` changes the cache and its valid count and nothing else. -/
theorem takeBits_eq (n : Nat) (d : DecChannel) :
    (takeBits n d).2 = { d with srcValid := d.srcValid - n, srcCache := d.srcCache &&& mask (d.srcValid - n) } := rfl

theorem unreadBits_takeBits {d : DecChannel} {n : Nat} (hn : n ≤ d.srcValid) (hv : d.srcValid ≤ 64) :
    unreadBits (takeBits n d).2 = (unreadBits d).drop n := by
  have h : n - (fieldBits d.srcCache d.srcValid).length = 0 := by simp; omega
  simp only [unreadBits, takeBits_eq, List.drop_append, fieldBits_drop, h, List.drop_zero,
    fieldBits_and_mask d.srcCache (show d.srcValid - n ≤ 64 by omega)]
  rfl

/-- "A refill does not change `SRC_RPOS` or `avail`" (R142): the unread part of the stream is the same bits. -/
theorem unreadBits_refill {d : DecChannel} (h0 : d.srcValid = 0) : unreadBits (refill d) = unreadBits d := by
  simp only [unreadBits, refill, h0, fieldBits_zero, List.nil_append]
  have hk : min 8 (d.srcLen - d.srcCursor) ≤ d.srcLen - d.srcCursor := Nat.min_le_right _ _
  have h8 : min 8 (d.srcLen - d.srcCursor) ≤ 8 := Nat.min_le_left _ _
  generalize min 8 (d.srcLen - d.srcCursor) = k at *
  have hlen : ((List.range k).flatMap fun i => byteBits (ibufByte d (d.srcCursor + i))).length = 8 * k := by
    simp [Nat.mul_comm]
  rw [bigEndian_eq_fieldValue, ← hlen, fieldBits_fieldValue _ (by omega),
    show d.srcLen - d.srcCursor = k + (d.srcLen - (d.srcCursor + k)) by omega, List.range_add, List.flatMap_append,
    List.flatMap_map]
  congr 1
  simp only [ibufByte, Nat.add_assoc]

/-- The refill inside a read: afterwards the cache holds a bit unless the stream is at its end, the unread bits are the
same, and the bounds hold. -/
theorem refillIfEmpty_spec {d : DecChannel} (hv : d.srcValid ≤ 64) :
    unreadBits (refillIfEmpty d) = unreadBits d ∧ (refillIfEmpty d).srcValid ≤ 64 ∧
      (0 < avail d → 0 < (refillIfEmpty d).srcValid) ∧
      (d.srcValid ≤ 8 * d.srcCursor → (refillIfEmpty d).srcValid ≤ 8 * (refillIfEmpty d).srcCursor) ∧
      srcRpos (refillIfEmpty d) = srcRpos d ∧
      refillIfEmpty d = { d with
        srcCursor := (refillIfEmpty d).srcCursor
        srcValid := (refillIfEmpty d).srcValid
        srcCache := (refillIfEmpty d).srcCache } := by
  unfold refillIfEmpty
  split
  · refine ⟨unreadBits_refill ‹_›, ?_, ?_, ?_, ?_, rfl⟩
    · simp only [refill]; omega
    · simp only [refill, avail]; omega
    · simp only [refill]; omega
    · simp only [refill, srcRpos]; omega
  · refine ⟨rfl, hv, fun _ => by omega, id, rfl, rfl⟩

theorem avail_eq_of_unreadBits {d d' : DecChannel} (h : unreadBits d' = unreadBits d) : avail d' = avail d := by
  rw [← unreadBits_length, ← unreadBits_length, h]

/-- Everything the loop of R145 does. -/
theorem readLoop_spec {fuel rem : Nat} {acc : Sample} {d : DecChannel} (hf : rem ≤ fuel) (hr : rem ≤ avail d)
    (h64 : rem ≤ 64) (hv : d.srcValid ≤ 64) :
    (readLoop fuel rem acc d).1 = (acc <<< rem) ||| fieldValue ((unreadBits d).take rem) ∧
      unreadBits (readLoop fuel rem acc d).2 = (unreadBits d).drop rem ∧
      (readLoop fuel rem acc d).2.srcValid ≤ 64 ∧
      (d.srcValid ≤ 8 * d.srcCursor →
        (readLoop fuel rem acc d).2.srcValid ≤ 8 * (readLoop fuel rem acc d).2.srcCursor ∧
        srcRpos (readLoop fuel rem acc d).2 = srcRpos d + rem) ∧
      (readLoop fuel rem acc d).2 = { d with
        srcCursor := (readLoop fuel rem acc d).2.srcCursor
        srcValid := (readLoop fuel rem acc d).2.srcValid
        srcCache := (readLoop fuel rem acc d).2.srcCache } := by
  induction fuel generalizing rem acc d with
  | zero =>
    obtain rfl : rem = 0 := by omega
    refine ⟨by simp [readLoop], rfl, hv, fun h => ⟨h, rfl⟩, rfl⟩
  | succ fuel ih =>
    by_cases h0 : rem = 0
    · subst h0
      refine ⟨by simp [readLoop], rfl, hv, fun h => ⟨h, rfl⟩, rfl⟩
    · obtain ⟨hu, hv1, hpos, hcur, hrpos, heq⟩ := refillIfEmpty_spec hv
      have hav := avail_eq_of_unreadBits hu
      have hp := hpos (by omega)
      simp only [readLoop, h0, if_false]
      set d1 := refillIfEmpty d with hd1
      set n := min rem d1.srcValid with hn
      have hn1 : n ≤ d1.srcValid := Nat.min_le_right _ _
      have hn2 : n ≤ rem := Nat.min_le_left _ _
      have hn0 : 0 < n := by omega
      have hut := unreadBits_takeBits hn1 hv1
      have havt : avail (takeBits n d1).2 = avail d - n := by
        rw [← unreadBits_length, hut, List.length_drop, unreadBits_length, hav]
      have hchunk : (takeBits n d1).1 = fieldValue ((unreadBits d).take n) := by
        rw [takeBits_chunk hn1 hv1, ← hu, unreadBits, List.take_append_of_le_length (by simpa using hn1)]
      have hacc : (if n = 64 then (takeBits n d1).1 else (acc <<< n) ||| (takeBits n d1).1)
          = (acc <<< n) ||| (takeBits n d1).1 := by
        split
        · rename_i h
          rw [h]
          simp
        · rfl
      rw [hacc]
      obtain ⟨i1, i2, i3, i4, i5⟩ := ih (rem := rem - n) (acc := (acc <<< n) ||| (takeBits n d1).1)
        (d := (takeBits n d1).2) (by omega) (by omega) (by omega) (by simp only [takeBits_eq]; omega)
      have hdrop : (unreadBits (takeBits n d1).2) = (unreadBits d).drop n := by rw [hut, hu]
      refine ⟨?_, ?_, i3, fun hc => ?_, ?_⟩
      · have htake : (unreadBits d).take rem
            = (unreadBits d).take n ++ ((unreadBits d).drop n).take (rem - n) := by
          conv_lhs => rw [show rem = n + (rem - n) by omega]
          rw [List.take_add]
        have hl : (((unreadBits d).drop n).take (rem - n)).length = rem - n := by
          simp only [List.length_take, List.length_drop, unreadBits_length]
          omega
        rw [i1, hdrop, htake, fieldValue_append _ _ (by omega), hl, hchunk, ← BitVec.or_assoc]
        congr 1
        rw [BitVec.shiftLeft_or_distrib, ← BitVec.shiftLeft_add]
        rw [show n + (rem - n) = rem by omega]
      · rw [i2, hdrop, List.drop_drop]
        congr 1
        omega
      · have h1 := hcur hc
        obtain ⟨j1, j2⟩ := i4 (by simp only [takeBits_eq]; omega)
        refine ⟨j1, ?_⟩
        rw [j2]
        simp only [takeBits_eq, srcRpos] at *
        omega
      · rw [i5, takeBits_eq, heq]

/-! ### The registers a read leaves -/

theorem and_mask_lt (v : Sample) {n : Nat} (hn : n ≤ 64) : (v &&& mask n).toNat < 2 ^ n := by
  refine Nat.lt_pow_two_of_testBit _ fun i hi => ?_
  rw [← BitVec.getLsbD, BitVec.getLsbD_and, mask_getLsbD hn]
  simp [show ¬ i < n by omega]

theorem ReadLazily.refl (d : DecChannel) : ReadLazily d d 0 := ⟨by simp [cursorAfter], by simp, by simp⟩

/-- Two reads leave the registers that one read of all their bits leaves (R145: "the value is the same as if the slice
were one long bit string", and so are the registers). -/
theorem ReadLazily.trans {d d' d'' : DecChannel} {n m : Nat} (h : ReadLazily d d' n) (h' : ReadLazily d' d'' m)
    (hu : unreadBits d' = (unreadBits d).drop n) (hl : d'.srcLen = d.srcLen) : ReadLazily d d'' (n + m) := by
  obtain ⟨h1, h2, h3⟩ := h
  obtain ⟨g1, g2, g3⟩ := h'
  have hc : d''.srcCursor = cursorAfter d (n + m) := by
    simp only [cursorAfter, hl] at h1 g1 ⊢
    split at h1 <;> split at g1 <;> split <;> omega
  have hv : d''.srcValid + (n + m) = d.srcValid + 8 * (d''.srcCursor - d.srcCursor) := by
    simp only [cursorAfter, hl] at h1 g1
    split at h1 <;> split at g1 <;> omega
  refine ⟨hc, hv, ?_⟩
  by_cases hm : m = 0
  · subst hm
    simp only [cursorAfter, Nat.zero_le, if_true] at g1
    rw [g3, if_pos rfl, h3, show d''.srcValid = d'.srcValid by omega, Nat.add_zero]
  · rw [g3, if_neg hm, if_neg (by omega), hu, List.drop_drop]

/-- One turn of the loop of R145 leaves the registers of a read of the bits it takes. -/
theorem ReadLazily.turn {d : DecChannel} {n : Nat} (hv : d.srcValid ≤ 64) (h0 : 0 < n)
    (hn : n ≤ (refillIfEmpty d).srcValid) : ReadLazily d (takeBits n (refillIfEmpty d)).2 n := by
  obtain ⟨hu, hv1, -⟩ := refillIfEmpty_spec hv
  have hc : (refillIfEmpty d).srcCursor = cursorAfter d n ∧
      (refillIfEmpty d).srcValid = d.srcValid + 8 * ((refillIfEmpty d).srcCursor - d.srcCursor) := by
    unfold refillIfEmpty at hn ⊢
    by_cases h : d.srcValid = 0
    · simp only [if_pos h, refill] at hn ⊢
      simp only [cursorAfter, h]
      rw [if_neg (by omega)]
      omega
    · simp only [if_neg h] at hn ⊢
      rw [cursorAfter, if_pos hn]
      omega
  refine ⟨hc.1, ?_, ?_⟩
  · have h2 := hc.2
    simp only [takeBits_eq]
    omega
  · have hlt := and_mask_lt (refillIfEmpty d).srcCache (n := (refillIfEmpty d).srcValid - n) (by omega)
    rw [if_neg (by omega), ← hu, ← unreadBits_takeBits hn hv1, unreadBits,
      List.take_append_of_le_length (by simp), List.take_of_length_le (by simp)]
    simp only [takeBits_eq]
    rw [fieldValue_fieldBits _ _ hlt]

/-- The loop of R145 leaves the registers of a read of all its bits. -/
theorem readLoop_lazily {fuel rem : Nat} {acc : Sample} {d : DecChannel} (hf : rem ≤ fuel) (hr : rem ≤ avail d)
    (hv : d.srcValid ≤ 64) : ReadLazily d (readLoop fuel rem acc d).2 rem := by
  induction fuel generalizing rem acc d with
  | zero =>
    obtain rfl : rem = 0 := by omega
    exact .refl d
  | succ fuel ih =>
    by_cases h0 : rem = 0
    · subst h0
      simpa [readLoop] using ReadLazily.refl d
    · obtain ⟨hu, hv1, hpos, -, -, heq⟩ := refillIfEmpty_spec hv
      have hp := hpos (by omega)
      have hav := avail_eq_of_unreadBits hu
      simp only [readLoop, h0, if_false]
      set n := min rem (refillIfEmpty d).srcValid with hn
      have hut : unreadBits (takeBits n (refillIfEmpty d)).2 = (unreadBits d).drop n := by
        rw [unreadBits_takeBits (by omega) hv1, hu]
      have hlen : avail (takeBits n (refillIfEmpty d)).2 = avail d - n := by
        rw [← unreadBits_length, hut, List.length_drop, unreadBits_length]
      have h := fun acc => (ReadLazily.turn hv (show 0 < n by omega) (by omega)).trans
        (ih (rem := rem - n) (acc := acc) (d := (takeBits n (refillIfEmpty d)).2) (by omega) (by omega)
          (by simp only [takeBits_eq]; omega)) hut (by rw [takeBits_eq, heq])
      rw [show n + (rem - n) = rem by omega] at h
      exact h _

/-- Everything `readBits` can do (R145, R146): it fails exactly when too few bits are left; else it answers the next
`count` stream bits, the first as the most significant, and has consumed exactly them. -/
theorem readBits_spec {d : DecChannel} {n : Nat} (h64 : n ≤ 64) (hv : d.srcValid ≤ 64) (hc : d.srcValid ≤ 8 * d.srcCursor)
    (hn : n ≤ (unreadBits d).length) :
    ∃ d', readBits n d = some (fieldValue ((unreadBits d).take n), d') ∧ Consumed d d' n ∧ d'.srcValid ≤ 64 ∧
      d'.srcValid ≤ 8 * d'.srcCursor := by
  rw [unreadBits_length] at hn
  obtain ⟨h1, h2, h3, h4, h5⟩ := readLoop_spec (acc := 0) (le_refl n) hn h64 hv
  refine ⟨(readLoop n n 0 d).2, ?_, ⟨h5, h2, (h4 hc).2, readLoop_lazily (le_refl n) hn hv⟩, h3, (h4 hc).1⟩
  rw [readBits, if_neg (by omega)]
  congr 1
  apply Prod.ext
  · rw [h1]; simp
  · rfl

theorem readBits_none_iff {d : DecChannel} {n : Nat} : readBits n d = none ↔ (unreadBits d).length < n := by
  simp [readBits]

/-- What a `readBits` that answered has done. -/
theorem readBits_some {d d' : DecChannel} {n : Nat} {v : Sample} (h64 : n ≤ 64) (hv : d.srcValid ≤ 64)
    (hc : d.srcValid ≤ 8 * d.srcCursor) (h : readBits n d = some (v, d')) :
    n ≤ (unreadBits d).length ∧ v = fieldValue ((unreadBits d).take n) ∧ Consumed d d' n ∧ d'.srcValid ≤ 64 ∧
      d'.srcValid ≤ 8 * d'.srcCursor := by
  have hn : n ≤ (unreadBits d).length := by
    by_contra hlt
    rw [readBits_none_iff.2 (by omega)] at h
    cases h
  obtain ⟨d1, h1, h2, h3, h4⟩ := readBits_spec h64 hv hc hn
  rw [h1] at h
  simp only [Option.some.injEq, Prod.mk.injEq] at h
  obtain ⟨rfl, rfl⟩ := h
  exact ⟨hn, rfl, h2, h3, h4⟩

/-! ### What every read keeps -/

/-- A property that every refill and every `take` keeps, every `readBits` keeps (R145). -/
theorem readBits_keeps {P : DecChannel → Prop} (hv : ∀ d, P d → d.srcValid ≤ 64)
    (hr : ∀ d, P d → d.srcValid = 0 → d.srcCursor < d.srcLen → P (refill d))
    (ht : ∀ d n, P d → 0 < n → n ≤ d.srcValid → P (takeBits n d).2) {d d' : DecChannel} {n : Nat} {v : Sample}
    (hd : P d) (h : readBits n d = some (v, d')) : P d' := by
  have loop : ∀ fuel rem acc d, P d → rem ≤ avail d → P (readLoop fuel rem acc d).2 := by
    intro fuel
    induction fuel with
    | zero => exact fun _ _ _ hd _ => hd
    | succ fuel ih =>
      intro rem acc d hd hrem
      unfold readLoop
      split
      · exact hd
      · have h1 : P (refillIfEmpty d) := by
          unfold refillIfEmpty
          split
          · exact hr d hd ‹_› (by unfold avail at hrem; omega)
          · exact hd
        obtain ⟨hu, hle, hpos, -⟩ := refillIfEmpty_spec (hv d hd)
        have h2 := hpos (by omega)
        have hav := avail_eq_of_unreadBits hu
        refine ih _ _ _ (ht _ _ h1 (by omega) (Nat.min_le_right _ _)) ?_
        rw [← unreadBits_length, unreadBits_takeBits (Nat.min_le_right _ _) hle, List.length_drop, unreadBits_length, hav]
        omega
  unfold readBits at h
  split at h
  · cases h
  · simp only [Option.some.injEq] at h
    have h2 := loop n n 0 d hd (by omega)
    rw [h] at h2
    exact h2

/-- The number the bytes of a refill make needs no more bits than the bytes have. -/
theorem bigEndian_lt (f : Nat → Byte) (a k : Nat) : (bigEndian f a k).toNat < 2 ^ (8 * k) := by
  rw [bigEndian_eq_fieldValue]
  have h := fieldValue_toNat_lt ((List.range k).flatMap fun i => byteBits (f (a + i)))
  have hl : ((List.range k).flatMap fun i => byteBits (f (a + i))).length = 8 * k := by
    simp [Nat.mul_comm]
  rwa [hl] at h

/-- A `readBits` keeps the source's invariant (R149 (a) to (e)). -/
theorem sourceOk_readBits {c : Cfg} {d d' : DecChannel} {n : Nat} {v : Sample} (hd : sourceOk c d = true)
    (h : readBits n d = some (v, d')) : sourceOk c d' = true := by
  refine readBits_keeps (P := fun d => sourceOk c d = true) ?_ ?_ ?_ hd h
  · intro d hd
    simp only [sourceOk, Bool.and_eq_true, decide_eq_true_eq] at hd
    omega
  · intro d hd h0 hlt
    simp only [sourceOk, Bool.and_eq_true, Bool.or_eq_true, decide_eq_true_eq, beq_iff_eq] at hd ⊢
    obtain ⟨⟨⟨⟨⟨⟨⟨h1, h2⟩, h3⟩, h4⟩, h5⟩, h6⟩, h7⟩, h8⟩ := hd
    simp only [refill]
    refine ⟨⟨⟨⟨⟨⟨⟨h1, h2⟩, h3⟩, ?_⟩, ?_⟩, bigEndian_lt _ _ _⟩, ?_⟩, ?_⟩ <;> omega
  · intro d n hd h0 hn
    simp only [sourceOk, Bool.and_eq_true, Bool.or_eq_true, decide_eq_true_eq, beq_iff_eq] at hd ⊢
    obtain ⟨⟨⟨⟨⟨⟨⟨h1, h2⟩, h3⟩, h4⟩, h5⟩, h6⟩, h7⟩, h8⟩ := hd
    simp only [takeBits_eq]
    exact ⟨⟨⟨⟨⟨⟨⟨h1, h2⟩, h3⟩, h4⟩, by omega⟩, and_mask_lt _ (by omega)⟩, by omega⟩, h8⟩

/-- The bits of the cache after a refill are those of the bytes refilled. -/
theorem bigEndian_getLsbD (f : Nat → Byte) (a k i : Nat) (hk : k ≤ 8) (hi : i < 8 * k) :
    (bigEndian f a k).getLsbD (8 * k - 1 - i) = streamBit f (8 * a + i) := by
  induction k with
  | zero => omega
  | succ k ih =>
    rw [bigEndian, BitVec.getLsbD_or, BitVec.getLsbD_shiftLeft, BitVec.getLsbD_setWidth]
    by_cases h : i < 8 * k
    · have h1 := ih (by omega) h
      have h2 : ¬ 8 * (k + 1) - 1 - i < 8 := by omega
      rw [show 8 * (k + 1) - 1 - i - 8 = 8 * k - 1 - i by omega, h1,
        BitVec.getLsbD_of_ge _ _ (show 8 ≤ 8 * (k + 1) - 1 - i by omega)]
      simp [h2, show 8 * (k + 1) - 1 - i < 64 by omega]
    · unfold streamBit
      rw [show (8 * a + i) / 8 = a + k by omega, show 7 - (8 * a + i) % 8 = 8 * (k + 1) - 1 - i by omega]
      simp [show 8 * (k + 1) - 1 - i < 8 by omega, show 8 * (k + 1) - 1 - i < 64 by omega]

/-- A `readBits` keeps the cache a mirror of `IBUF` (R149 (f)). -/
theorem cacheMirrors_readBits {c : Cfg} {d d' : DecChannel} {n : Nat} {v : Sample} (hd : sourceOk c d = true)
    (hm : CacheMirrors d) (h : readBits n d = some (v, d')) : CacheMirrors d' := by
  refine (readBits_keeps (P := fun d => (d.srcValid ≤ 64 ∧ d.srcValid ≤ 8 * d.srcCursor) ∧ CacheMirrors d)
    (fun d h => h.1.1) ?_ ?_ ⟨?_, hm⟩ h).2
  · rintro d ⟨⟨h1, h2⟩, h3⟩ h0 hlt
    refine ⟨⟨by simp only [refill]; omega, by simp only [refill]; omega⟩, fun i hi => ?_⟩
    simp only [refill, srcRpos] at hi ⊢
    rw [bigEndian_getLsbD _ _ _ _ (Nat.min_le_left _ _) hi]
    congr 1
    omega
  · rintro d n ⟨⟨h1, h2⟩, h3⟩ h0 hn
    refine ⟨⟨by simp only [takeBits_eq]; omega, by simp only [takeBits_eq]; omega⟩, fun i hi => ?_⟩
    simp only [takeBits_eq] at hi ⊢
    rw [BitVec.getLsbD_and, mask_getLsbD (by omega)]
    have h4 := h3 (n + i) (by omega)
    rw [show d.srcValid - 1 - (n + i) = d.srcValid - n - 1 - i by omega] at h4
    rw [h4]
    simp only [srcRpos, show d.srcValid - n - 1 - i < d.srcValid - n by omega, decide_true, Bool.and_true]
    unfold ibufByte
    congr 1
    omega
  · simp only [sourceOk, Bool.and_eq_true, decide_eq_true_eq] at hd
    omega

/-- The bounds a read needs, from the invariant. -/
theorem sourceOk_bounds {c : Cfg} {d : DecChannel} (h : sourceOk c d = true) :
    d.srcValid ≤ 64 ∧ d.srcValid ≤ 8 * d.srcCursor := by
  simp only [sourceOk, Bool.and_eq_true, decide_eq_true_eq] at h
  omega

/-! ### Consumed -/

theorem Consumed.refl (d : DecChannel) : Consumed d d 0 := ⟨rfl, by simp, rfl, .refl d⟩

/-- Nothing read, nothing changed (R146). -/
theorem Consumed.eq_of_zero {d d' : DecChannel} (h : Consumed d d' 0) : d' = d := by
  obtain ⟨h1, -, -, h2, h3, h4⟩ := h
  simp only [cursorAfter, Nat.zero_le, if_true] at h2 h4
  rw [h1, h4, h2, show d'.srcValid = d.srcValid by omega]

theorem Consumed.trans {d d' d'' : DecChannel} {n m : Nat} (h : Consumed d d' n) (h' : Consumed d' d'' m) :
    Consumed d d'' (n + m) := by
  refine ⟨?_, ?_, ?_, h.2.2.2.trans h'.2.2.2 h.2.1 (by rw [h.1])⟩
  · rw [h'.1, h.1]
  · rw [h'.2.1, h.2.1, List.drop_drop]
  · rw [h'.2.2.1, h.2.2.1, Nat.add_assoc]

section Consumed

variable {d d' : DecChannel} {n : Nat}

theorem Consumed.state_eq (h : Consumed d d' n) : d'.state = d.state := by rw [h.1]
theorem Consumed.err_eq (h : Consumed d d' n) : d'.err = d.err := by rw [h.1]
theorem Consumed.count_eq (h : Consumed d d' n) : d'.count = d.count := by rw [h.1]
theorem Consumed.prev_eq (h : Consumed d d' n) : d'.prev = d.prev := by rw [h.1]
theorem Consumed.win_eq (h : Consumed d d' n) : d'.win = d.win := by rw [h.1]
theorem Consumed.m_eq (h : Consumed d d' n) : d'.m = d.m := by rw [h.1]
theorem Consumed.cur_eq (h : Consumed d d' n) : d'.cur = d.cur := by rw [h.1]
theorem Consumed.tag_eq (h : Consumed d d' n) : d'.tag = d.tag := by rw [h.1]
theorem Consumed.expect_eq (h : Consumed d d' n) : d'.expect = d.expect := by rw [h.1]
theorem Consumed.expectEn_eq (h : Consumed d d' n) : d'.expectEn = d.expectEn := by rw [h.1]
theorem Consumed.srcLen_eq (h : Consumed d d' n) : d'.srcLen = d.srcLen := by rw [h.1]
theorem Consumed.ibuf_eq (h : Consumed d d' n) : d'.ibuf = d.ibuf := by rw [h.1]
theorem Consumed.epoch_eq (h : Consumed d d' n) : d'.epoch = d.epoch := by rw [h.1]

/-- The unread part, the position and the bounds of a channel are those of its source registers, `IBUF` and epoch. -/
theorem unreadBits_congr (h1 : d'.srcLen = d.srcLen) (h2 : d'.srcCursor = d.srcCursor) (h3 : d'.srcValid = d.srcValid)
    (h4 : d'.srcCache = d.srcCache) (h5 : d'.ibuf = d.ibuf) (h6 : d'.epoch = d.epoch) : unreadBits d' = unreadBits d := by
  unfold unreadBits ibufByte
  rw [h1, h2, h3, h4, h5, h6]

theorem sourceOk_congr {c : Cfg} (h1 : d'.srcLen = d.srcLen) (h2 : d'.srcCursor = d.srcCursor)
    (h3 : d'.srcValid = d.srcValid) (h4 : d'.srcCache = d.srcCache) (h5 : d'.ibuf = d.ibuf) :
    sourceOk c d' = sourceOk c d := by
  unfold sourceOk
  rw [h1, h2, h3, h4, h5]

end Consumed

/-- Everything `readBits` can do on a channel that meets the invariant (R145, R146, R149). -/
theorem readBits_cases {c : Cfg} {d : DecChannel} {n : Nat} (h64 : n ≤ 64) (hd : sourceOk c d = true) :
    ((unreadBits d).length < n ∧ readBits n d = none) ∨
      ∃ d', n ≤ (unreadBits d).length ∧ readBits n d = some (fieldValue ((unreadBits d).take n), d') ∧
        Consumed d d' n ∧ sourceOk c d' = true := by
  obtain ⟨h1, h2⟩ := sourceOk_bounds hd
  by_cases h : (unreadBits d).length < n
  · exact .inl ⟨h, readBits_none_iff.2 h⟩
  · obtain ⟨d', h3, h4, -⟩ := readBits_spec h64 h1 h2 (by omega)
    exact .inr ⟨d', by omega, h3, h4, sourceOk_readBits hd h3⟩

/-- A read neither reads nor changes `DEC_STATE`. -/
theorem readBits_state {n : Nat} {d : DecChannel} (st : DecState) :
    readBits n { d with state := st } = (readBits n d).map fun r => (r.1, { r.2 with state := st }) := by
  have hl : ∀ fuel rem acc (d : DecChannel), readLoop fuel rem acc { d with state := st } =
      ((readLoop fuel rem acc d).1, { (readLoop fuel rem acc d).2 with state := st }) := by
    intro fuel
    induction fuel with
    | zero => intros; rfl
    | succ f ih =>
      intro rem acc d
      unfold readLoop
      split
      · rfl
      · have e1 : refillIfEmpty { d with state := st } = { refillIfEmpty d with state := st } := by
          unfold refillIfEmpty
          simp only
          split <;> rfl
        simp only [e1]
        have e2 : ∀ k (d : DecChannel), takeBits k { d with state := st } =
            ((takeBits k d).1, { (takeBits k d).2 with state := st }) := fun _ _ => rfl
        simp only [e2]
        exact ih _ _ _
  unfold readBits
  have : avail { d with state := st } = avail d := rfl
  rw [this]
  split
  · rfl
  · simp [hl]

end Sys2Proof.Machine
end

