-- ==== Sys2Proof/Laws/Decoder.lean ====
section
/-! SUPPORT. What one transition of the decoder can do, and that the fuel of the loops of R201 and R202 is enough. -/

namespace Sys2Proof.Machine

/-- How many transitions a running state is at most from a sample, an error or the end (R201). -/
def DecState.rank : DecState → Nat
  | .readingControlA => 5
  | .readingControlB => 4
  | .reuseWindow => 3
  | .newWindow => 3
  | .readingMeaningfulBits => 2
  | .checkSentinel => 1
  | .repeating => 1
  | .awaitingFirst => 1
  | .idle => 0
  | .done => 0
  | .raw => 0

/-- The invariant of the decoder channel without what depends on the state. -/
structure DecFacts (c : Cfg) (d : DecChannel) : Prop where
  source : sourceOk c d = true
  window : windowOk c d.win = true
  m : d.m ≤ 64
  start : d.state = .awaitingFirst → d.count = 0
  counted : d.state.running = true → d.state ≠ .awaitingFirst → 1 ≤ d.count
  bits : d.state = .readingMeaningfulBits → d.win.valid = true ∧ d.m = d.win.width ∧ 1 ≤ d.m
  err : d.err = ErrReg.clear ∨ (d.state = .done ∧
    ((d.err.kind = .unexpectedEof ∧ d.err.cause ≠ .noCause) ∨ (d.err.kind = .invariantViolation ∧ d.err.cause = .noCause)))

theorem decOk_iff (c : Cfg) (d : DecChannel) : decOk c d = true ↔ DecFacts c d := by
  simp only [decOk, decErrOk, Bool.and_eq_true, Bool.or_eq_true, decide_eq_true_eq, bne_iff_ne, beq_iff_eq,
    Bool.not_eq_true', ne_eq]
  constructor
  · rintro ⟨⟨⟨⟨⟨⟨h1, h2⟩, h3⟩, h4⟩, h5⟩, h6⟩, h7⟩
    refine ⟨h1, h2, h3, fun h => ?_, fun h h' => ?_, fun h => ?_, h7⟩
    · exact h4.resolve_left (fun hn => hn h)
    · rcases h5 with (h5 | h5) | h5
      · rw [h] at h5; cases h5
      · exact absurd h5 h'
      · exact h5
    · have := h6.resolve_left (fun hn => hn h)
      exact ⟨this.1.1, this.1.2, this.2⟩
  · rintro ⟨h1, h2, h3, h4, h5, h6, h7⟩
    refine ⟨⟨⟨⟨⟨⟨h1, h2⟩, h3⟩, ?_⟩, ?_⟩, ?_⟩, h7⟩
    · by_cases h : d.state = .awaitingFirst
      · exact .inr (h4 h)
      · exact .inl h
    · by_cases h : d.state = .awaitingFirst
      · exact .inl (.inr h)
      · cases hr : d.state.running
        · exact .inl (.inl rfl)
        · exact .inr (h5 hr h)
    · by_cases h : d.state = .readingMeaningfulBits
      · have := h6 h
        exact .inr ⟨⟨this.1, this.2.1⟩, this.2.2⟩
      · exact .inl h

/-- A channel in a running state has no error latched (R253). -/
theorem DecFacts.noErr {c : Cfg} {d : DecChannel} (h : DecFacts c d) (hr : d.state.running = true) :
    d.err = ErrReg.clear := by
  rcases h.err with h1 | ⟨h1, -⟩
  · exact h1
  · rw [h1] at hr; cases hr

/-- What the source registers and `IBUF` of two channels having in common keeps. -/
structure SameSource (d d' : DecChannel) : Prop where
  len : d'.srcLen = d.srcLen
  cursor : d'.srcCursor = d.srcCursor
  valid : d'.srcValid = d.srcValid
  cache : d'.srcCache = d.srcCache
  ibuf : d'.ibuf = d.ibuf
  epoch : d'.epoch = d.epoch

theorem SameSource.sourceOk {c : Cfg} {d d' : DecChannel} (h : SameSource d d') (hd : sourceOk c d = true) :
    Machine.sourceOk c d' = true := by
  rw [sourceOk_congr h.len h.cursor h.valid h.cache h.ibuf]; exact hd

theorem SameSource.unread {d d' : DecChannel} (h : SameSource d d') : unreadBits d' = unreadBits d :=
  unreadBits_congr h.len h.cursor h.valid h.cache h.ibuf h.epoch

theorem SameSource.mirrors {d d' : DecChannel} (h : SameSource d d') (hd : CacheMirrors d) : CacheMirrors d' := by
  have hb : ibufByte d' = ibufByte d := by funext a; simp only [ibufByte, h.ibuf, h.epoch]
  have hr : srcRpos d' = srcRpos d := by simp only [srcRpos, h.cursor, h.valid]
  intro i hi
  rw [hb, hr, h.cache, h.valid]
  exact hd i (by rw [← h.valid]; exact hi)

/-- What a read leaves in the source registers depends on the source alone. -/
theorem ReadLazily.congr {d d' e e' : DecChannel} {n : Nat} (h : ReadLazily d d' n) (hd : SameSource d e)
    (hd' : SameSource d' e') : ReadLazily e e' n := by
  obtain ⟨h1, h2, h3⟩ := h
  refine ⟨?_, ?_, ?_⟩
  · rw [hd'.cursor, h1, cursorAfter, cursorAfter, hd.valid, hd.cursor, hd.len]
  · rw [hd'.valid, hd'.cursor, hd.valid, hd.cursor, h2]
  · rw [hd'.cache, hd'.valid, hd.unread, hd.cache, h3]

/-- Between `d` and `d'` the source has consumed `k` stream bits and kept its invariant (R145, R149). -/
structure Took (c : Cfg) (d d' : DecChannel) (k : Nat) : Prop where
  source : sourceOk c d' = true
  mirrors : CacheMirrors d → CacheMirrors d'
  le : k ≤ (unreadBits d).length
  unread : unreadBits d' = (unreadBits d).drop k
  rpos : srcRpos d' = srcRpos d + k
  len : d'.srcLen = d.srcLen
  ibuf : d'.ibuf = d.ibuf
  epoch : d'.epoch = d.epoch

theorem Took.congr {c : Cfg} {d d' d'' : DecChannel} {k : Nat} (h : Took c d d' k) (h' : SameSource d' d'') :
    Took c d d'' k where
  source := h'.sourceOk h.source
  mirrors := fun hm => h'.mirrors (h.mirrors hm)
  le := h.le
  unread := h'.unread.trans h.unread
  rpos := by rw [← h.rpos]; simp only [srcRpos, h'.cursor, h'.valid]
  len := h'.len.trans h.len
  ibuf := h'.ibuf.trans h.ibuf
  epoch := h'.epoch.trans h.epoch

/-- No bit read. -/
theorem Took.nothing {c : Cfg} {d : DecChannel} (hd : sourceOk c d = true) : Took c d d 0 :=
  ⟨hd, id, Nat.zero_le _, by simp, rfl, rfl, rfl, rfl⟩

/-- One `readBits` (R145). -/
theorem Took.read {c : Cfg} {d d' : DecChannel} {n : Nat} {v : Sample} (hd : sourceOk c d = true) (hn : n ≤ 64)
    (h : readBits n d = some (v, d')) : Took c d d' n where
  source := sourceOk_readBits hd h
  mirrors := fun hm => cacheMirrors_readBits hd hm h
  le := (readBits_some hn (sourceOk_bounds hd).1 (sourceOk_bounds hd).2 h).1
  unread := (readBits_some hn (sourceOk_bounds hd).1 (sourceOk_bounds hd).2 h).2.2.1.2.1
  rpos := (readBits_some hn (sourceOk_bounds hd).1 (sourceOk_bounds hd).2 h).2.2.1.2.2.1
  len := (readBits_some hn (sourceOk_bounds hd).1 (sourceOk_bounds hd).2 h).2.2.1.srcLen_eq
  ibuf := (readBits_some hn (sourceOk_bounds hd).1 (sourceOk_bounds hd).2 h).2.2.1.ibuf_eq
  epoch := (readBits_some hn (sourceOk_bounds hd).1 (sourceOk_bounds hd).2 h).2.2.1.epoch_eq

theorem Took.trans {c : Cfg} {d d' d'' : DecChannel} {j k : Nat} (h : Took c d d' j) (h' : Took c d' d'' k) :
    Took c d d'' (j + k) where
  source := h'.source
  mirrors := fun hm => h'.mirrors (h.mirrors hm)
  le := by
    have h1 := h'.le
    rw [h.unread, List.length_drop] at h1
    have := h.le
    omega
  unread := by rw [h'.unread, h.unread, List.drop_drop]
  rpos := by rw [h'.rpos, h.rpos, Nat.add_assoc]
  len := h'.len.trans h.len
  ibuf := h'.ibuf.trans h.ibuf
  epoch := h'.epoch.trans h.epoch

/-- Everything `readBits` leaves alone. -/
theorem readBits_frame {c : Cfg} {d d' : DecChannel} {n : Nat} {v : Sample} (hd : sourceOk c d = true) (hn : n ≤ 64)
    (h : readBits n d = some (v, d')) : Consumed d d' n :=
  (readBits_some hn (sourceOk_bounds hd).1 (sourceOk_bounds hd).2 h).2.2.1

/-- What one rule of the decoder's state machine answers (R191 to R199). -/
structure Stepped (c : Cfg) (d : DecChannel) (r : DecChannel × StepAnswer) : Prop where
  /-- the new channel meets the invariant -/
  facts : DecFacts c r.1
  /-- the source was only read, and behind `READING_CONTROL_A` something was -/
  took : ∃ k, Took c d r.1 k ∧ (d.state = .readingControlA → (∀ kind cause, r.2 ≠ .err kind cause) → 1 ≤ k)
  /-- a sample is emitted between two codewords; an error is latched; without either the decode is over or one
  transition nearer to it -/
  answer : (∃ v, r.2 = .sample v ∧ r.1.state = .readingControlA ∧ r.1.prev = v ∧ r.1.count = d.count + 1) ∨
    (∃ kind cause, r.2 = .err kind cause ∧ r.1.state = .done ∧ r.1.err = ⟨kind, cause⟩) ∨
    (r.2 = .noSample ∧ r.1.state = .done ∧ r.1.err = ErrReg.clear ∧ r.1.count = d.count) ∨
    (r.2 = .noSample ∧ r.1.state.running = true ∧ r.1.state.rank < d.state.rank ∧ r.1.count = d.count)
  /-- the Window changes in `NEW_WINDOW` only (R205 (d), R238) -/
  window : d.state ≠ .newWindow → r.1.win = d.win
  /-- what no transition changes -/
  kept : r.1.expect = d.expect ∧ r.1.expectEn = d.expectEn
  /-- the error kinds: `InvariantViolation` only by the expected-count check (R203) -/
  kinds : ∀ kind cause, r.2 = .err kind cause → kind = .unexpectedEof ∨
    (kind = .invariantViolation ∧ d.expectEn = true)

/-- An error raised while the source has only been read (R253). -/
theorem Stepped.raise {c : Cfg} {d d' : DecChannel} {k : Nat} {kind : ErrKind} {cause : Cause} (hd : DecFacts c d)
    (hr : Took c d d' k) (hw : d'.win = d.win) (hm : d'.m = d.m) (hk : d'.expect = d.expect ∧ d'.expectEn = d.expectEn)
    (hkind : (kind = .unexpectedEof ∧ cause ≠ .noCause) ∨
      (kind = .invariantViolation ∧ cause = .noCause ∧ d.expectEn = true)) :
    Stepped c d (raiseDec kind cause d') where
  facts := {
    source := SameSource.sourceOk (d := d') ⟨rfl, rfl, rfl, rfl, rfl, rfl⟩ hr.source
    window := by simp only [raiseDec_win, hw]; exact hd.window
    m := by simp only [raiseDec_m, hm]; exact hd.m
    start := by simp
    counted := by simp [DecState.running]
    bits := by simp
    err := by
      refine .inr ⟨rfl, ?_⟩
      rcases hkind with ⟨h1, h2⟩ | ⟨h1, h2, -⟩
      · exact .inl ⟨h1, h2⟩
      · exact .inr ⟨h1, h2⟩ }
  took := ⟨k, hr.congr ⟨rfl, rfl, rfl, rfl, rfl, rfl⟩, fun _ h => absurd rfl (h kind cause)⟩
  answer := .inr (.inl ⟨kind, cause, rfl, rfl, rfl⟩)
  window := fun _ => hw
  kept := hk
  kinds := by
    intro kind' cause' h
    cases h
    rcases hkind with ⟨h1, -⟩ | ⟨h1, -, h2⟩
    · exact .inl h1
    · exact .inr ⟨h1, h2⟩

/-- The end of a decode that succeeds, or the expected-count check (R192, R199). -/
theorem finishDecode_stepped {c : Cfg} {d : DecChannel} {n : Nat} (hd : DecFacts c d) (hr : d.state.running = true)
    (hs : d.state ≠ .readingControlA) : Stepped c d (finishDecode n d) := by
  unfold finishDecode
  split
  · rename_i h
    have he : d.expectEn = true := by simp [countDisagrees] at h; exact h.1
    exact .raise hd (.nothing hd.source) rfl rfl ⟨rfl, rfl⟩ (.inr ⟨rfl, rfl, he⟩)
  · exact {
      facts := ⟨hd.source, hd.window, hd.m, by simp, by simp [DecState.running], by simp, .inl (hd.noErr hr)⟩
      took := ⟨0, (Took.nothing hd.source).congr ⟨rfl, rfl, rfl, rfl, rfl, rfl⟩, fun h => absurd h hs⟩
      answer := .inr (.inr (.inl ⟨rfl, rfl, hd.noErr hr, rfl⟩))
      window := fun _ => rfl
      kept := ⟨rfl, rfl⟩
      kinds := by simp }

/-- A transition that reads one field and then changes registers of the decoder, to the next running state. -/
theorem Stepped.advance {c : Cfg} {d d' d'' : DecChannel} {k : Nat} (hd : DecFacts c d) (hr : d.state.running = true)
    (ht : Took c d d' k) (hc : Consumed d d' k)
    (hs : SameSource d' d'') (hsame : d''.expect = d'.expect ∧ d''.expectEn = d'.expectEn ∧ d''.count = d'.count ∧
      d''.err = d'.err)
    (hstate : d.state ≠ .awaitingFirst ∧ d''.state ≠ .awaitingFirst) (hrun : d''.state.running = true)
    (hrank : d''.state.rank < d.state.rank) (hk : d.state = .readingControlA → 1 ≤ k)
    (hwin : windowOk c d''.win = true) (hm : d''.m ≤ 64)
    (hbits : d''.state = .readingMeaningfulBits → d''.win.valid = true ∧ d''.m = d''.win.width ∧ 1 ≤ d''.m)
    (hw : d.state ≠ .newWindow → d''.win = d'.win) : Stepped c d (d'', .noSample) where
  facts := {
    source := hs.sourceOk ht.source
    window := hwin
    m := hm
    start := fun h => absurd h hstate.2
    counted := fun _ _ => by
      show 1 ≤ d''.count
      rw [hsame.2.2.1, hc.count_eq]; exact hd.counted hr hstate.1
    bits := hbits
    err := .inl (by
      show d''.err = _
      rw [hsame.2.2.2, hc.err_eq]; exact hd.noErr hr) }
  took := ⟨k, ht.congr hs, fun h _ => hk h⟩
  answer := .inr (.inr (.inr ⟨rfl, hrun, hrank, by
    show d''.count = _
    rw [hsame.2.2.1, hc.count_eq]⟩))
  window := fun h => (hw h).trans hc.win_eq
  kept := ⟨hsame.1.trans hc.expect_eq, hsame.2.1.trans hc.expectEn_eq⟩
  kinds := by simp

/-- A transition that emits a sample. -/
theorem Stepped.emit {c : Cfg} {d d' d'' : DecChannel} {k : Nat} {v : Sample} (hd : DecFacts c d)
    (hr : d.state.running = true) (ht : Took c d d' k) (hs : SameSource d' d'')
    (hsame : d''.expect = d.expect ∧ d''.expectEn = d.expectEn ∧ d''.err = d.err ∧ d''.win = d.win ∧ d''.m = d.m)
    (hstate : d''.state = .readingControlA) (hprev : d''.prev = v) (hcount : d''.count = d.count + 1)
    (hk : d.state = .readingControlA → 1 ≤ k) : Stepped c d (d'', .sample v) where
  facts := {
    source := hs.sourceOk ht.source
    window := by rw [hsame.2.2.2.1]; exact hd.window
    m := by rw [hsame.2.2.2.2]; exact hd.m
    start := fun h => by rw [hstate] at h; cases h
    counted := fun _ _ => by rw [hcount]; omega
    bits := fun h => by rw [hstate] at h; cases h
    err := .inl (by rw [hsame.2.2.1]; exact hd.noErr hr) }
  took := ⟨k, ht.congr hs, fun h _ => hk h⟩
  answer := .inl ⟨v, rfl, hstate, hprev, hcount⟩
  window := fun _ => hsame.2.2.2.1
  kept := ⟨hsame.1, hsame.2.1⟩
  kinds := by simp

theorem leadW_bits_le (c : Cfg) : c.leadW.bits ≤ 6 := by cases c.leadW <;> simp [LeadWidth.bits]

/-- A `LEAD` field is at most `LEAD_MAX` (R5, R97). -/
theorem fieldValue_le_leadMax {c : Cfg} {bs : List Bool} (h : bs.length ≤ c.leadW.bits) :
    (fieldValue bs).toNat ≤ c.leadMax := by
  have h1 := fieldValue_toNat_lt bs
  have h2 : 2 ^ bs.length ≤ 2 ^ c.leadW.bits := Nat.pow_le_pow_right (by omega) h
  unfold Cfg.leadMax
  omega

theorem windowOk_width {c : Cfg} {w : Window} (h : windowOk c w = true) (hv : w.valid = true) :
    1 ≤ w.width ∧ w.width ≤ 64 := by
  simp only [windowOk, hv, if_true, Bool.and_eq_true, decide_eq_true_eq] at h
  unfold Window.width
  omega

/-- Everything the header of a `NEW` can do (R197). -/
theorem acceptHeader_stepped {c : Cfg} {d d' : DecChannel} {k lead len : Nat} (hd : DecFacts c d)
    (hst : d.state = .newWindow) (ht : Took c d d' k) (hc : Consumed d d' k) (hl : lead ≤ c.leadMax) :
    Stepped c d (acceptHeader lead len d') := by
  have hr : d.state.running = true := by rw [hst]; rfl
  unfold acceptHeader
  simp only
  split
  · exact .raise hd ht hc.win_eq hc.m_eq ⟨hc.expect_eq, hc.expectEn_eq⟩ (.inl ⟨rfl, by simp⟩)
  · refine Stepped.advance hd hr ht hc ⟨rfl, rfl, rfl, rfl, rfl, rfl⟩ ⟨rfl, rfl, rfl, rfl⟩ ⟨by simp [hst], by simp⟩ rfl
      (by simp [hst, DecState.rank]) (by simp [hst]) ?_ (by simp; omega) (fun _ => ⟨rfl, ?_, ?_⟩) (fun h => absurd hst h)
    · simp only [windowOk, if_true, Bool.and_eq_true, decide_eq_true_eq]
      omega
    · simp only [Window.width]; omega
    · simp

/-- EVERY rule of the decoder, in every running state of a channel that meets the invariant (R191 to R199). -/
theorem decStepRule_stepped {c : Cfg} {d : DecChannel} (hd : DecFacts c d) (hr : d.state.running = true) :
    Stepped c d (decStepRule c d) := by
  unfold decStepRule
  split
  · rename_i h; rw [h] at hr; cases hr
  · -- AWAITING_FIRST
    rename_i hst
    unfold ruleAwaitingFirst
    split
    · exact finishDecode_stepped hd hr (by simp [hst])
    · have key : (readTag c d = none) ∨ ∃ d1 k, readTag c d = some d1 ∧ Took c d d1 k ∧ d1.win = d.win ∧ d1.m = d.m ∧
          d1.expect = d.expect ∧ d1.expectEn = d.expectEn ∧ d1.err = d.err := by
        unfold readTag
        split
        · rcases readBits_cases (n := 8) (by omega) hd.source with ⟨-, h⟩ | ⟨d', -, h, hc, -⟩
          · exact .inl (by simp [h])
          · refine .inr ⟨acceptTag _ d', 8, by simp only [h, Option.map_some]; rfl,
              (Took.read hd.source (by omega) h).congr ⟨rfl, rfl, rfl, rfl, rfl, rfl⟩, ?_⟩
            exact ⟨hc.win_eq, hc.m_eq, hc.expect_eq, hc.expectEn_eq, hc.err_eq⟩
        · exact .inr ⟨d, 0, rfl, .nothing hd.source, rfl, rfl, rfl, rfl, rfl⟩
      rcases key with h | ⟨d1, k, h, ht, h1, h2, h3, h4, h5⟩
      · rw [h]
        exact .raise hd (.nothing hd.source) rfl rfl ⟨rfl, rfl⟩ (.inl ⟨rfl, by simp⟩)
      · rw [h]
        simp only
        rcases readBits_cases (n := 64) (by omega) ht.source with ⟨-, h⟩ | ⟨d', -, h, hc, -⟩
        · rw [h]
          exact .raise hd ht h1 h2 ⟨h3, h4⟩ (.inl ⟨rfl, by simp⟩)
        · rw [h]
          refine Stepped.emit hd hr (ht.trans (Took.read ht.source (by omega) h)) ⟨rfl, rfl, rfl, rfl, rfl, rfl⟩
            ⟨?_, ?_, ?_, ?_, ?_⟩ rfl rfl ?_ (by simp [hst])
          · exact hc.expect_eq.trans h3
          · exact hc.expectEn_eq.trans h4
          · exact hc.err_eq.trans h5
          · exact hc.win_eq.trans h1
          · exact hc.m_eq.trans h2
          · rw [hd.start hst]
  · -- READING_CONTROL_A
    rename_i hst
    unfold ruleControlA
    rcases readBits_cases (n := 1) (by omega) hd.source with ⟨-, h⟩ | ⟨d', -, h, hc, -⟩
    · rw [h]
      exact .raise hd (.nothing hd.source) rfl rfl ⟨rfl, rfl⟩ (.inl ⟨rfl, by simp⟩)
    · rw [h]
      refine Stepped.advance hd hr (Took.read hd.source (by omega) h) hc ⟨rfl, rfl, rfl, rfl, rfl, rfl⟩
        ⟨rfl, rfl, rfl, rfl⟩ ⟨by simp [hst], ?_⟩ ?_ ?_ (fun _ => le_refl 1) ?_ ?_ ?_ (fun _ => rfl)
      · split <;> simp
      · simp only; split <;> rfl
      · simp only [hst]; split <;> simp [DecState.rank]
      · simp only [hc.win_eq]; exact hd.window
      · simp only [hc.m_eq]; exact hd.m
      · simp only; split <;> simp
  · -- REPEAT
    rename_i hst
    exact Stepped.emit hd hr (.nothing hd.source) ⟨rfl, rfl, rfl, rfl, rfl, rfl⟩ ⟨rfl, rfl, rfl, rfl, rfl⟩ rfl rfl rfl
      (by simp [hst])
  · -- READING_CONTROL_B
    rename_i hst
    unfold ruleControlB
    rcases readBits_cases (n := 1) (by omega) hd.source with ⟨-, h⟩ | ⟨d', -, h, hc, -⟩
    · rw [h]
      exact .raise hd (.nothing hd.source) rfl rfl ⟨rfl, rfl⟩ (.inl ⟨rfl, by simp⟩)
    · rw [h]
      refine Stepped.advance hd hr (Took.read hd.source (by omega) h) hc ⟨rfl, rfl, rfl, rfl, rfl, rfl⟩
        ⟨rfl, rfl, rfl, rfl⟩ ⟨by simp [hst], ?_⟩ ?_ ?_ (by simp [hst]) ?_ ?_ ?_ (fun _ => rfl)
      · split <;> simp
      · simp only; split <;> rfl
      · simp only [hst]; split <;> simp [DecState.rank]
      · simp only [hc.win_eq]; exact hd.window
      · simp only [hc.m_eq]; exact hd.m
      · simp only; split <;> simp
  · -- REUSE_WINDOW
    rename_i hst
    unfold ruleReuseWindow
    split
    · rename_i hv
      obtain ⟨h1, h2⟩ := windowOk_width hd.window hv
      exact Stepped.advance hd hr (.nothing hd.source) (.refl d) ⟨rfl, rfl, rfl, rfl, rfl, rfl⟩ ⟨rfl, rfl, rfl, rfl⟩
        ⟨by simp [hst], by simp⟩ rfl (by simp [hst, DecState.rank]) (by simp [hst]) hd.window h2
        (fun _ => ⟨hv, rfl, h1⟩) (fun _ => rfl)
    · exact .raise hd (.nothing hd.source) rfl rfl ⟨rfl, rfl⟩ (.inl ⟨rfl, by simp⟩)
  · -- NEW_WINDOW
    rename_i hst
    unfold ruleNewWindow
    have hb := leadW_bits_le c
    rcases readBits_cases (n := c.leadW.bits) (by omega) hd.source with ⟨-, h⟩ | ⟨d1, -, h, hc, hs⟩
    · rw [h]
      exact .raise hd (.nothing hd.source) rfl rfl ⟨rfl, rfl⟩ (.inl ⟨rfl, by simp⟩)
    · rw [h]
      simp only
      have ht := Took.read hd.source (by omega) h
      rcases readBits_cases (n := 6) (by omega) hs with ⟨-, h'⟩ | ⟨d2, -, h', hc', -⟩
      · rw [h']
        exact .raise hd ht hc.win_eq hc.m_eq ⟨hc.expect_eq, hc.expectEn_eq⟩ (.inl ⟨rfl, by simp⟩)
      · rw [h']
        exact acceptHeader_stepped hd hst (ht.trans (Took.read hs (by omega) h')) (hc.trans hc')
          (fieldValue_le_leadMax (List.length_take_le _ _))
  · -- READING_MEANINGFUL_BITS
    rename_i hst
    unfold ruleMeaningfulBits
    rcases readBits_cases (n := d.m) hd.m hd.source with ⟨-, h⟩ | ⟨d', -, h, hc, -⟩
    · rw [h]
      exact .raise hd (.nothing hd.source) rfl rfl ⟨rfl, rfl⟩ (.inl ⟨rfl, by simp⟩)
    · rw [h]
      exact Stepped.advance hd hr (Took.read hd.source hd.m h) hc ⟨rfl, rfl, rfl, rfl, rfl, rfl⟩
        ⟨rfl, rfl, rfl, rfl⟩ ⟨by simp [hst], by simp⟩ rfl (by simp [hst, DecState.rank]) (by simp [hst])
        (by simp only [hc.win_eq]; exact hd.window) (by simp only [hc.m_eq]; exact hd.m) (by simp) (fun _ => rfl)
  · -- CHECK_SENTINEL
    rename_i hst
    unfold ruleCheckSentinel
    split
    · exact finishDecode_stepped hd hr (by simp [hst])
    · exact Stepped.emit hd hr (.nothing hd.source) ⟨rfl, rfl, rfl, rfl, rfl, rfl⟩ ⟨rfl, rfl, rfl, rfl, rfl⟩ rfl rfl rfl
        (by simp [hst])
  · rename_i h; rw [h] at hr; cases hr
  · rename_i h; rw [h] at hr; cases hr

/-! ### The loops of R201 and R202 -/

theorem DecState.rank_pos {x : DecState} (h : x.running = true) : 0 < x.rank := by
  cases x <;> simp [DecState.running, DecState.rank] at *

theorem DecState.rank_le (x : DecState) : x.rank ≤ 5 := by cases x <;> simp [DecState.rank]

/-- What `DEC_NEXT` answers from a running state (R201): always a sample, an error or the end. -/
structure Advanced (c : Cfg) (d : DecChannel) (r : DecChannel × StepAnswer) : Prop where
  facts : DecFacts c r.1
  took : ∃ k, Took c d r.1 k ∧ (d.state = .readingControlA → (∀ kind cause, r.2 ≠ .err kind cause) → 1 ≤ k)
  answer : (∃ v, r.2 = .sample v ∧ r.1.state = .readingControlA ∧ r.1.prev = v ∧ r.1.count = d.count + 1) ∨
    (∃ kind cause, r.2 = .err kind cause ∧ r.1.state = .done ∧ r.1.err = ⟨kind, cause⟩) ∨
    (r.2 = .noSample ∧ r.1.state = .done ∧ r.1.err = ErrReg.clear ∧ r.1.count = d.count)
  kept : r.1.expect = d.expect ∧ r.1.expectEn = d.expectEn
  kinds : ∀ kind cause, r.2 = .err kind cause → kind = .unexpectedEof ∨
    (kind = .invariantViolation ∧ d.expectEn = true)

/-- The loop of R201 comes to an answer within the rank of the state. -/
theorem nextLoop_advanced {c : Cfg} {fuel : Nat} {d : DecChannel} (hd : DecFacts c d) (hr : d.state.running = true)
    (hf : d.state.rank ≤ fuel) : Advanced c d (nextLoop c fuel d) := by
  induction fuel generalizing d with
  | zero => have := DecState.rank_pos hr; omega
  | succ fuel ih =>
    have hs := decStepRule_stepped hd hr
    simp only [nextLoop]
    split
    · rename_i h
      rcases hs.answer with ⟨v, h1, -⟩ | ⟨k, ca, h1, -⟩ | ⟨-, h1, -⟩ | ⟨-, h1, h2, h3⟩
      · rw [h.1] at h1; cases h1
      · rw [h.1] at h1; cases h1
      · exact absurd h1 h.2
      · have hn := ih hs.facts h1 (by omega)
        obtain ⟨k, hk, hk1⟩ := hs.took
        obtain ⟨j, hj, -⟩ := hn.took
        refine ⟨hn.facts, ⟨k + j, hk.trans hj, fun hst hne => ?_⟩, ?_, ?_, ?_⟩
        · have := hk1 hst (by rw [h.1]; simp)
          omega
        · simpa only [h3] using hn.answer
        · exact ⟨hn.kept.1.trans hs.kept.1, hn.kept.2.trans hs.kept.2⟩
        · simpa only [hs.kept.2] using hn.kinds
    · rename_i h
      refine ⟨hs.facts, hs.took, ?_, hs.kept, hs.kinds⟩
      rcases hs.answer with h1 | h1 | h1 | ⟨h1, h2, -⟩
      · exact .inl h1
      · exact .inr (.inl h1)
      · exact .inr (.inr h1)
      · have hdone : (decStepRule c d).1.state = .done := by
          by_contra hn
          exact h ⟨h1, hn⟩
        rw [hdone] at h2
        cases h2

/-- `DEC_NEXT` from every running state of a channel that meets the invariant (R201). -/
theorem nextRule_advanced {c : Cfg} {d : DecChannel} (hd : DecFacts c d) (hr : d.state.running = true) :
    Advanced c d (nextRule c d) := nextLoop_advanced hd hr (DecState.rank_le _)

/-- One turn more than enough changes nothing. -/
theorem nextLoop_succ {c : Cfg} {fuel : Nat} {d : DecChannel} (hd : DecFacts c d) (hr : d.state.running = true)
    (hf : d.state.rank ≤ fuel) : nextLoop c (fuel + 1) d = nextLoop c fuel d := by
  induction fuel generalizing d with
  | zero => have := DecState.rank_pos hr; omega
  | succ fuel ih =>
    conv_lhs => rw [nextLoop]
    conv_rhs => rw [nextLoop]
    split
    · rename_i h
      have hs := decStepRule_stepped hd hr
      rcases hs.answer with ⟨v, h1, -⟩ | ⟨k, ca, h1, -⟩ | ⟨-, h1, -⟩ | ⟨-, h1, h2, -⟩
      · rw [h.1] at h1; cases h1
      · rw [h.1] at h1; cases h1
      · exact absurd h1 h.2
      · exact ih hs.facts h1 (by omega)
    · rfl

/-- `DEC_NEXT` as one transition and the rest (R201). -/
theorem nextRule_unfold {c : Cfg} {d : DecChannel} (hd : DecFacts c d) (hr : d.state.running = true) :
    nextRule c d = if (decStepRule c d).2 = .noSample ∧ (decStepRule c d).1.state ≠ .done
      then nextRule c (decStepRule c d).1 else decStepRule c d := by
  have h : nextRule c d = nextLoop c 6 d := (nextLoop_succ hd hr (DecState.rank_le _)).symm
  rw [h, nextLoop]
  rfl

/-- The turns `DEC_RUN` can need (R202): every `DEC_NEXT` between two codewords consumes a bit. -/
def runBound (d : DecChannel) : Nat := avail d + (if d.state = .readingControlA then 1 else 2)

theorem runBound_sample {c : Cfg} {d d' : DecChannel} {v : Sample} (hd : DecFacts c d) (hr : d.state.running = true)
    (h : nextRule c d = (d', .sample v)) :
    DecFacts c d' ∧ d'.state = .readingControlA ∧ runBound d' < runBound d := by
  have ha := nextRule_advanced hd hr
  rw [h] at ha
  obtain ⟨k, hk, hk1⟩ := ha.took
  have hst : d'.state = .readingControlA := by
    rcases ha.answer with ⟨_, -, h1, -⟩ | ⟨_, _, h1, -⟩ | ⟨h1, -⟩
    · exact h1
    · cases h1
    · cases h1
  refine ⟨ha.facts, hst, ?_⟩
  have h1 := hk.le
  have h2 : avail d' = avail d - k := by
    rw [← unreadBits_length, hk.unread, List.length_drop, unreadBits_length]
  rw [unreadBits_length] at h1
  unfold runBound
  rw [if_pos hst]
  split
  · have := hk1 ‹_› (by simp)
    omega
  · omega

/-- Fuel beyond the bound changes nothing. -/
theorem runLoop_fuel {c : Cfg} {f g : Nat} {out : List Sample} {d : DecChannel} (hd : DecFacts c d)
    (hr : d.state.running = true) (hf : runBound d ≤ f) (hg : runBound d ≤ g) :
    runLoop c f out d = runLoop c g out d := by
  induction f generalizing g out d with
  | zero => unfold runBound at hf; split at hf <;> omega
  | succ f ih =>
    cases g with
    | zero => unfold runBound at hg; split at hg <;> omega
    | succ g =>
      rw [runLoop, runLoop]
      rcases hn : nextRule c d with ⟨d', a⟩
      cases a with
      | sample v =>
        obtain ⟨h1, h2, h3⟩ := runBound_sample hd hr hn
        exact ih h1 (by rw [h2]; rfl) (by omega) (by omega)
      | noSample => rfl
      | err kind cause => rfl

/-- The samples already collected are put in front of those still to come. -/
theorem runLoop_out {c : Cfg} {f : Nat} {out : List Sample} {d : DecChannel} :
    runLoop c f out d =
      match runLoop c f [] d with
      | (d', .ok (.samples vs)) => (d', .ok (.samples (out ++ vs)))
      | r => r := by
  induction f generalizing out d with
  | zero => simp [runLoop]
  | succ f ih =>
    rw [runLoop, runLoop]
    rcases hn : nextRule c d with ⟨d', a⟩
    cases a with
    | sample v =>
      simp only
      rw [ih, ih (out := [] ++ [v])]
      rcases runLoop c f [] d' with ⟨d'', r⟩
      cases r with
      | ok o => cases o <;> simp
      | err k ca => rfl
      | refused => rfl
    | noSample => simp
    | err kind cause => rfl

/-- `DEC_RUN` from a running state of a channel that meets the invariant (R202): it ends with the list of samples, or
with an error, latched. -/
theorem runLoop_spec {c : Cfg} {f : Nat} {out : List Sample} {d : DecChannel} (hd : DecFacts c d)
    (hr : d.state.running = true) (hf : runBound d ≤ f) :
    DecFacts c (runLoop c f out d).1 ∧ (∃ k, Took c d (runLoop c f out d).1 k) ∧
      (runLoop c f out d).1.state = .done ∧
      ((runLoop c f out d).1.expect = d.expect ∧ (runLoop c f out d).1.expectEn = d.expectEn) ∧
      ((∃ vs, (runLoop c f out d).2 = .ok (.samples (out ++ vs)) ∧ (runLoop c f out d).1.err = ErrReg.clear ∧
          (runLoop c f out d).1.count = d.count + vs.length) ∨
        ∃ kind cause, (runLoop c f out d).2 = .err kind cause ∧ (runLoop c f out d).1.err = ⟨kind, cause⟩ ∧
          (kind = .unexpectedEof ∨ (kind = .invariantViolation ∧ d.expectEn = true))) := by
  induction f generalizing out d with
  | zero => unfold runBound at hf; split at hf <;> omega
  | succ f ih =>
    rw [runLoop]
    have ha := nextRule_advanced hd hr
    rcases hn : nextRule c d with ⟨d', a⟩
    rw [hn] at ha
    obtain ⟨k, hk, -⟩ := ha.took
    cases a with
    | sample v =>
      obtain ⟨h1, h2, h3⟩ := runBound_sample hd hr hn
      obtain ⟨i1, ⟨j, i2⟩, i3, i4, i5⟩ := ih (out := out ++ [v]) h1 (by rw [h2]; rfl) (by omega)
      refine ⟨i1, ⟨k + j, hk.trans i2⟩, i3, ⟨i4.1.trans ha.kept.1, i4.2.trans ha.kept.2⟩, ?_⟩
      have he : d'.expectEn = d.expectEn := ha.kept.2
      have hc : d'.count = d.count + 1 := by
        rcases ha.answer with ⟨_, -, -, -, h1⟩ | ⟨_, _, h1, -⟩ | ⟨h1, -⟩
        · exact h1
        · cases h1
        · cases h1
      rcases i5 with ⟨vs, j1, j2, j3⟩ | j
      · refine .inl ⟨v :: vs, by rw [j1]; simp, j2, ?_⟩
        rw [j3, hc, List.length_cons]
        omega
      · exact .inr (by simpa only [he] using j)
    | noSample =>
      rcases ha.answer with ⟨_, h1, -⟩ | ⟨_, _, h1, -⟩ | ⟨-, h2, h3, h4⟩
      · cases h1
      · cases h1
      · exact ⟨ha.facts, ⟨k, hk⟩, h2, ha.kept, .inl ⟨[], by simp, h3, by simpa using h4⟩⟩
    | err kind cause =>
      rcases ha.answer with ⟨_, h1, -⟩ | ⟨_, _, h1, h2, h3⟩ | ⟨h1, -⟩
      · cases h1
      · cases h1
        exact ⟨ha.facts, ⟨k, hk⟩, h2, ha.kept, .inr ⟨kind, cause, rfl, h3, ha.kinds _ _ rfl⟩⟩
      · cases h1

end Sys2Proof.Machine
end

