-- ==== Sys2Proof/Laws/Codewords.lean ====
section
/-! SUPPORT. What the decoder's execution of a codeword keeps, whatever the codeword's operands are. -/

namespace Sys2Proof.Machine

/-- The invariant is kept and the source has only been read. -/
structure Kept (c : Cfg) (d d' : DecChannel) : Prop where
  facts : DecFacts c d'
  took : ∃ k, Took c d d' k

theorem Kept.trans {c : Cfg} {d d' d'' : DecChannel} (h : Kept c d d') (h' : Kept c d' d'') : Kept c d d'' := by
  obtain ⟨j, hj⟩ := h.took
  obtain ⟨k, hk⟩ := h'.took
  exact ⟨h'.facts, j + k, hj.trans hk⟩

theorem Stepped.kept' {c : Cfg} {d : DecChannel} {r : DecChannel × StepAnswer} (h : Stepped c d r) : Kept c d r.1 :=
  ⟨h.facts, h.took.imp fun _ hk => hk.1⟩

/-- A read keeps every fact about the channel. -/
theorem DecFacts.read {c : Cfg} {d d' : DecChannel} {n : Nat} (hd : DecFacts c d) (hc : Consumed d d' n)
    (hs : sourceOk c d' = true) : DecFacts c d' where
  source := hs
  window := by rw [hc.win_eq]; exact hd.window
  m := by rw [hc.m_eq]; exact hd.m
  start := by rw [hc.state_eq, hc.count_eq]; exact hd.start
  counted := by rw [hc.state_eq, hc.count_eq]; exact hd.counted
  bits := by rw [hc.state_eq, hc.win_eq, hc.m_eq]; exact hd.bits
  err := by rw [hc.state_eq, hc.err_eq]; exact hd.err

/-- Everything `consume` can do. -/
theorem consume_cases {c : Cfg} {d : DecChannel} {n : Nat} {cause : Cause}
    {next : DecChannel → DecChannel × StepAnswer} (h64 : n ≤ 64) (hd : DecFacts c d) :
    ((unreadBits d).length < n ∧ consume n cause next d = raiseDec .unexpectedEof cause d) ∨
      ∃ d', n ≤ (unreadBits d).length ∧ consume n cause next d = next d' ∧ Consumed d d' n ∧ DecFacts c d' ∧
        Took c d d' n := by
  rcases readBits_cases h64 hd.source with ⟨h1, h2⟩ | ⟨d', h1, h2, h3, h4⟩
  · exact .inl ⟨h1, by simp [consume, h2]⟩
  · exact .inr ⟨d', h1, by simp [consume, h2], h3, hd.read h3 h4, Took.read hd.source h64 h2⟩

theorem raiseDec_kept {c : Cfg} {d : DecChannel} (hd : DecFacts c d) {cause : Cause} (h : cause ≠ .noCause) :
    Kept c d (raiseDec .unexpectedEof cause d).1 :=
  (Stepped.raise hd (.nothing hd.source) rfl rfl ⟨rfl, rfl⟩ (.inl ⟨rfl, h⟩)).kept'

/-- A part of a codeword keeps the invariant where what follows does. -/
theorem consume_kept {c : Cfg} {d : DecChannel} {n : Nat} {cause : Cause} {next : DecChannel → DecChannel × StepAnswer}
    (h64 : n ≤ 64) (hd : DecFacts c d) (hc : cause ≠ .noCause)
    (hn : ∀ d', DecFacts c d' → d'.state = d.state → Kept c d' (next d').1) : Kept c d (consume n cause next d).1 := by
  rcases consume_cases (cause := cause) (next := next) h64 hd with ⟨-, h⟩ | ⟨d', -, h, h1, h2, h3⟩
  · rw [h]; exact raiseDec_kept hd hc
  · rw [h]; exact Kept.trans ⟨h2, n, h3⟩ (hn d' h2 h1.state_eq)

theorem andThen_kept {c : Cfg} {d : DecChannel} {r : DecChannel × StepAnswer}
    {next : DecChannel → DecChannel × StepAnswer} (hr : Kept c d r.1)
    (hn : r.2 = .noSample → Kept c r.1 (next r.1).1) : Kept c d (andThen r next).1 := by
  obtain ⟨d', a⟩ := r
  cases a with
  | noSample => exact hr.trans (hn rfl)
  | sample v => exact hr
  | err kind cause => exact hr

/-- The tag byte latched (R192). -/
theorem stepTag_kept {c : Cfg} {d : DecChannel} (t : Byte) (hd : DecFacts c d) : Kept c d (stepTag t d).1 :=
  consume_kept (by omega) hd (by simp) fun d' h _ =>
    ⟨⟨SameSource.sourceOk (d := d') ⟨rfl, rfl, rfl, rfl, rfl, rfl⟩ h.source, h.window, h.m, h.start, h.counted, h.bits,
      h.err⟩, 0, (Took.nothing h.source).congr ⟨rfl, rfl, rfl, rfl, rfl, rfl⟩⟩

theorem stepFirst_kept {c : Cfg} {d : DecChannel} (v : Sample) (hd : DecFacts c d) (hr : d.state.running = true) :
    Kept c d (stepFirst v d).1 :=
  consume_kept (by omega) hd (by simp) fun d' h hs =>
    ⟨⟨SameSource.sourceOk (d := d') ⟨rfl, rfl, rfl, rfl, rfl, rfl⟩ h.source, h.window, h.m, by simp [acceptFirst],
      fun _ _ => Nat.le_refl 1, by simp [acceptFirst], .inl (h.noErr (by rw [hs]; exact hr))⟩,
      0, (Took.nothing h.source).congr ⟨rfl, rfl, rfl, rfl, rfl, rfl⟩⟩

theorem ruleRepeat_kept {c : Cfg} {d : DecChannel} (hd : DecFacts c d) (hr : d.state.running = true) :
    Kept c d (ruleRepeat d).1 :=
  ⟨⟨SameSource.sourceOk (d := d) ⟨rfl, rfl, rfl, rfl, rfl, rfl⟩ hd.source, hd.window, hd.m, by simp [ruleRepeat],
    fun _ _ => Nat.le_add_left 1 _, by simp [ruleRepeat], .inl (hd.noErr hr)⟩,
    0, (Took.nothing hd.source).congr ⟨rfl, rfl, rfl, rfl, rfl, rfl⟩⟩

theorem stepRepeat_kept {c : Cfg} {d : DecChannel} (hd : DecFacts c d) (hr : d.state.running = true) :
    Kept c d (stepRepeat d).1 :=
  consume_kept (by omega) hd (by simp) fun _ h hs => ruleRepeat_kept h (by rw [hs]; exact hr)

/-- The meaningful bits and the sentinel test, in `READING_MEANINGFUL_BITS`. -/
theorem finishCodeword_kept {c : Cfg} {d : DecChannel} (bits : Sample) (hd : DecFacts c d)
    (hs : d.state = .readingMeaningfulBits) : Kept c d (finishCodeword c bits d).1 := by
  refine consume_kept hd.m hd (by simp) fun d' h hs' => ?_
  have hr : d'.state.running = true := by rw [hs', hs]; rfl
  have h1 : DecFacts c (acceptBits bits d').1 :=
    ⟨SameSource.sourceOk (d := d') ⟨rfl, rfl, rfl, rfl, rfl, rfl⟩ h.source, h.window, h.m, by simp [acceptBits],
      fun _ _ => h.counted hr (by rw [hs', hs]; simp), by simp [acceptBits], .inl (h.noErr hr)⟩
  refine andThen_kept ⟨h1, 0, (Took.nothing h.source).congr ⟨rfl, rfl, rfl, rfl, rfl, rfl⟩⟩ fun _ => ?_
  exact (decStepRule_stepped h1 rfl).kept'

theorem stepReuse_kept {c : Cfg} {d : DecChannel} (bits : Sample) (hd : DecFacts c d) (hs : d.state = .readingControlA) :
    Kept c d (stepReuse c bits d).1 := by
  refine consume_kept (by omega) hd (by simp) fun d1 h1 s1 => ?_
  refine consume_kept (by omega) h1 (by simp) fun d2 h2 s2 => ?_
  have hst : d2.state = .readingControlA := by rw [s2, s1, hs]
  have hr : d2.state.running = true := by rw [hst]; rfl
  unfold ruleReuseWindow
  split
  · rename_i hv
    obtain ⟨w1, w2⟩ := windowOk_width h2.window hv
    have h3 : DecFacts c { d2 with m := d2.win.width, state := .readingMeaningfulBits } :=
      ⟨SameSource.sourceOk (d := d2) ⟨rfl, rfl, rfl, rfl, rfl, rfl⟩ h2.source, h2.window, w2, by simp,
        fun _ _ => h2.counted hr (by rw [hst]; simp), fun _ => ⟨hv, rfl, w1⟩, .inl (h2.noErr hr)⟩
    exact andThen_kept ⟨h3, 0, (Took.nothing h2.source).congr ⟨rfl, rfl, rfl, rfl, rfl, rfl⟩⟩
      fun _ => finishCodeword_kept bits h3 rfl
  · exact andThen_kept (raiseDec_kept h2 (by simp)) (by simp)

theorem stepNew_kept {c : Cfg} {d : DecChannel} {lead len : Nat} (bits : Sample) (hd : DecFacts c d)
    (hs : d.state = .readingControlA) (hl : lead ≤ c.leadMax) : Kept c d (stepNew c lead len bits d).1 := by
  have hb := leadW_bits_le c
  refine consume_kept (by omega) hd (by simp) fun d1 h1 s1 => ?_
  refine consume_kept (by omega) h1 (by simp) fun d2 h2 s2 => ?_
  refine consume_kept (by omega) h2 (by simp) fun d3 h3 s3 => ?_
  refine consume_kept (by omega) h3 (by simp) fun d4 h4 s4 => ?_
  have hst : d4.state = .readingControlA := by rw [s4, s3, s2, s1, hs]
  have hr : d4.state.running = true := by rw [hst]; rfl
  unfold acceptHeader
  simp only
  split
  · exact andThen_kept (raiseDec_kept h4 (by simp)) (by simp)
  · have h5 : DecFacts c { d4 with
        win := ⟨true, lead, 64 - lead - (len + 1)⟩, m := len + 1, state := .readingMeaningfulBits } := by
      refine ⟨SameSource.sourceOk (d := d4) ⟨rfl, rfl, rfl, rfl, rfl, rfl⟩ h4.source, ?_, ?_, by simp,
        fun _ _ => h4.counted hr (by rw [hst]; simp), fun _ => ⟨rfl, ?_, Nat.le_add_left 1 _⟩, .inl (h4.noErr hr)⟩
      · simp only [windowOk, if_true, Bool.and_eq_true, decide_eq_true_eq]
        omega
      · simp only; omega
      · simp only [Window.width]; omega
    exact andThen_kept ⟨h5, 0, (Took.nothing h4.source).congr ⟨rfl, rfl, rfl, rfl, rfl, rfl⟩⟩
      fun _ => finishCodeword_kept bits h5 rfl

end Sys2Proof.Machine
end

