-- ==== Sys2Proof/Laws/Operands.lean ====
section
/-! SUPPORT. What the zero counts of R10 answer, and that the fields of R98 hold the whole delta. -/

namespace Sys2Proof.Machine

/-- A value other than 0 has a bit set. -/
theorem exists_getLsbD_of_ne_zero {x : Sample} (h : x ≠ 0) : ∃ i, i < 64 ∧ x.getLsbD i = true := by
  by_contra hc
  push Not at hc
  apply h
  apply BitVec.eq_of_getLsbD_eq
  intro i hi
  have h1 := hc i hi
  simp at h1
  simp [h1]

/-- Everything `ctz64` says of a value other than 0 (R10). -/
theorem ctz64_spec {x : Sample} (h : x ≠ 0) :
    ctz64 x ≤ 63 ∧ x.getLsbD (ctz64 x) = true ∧ ∀ j, j < ctz64 x → x.getLsbD j = false := by
  obtain ⟨i, hi, hx⟩ := exists_getLsbD_of_ne_zero h
  have hs : ((List.range 64).find? fun i => x.getLsbD i).isSome := by
    rw [List.find?_isSome]
    exact ⟨i, by simpa using hi, hx⟩
  obtain ⟨k, hk⟩ := Option.isSome_iff_exists.1 hs
  have h1 : ctz64 x = k := by simp [ctz64, hk]
  obtain ⟨h2, h3, h4⟩ := List.find?_range_eq_some.1 hk
  rw [h1]
  refine ⟨by simp at h3; omega, h2, fun j hj => by simpa using h4 j hj⟩

/-- Everything `clz64` says of a value other than 0 (R10). -/
theorem clz64_spec {x : Sample} (h : x ≠ 0) :
    clz64 x ≤ 63 ∧ x.getLsbD (63 - clz64 x) = true ∧ ∀ j, 63 - clz64 x < j → x.getLsbD j = false := by
  obtain ⟨i, hi, hx⟩ := exists_getLsbD_of_ne_zero h
  have hs : ((List.range 64).find? fun i => x.getMsbD i).isSome := by
    rw [List.find?_isSome]
    exact ⟨63 - i, by simp; omega, by simp [BitVec.getMsbD_eq_getLsbD, show 63 - (63 - i) = i by omega, hx]; omega⟩
  obtain ⟨k, hk⟩ := Option.isSome_iff_exists.1 hs
  have h1 : clz64 x = k := by simp [clz64, hk]
  obtain ⟨h2, h3, h4⟩ := List.find?_range_eq_some.1 hk
  simp only [List.mem_range] at h3
  rw [h1]
  refine ⟨by omega, ?_, fun j hj => ?_⟩
  · simpa [BitVec.getMsbD_eq_getLsbD, h3] using h2
  · by_cases hj' : j < 64
    · have h5 := h4 (63 - j) (by omega)
      simpa [BitVec.getMsbD_eq_getLsbD, show 63 - (63 - j) = j by omega, show 63 - j < 64 by omega] using h5
    · exact BitVec.getLsbD_of_ge _ _ (by omega)

/-- The two counts together leave at least one bit. -/
theorem clz64_add_ctz64_le {x : Sample} (h : x ≠ 0) : clz64 x + ctz64 x ≤ 63 := by
  obtain ⟨h1, h2, h3⟩ := clz64_spec h
  obtain ⟨h4, h5, h6⟩ := ctz64_spec h
  by_contra hc
  have := h3 (ctz64 x) (by omega)
  rw [h5] at this
  cases this

/-- Shifting out at most the trailing zeros loses nothing: `(delta >> trail) << trail = delta` (R98). -/
theorem deltaOf_meaningfulBits {x : Sample} {t : Nat} (ht : ∀ j, j < t → x.getLsbD j = false) :
    deltaOf (meaningfulBits x t) t = x := by
  apply BitVec.eq_of_getLsbD_eq
  intro i hi
  simp only [deltaOf, meaningfulBits, BitVec.getLsbD_shiftLeft, BitVec.getLsbD_ushiftRight, hi, decide_true,
    Bool.true_and]
  by_cases h : i < t
  · simp [h, ht i h]
  · simp [h, show t + (i - t) = i by omega]

/-- What lies between the leading and the trailing zeros needs no more bits than the field has (R98). -/
theorem meaningfulBits_lt {x : Sample} {l t : Nat} (hl : ∀ j, 64 - l ≤ j → x.getLsbD j = false) :
    (meaningfulBits x t).toNat < 2 ^ (64 - l - t) := by
  refine Nat.lt_pow_two_of_testBit _ fun i hi => ?_
  have h1 := hl (t + i) (by omega)
  rw [← BitVec.getLsbD, meaningfulBits, BitVec.getLsbD_ushiftRight, h1]

/-- The bits above any leading count that the delta reaches are 0. -/
theorem getLsbD_of_le_clz64 {x : Sample} (h : x ≠ 0) {l : Nat} (hl : l ≤ clz64 x) :
    ∀ j, 64 - l ≤ j → x.getLsbD j = false := by
  intro j hj
  obtain ⟨h1, -, h3⟩ := clz64_spec h
  rcases Nat.lt_or_ge (63 - clz64 x) j with h4 | h4
  · exact h3 j h4
  · exact BitVec.getLsbD_of_ge _ _ (by omega)

/-- The bits below any trailing count that the delta reaches are 0. -/
theorem getLsbD_of_le_ctz64 {x : Sample} (h : x ≠ 0) {t : Nat} (ht : t ≤ ctz64 x) :
    ∀ j, j < t → x.getLsbD j = false :=
  fun j hj => (ctz64_spec h).2.2 j (by omega)

end Sys2Proof.Machine
end

