-- ==== Sys2Proof/Laws/Memory.lean ====
section
/-! SUPPORT. The laws of the byte memory: a read after a write, and every operation keeps the canonical form. -/

namespace Sys2Proof.Machine

@[simp] theorem Memory.read?_nil (x : Nat) : Memory.read? [] x = none := rfl

/-- A byte written is the byte read there. -/
@[simp] theorem Memory.read?_write_same (m : Memory) (x : Nat) (v : Byte) : (m.write x v).read? x = some v := by
  induction m with
  | nil => simp [Memory.write, Memory.read?]
  | cons cell m ih =>
    obtain ⟨a, b⟩ := cell
    by_cases h1 : x < a
    · simp [Memory.write, h1, Memory.read?]
    · by_cases h2 : x = a
      · simp [Memory.write, h2, Memory.read?]
      · simp [Memory.write, h1, h2, Memory.read?, ih]

/-- A write leaves every other address alone. -/
theorem Memory.read?_write_other (m : Memory) {x y : Nat} (v : Byte) (h : y ≠ x) :
    (m.write x v).read? y = m.read? y := by
  induction m with
  | nil => simp [Memory.write, Memory.read?, h]
  | cons cell m ih =>
    obtain ⟨a, b⟩ := cell
    by_cases h1 : x < a
    · simp [Memory.write, h1, Memory.read?, h]
    · by_cases h2 : x = a
      · subst h2; simp [Memory.write, Memory.read?, h]
      · by_cases h3 : y = a <;> simp [Memory.write, h1, h2, h3, Memory.read?, ih]

/-- The read of any address after a write. -/
theorem Memory.read?_write (m : Memory) (x y : Nat) (v : Byte) :
    (m.write x v).read? y = if y = x then some v else m.read? y := by
  split
  · subst_vars; exact m.read?_write_same _ v
  · exact m.read?_write_other v ‹_›

/-- The canonical form as a property of the list: its addresses strictly rise. -/
theorem Memory.wf_iff_pairwise (m : Memory) : m.wf = true ↔ m.Pairwise (fun p q => p.1 < q.1) := by
  induction m with
  | nil => simp [Memory.wf]
  | cons cell m ih =>
    cases m with
    | nil => simp [Memory.wf]
    | cons cell' m =>
      obtain ⟨a, b⟩ := cell
      obtain ⟨a', b'⟩ := cell'
      simp only [Memory.wf, Bool.and_eq_true, decide_eq_true_eq, ih]
      constructor
      · rintro ⟨h, hp⟩
        refine List.pairwise_cons.2 ⟨fun q hq => ?_, hp⟩
        rcases List.mem_cons.1 hq with rfl | hq
        · exact h
        · exact lt_trans h ((List.pairwise_cons.1 hp).1 q hq)
      · intro h
        exact ⟨(List.pairwise_cons.1 h).1 (a', b') (by simp), (List.pairwise_cons.1 h).2⟩

/-- A cell of a memory after a write is an old one or the written one. -/
theorem Memory.mem_write {m : Memory} {x : Nat} {v : Byte} {cell : Host.Cell} (h : cell ∈ m.write x v) :
    cell ∈ m ∨ cell = (x, v) := by
  induction m with
  | nil => simp_all [Memory.write]
  | cons c m ih =>
    obtain ⟨a, b⟩ := c
    unfold Memory.write at h
    split at h
    · simp_all; tauto
    · split at h
      · simp_all; tauto
      · rcases List.mem_cons.1 h with h | h
        · exact .inl (by simp [h])
        · rcases ih h with h | h
          · exact .inl (by simp [h])
          · exact .inr h

/-- A write keeps the canonical form. -/
theorem Memory.write_wf {m : Memory} (h : m.wf = true) (x : Nat) (v : Byte) : (m.write x v).wf = true := by
  rw [Memory.wf_iff_pairwise] at *
  induction m with
  | nil => simp [Memory.write]
  | cons c m ih =>
    obtain ⟨a, b⟩ := c
    have hh := List.pairwise_cons.1 h
    unfold Memory.write
    split
    · refine List.pairwise_cons.2 ⟨fun q hq => ?_, h⟩
      rcases List.mem_cons.1 hq with rfl | hq
      · assumption
      · exact lt_trans ‹_› (hh.1 q hq)
    · split
      · subst_vars; exact List.pairwise_cons.2 ⟨hh.1, hh.2⟩
      · refine List.pairwise_cons.2 ⟨fun q hq => ?_, ih hh.2⟩
        rcases Memory.mem_write hq with hq | rfl
        · exact hh.1 q hq
        · exact lt_of_le_of_ne (not_lt.1 ‹_›) (Ne.symm ‹_›)

/-- A write inside a capacity keeps every address below it. -/
theorem Memory.write_below {m : Memory} {cap : Option Nat} {x : Nat} (h : m.below cap = true)
    (hx : ∀ k, cap = some k → x < k) (v : Byte) : (m.write x v).below cap = true := by
  cases cap with
  | none => rfl
  | some k =>
    simp only [Memory.below, List.all_eq_true, decide_eq_true_eq] at *
    intro cell hc
    rcases Memory.mem_write hc with hc | rfl
    · exact h cell hc
    · exact hx k rfl

/-- What a memory made of a list of bytes holds. -/
theorem Memory.read?_ofBytes (bs : List Byte) (a x : Nat) :
    (Memory.ofBytes a bs).read? x = if a ≤ x then bs[x - a]? else none := by
  induction bs generalizing a with
  | nil => simp [Memory.ofBytes]
  | cons b bs ih =>
    by_cases h : x = a
    · subst h; simp [Memory.ofBytes, Memory.read?]
    · simp only [Memory.ofBytes, Memory.read?, h, if_false, ih]
      by_cases h2 : a ≤ x
      · have h3 : a + 1 ≤ x := by omega
        have h4 : x - a = (x - (a + 1)) + 1 := by omega
        simp [h2, h3, h4]
      · simp [h2, show ¬ (a + 1 ≤ x) by omega]

/-- A memory made of a list of bytes is in the canonical form. -/
theorem Memory.ofBytes_wf (bs : List Byte) (a : Nat) : (Memory.ofBytes a bs).wf = true := by
  induction bs generalizing a with
  | nil => rfl
  | cons b bs ih =>
    cases bs with
    | nil => rfl
    | cons b' bs =>
      simp only [Memory.ofBytes, Memory.wf, Bool.and_eq_true, decide_eq_true_eq]
      exact ⟨Nat.lt_succ_self a, ih (a + 1)⟩

/-- The memories of the reset state are in the canonical form. -/
theorem reset_memories_wf : State.reset.enc.obuf.wf = true ∧ State.reset.dec.ibuf.wf = true := ⟨rfl, rfl⟩

end Sys2Proof.Machine
end

