-- ==== Sys2Proof/Laws/Sink.lean ====
section
/-! SUPPORT. What the sink's unit operations do: one bit, a field, and that the sink's invariant is kept (R121, R125). -/

namespace Sys2Proof.Machine

theorem paddingZero_iff (e : EncChannel) :
    paddingZero e = true ↔ ∀ i, i < padCount e.wbits → streamBit (obufByte e) (e.wbits + i) = false := by
  simp [paddingZero, List.all_eq_true]

theorem obufWritten_iff (e : EncChannel) :
    obufWritten e = true ↔ ∀ a, a < snkLen e → (e.obuf.read? a).isSome = true := by
  simp [obufWritten, List.all_eq_true]

@[simp] theorem writtenBits_length (e : EncChannel) : (writtenBits e).length = e.wbits := by simp [writtenBits]

theorem writtenBits_getElem? (e : EncChannel) (p : Nat) :
    (writtenBits e)[p]? = if p < e.wbits then some (streamBit (obufByte e) p) else none := by
  simp [writtenBits, List.getElem?_map]
  split <;> simp_all

/-- The bytes of `OBUF` after one bit: only the byte at `SNK_WBITS >> 3` is written (R64). -/
theorem obufByte_putBit (b : Bool) (e : EncChannel) (a : Nat) :
    obufByte (putBit b e) a =
      if a = e.wbits / 8 then
        (if e.wbits % 8 = 0 then 0 else obufByte e a) ||| (BitVec.ofBool b).setWidth 8 <<< (7 - e.wbits % 8)
      else obufByte e a := by
  unfold putBit obufByte
  simp only [Memory.read?_write]
  split
  · subst_vars
    split <;> simp
  · rfl

theorem read?_putBit_other (b : Bool) (e : EncChannel) {a : Nat} (h : a ≠ e.wbits / 8) :
    (putBit b e).obuf.read? a = e.obuf.read? a := by
  simp [putBit, Memory.read?_write_other _ _ h]

/-- The stream bits of `OBUF` after one bit (R121). -/
theorem streamBit_putBit (b : Bool) {e : EncChannel} (hp : paddingZero e = true) (q : Nat) :
    streamBit (obufByte (putBit b e)) q =
      if q = e.wbits then b
      else if q / 8 = e.wbits / 8 ∧ e.wbits < q then false
      else streamBit (obufByte e) q := by
  rw [paddingZero_iff] at hp
  have hpad : ∀ q, q / 8 = e.wbits / 8 → e.wbits % 8 ≠ 0 → e.wbits ≤ q → streamBit (obufByte e) q = false := by
    intro q h1 h2 h3
    have := hp (q - e.wbits) (by unfold padCount; omega)
    rwa [show e.wbits + (q - e.wbits) = q by omega] at this
  have hb : ∀ q, ((BitVec.ofBool b).setWidth 8 <<< (7 - e.wbits % 8) : Byte).getLsbD (7 - q % 8)
      = (b && decide (q % 8 = e.wbits % 8)) := by
    intro q
    simp only [BitVec.getLsbD_shiftLeft, BitVec.getLsbD_setWidth]
    by_cases h : q % 8 = e.wbits % 8
    · cases b <;> simp [h]; omega
    · by_cases h2 : 7 - q % 8 < 7 - e.wbits % 8
      · simp [h2, h]
      · have h3 : 7 - q % 8 - (7 - e.wbits % 8) ≠ 0 := by omega
        cases b <;> simp [h, h2, h3]
  unfold streamBit at *
  rw [obufByte_putBit]
  by_cases hq : q / 8 = e.wbits / 8
  · rw [if_pos hq, BitVec.getLsbD_or, hb]
    by_cases h0 : e.wbits % 8 = 0
    · by_cases h1 : q = e.wbits
      · simp [h0, h1]
      · have h2 : e.wbits < q := by omega
        have h3 : ¬ q % 8 = 0 := by omega
        simp [h0, h1, h2, h3, hq]
    · rw [if_neg h0]
      by_cases h1 : q = e.wbits
      · subst h1
        simp [hpad _ rfl h0 le_rfl]
      · have h3 : ¬ q % 8 = e.wbits % 8 := by omega
        by_cases h2 : e.wbits < q
        · have h4 := hpad q hq h0 (by omega)
          rw [hq] at h4
          simp [h1, h2, h3, hq, h4]
        · simp [h1, h2, h3]
  · simp [hq, show q ≠ e.wbits from fun h => hq (by rw [h])]

/-- One bit appended (R121). -/
theorem writtenBits_putBit (b : Bool) {e : EncChannel} (hp : paddingZero e = true) :
    writtenBits (putBit b e) = writtenBits e ++ [b] := by
  apply List.ext_getElem?
  intro p
  rw [writtenBits_getElem?, putBit_wbits]
  by_cases h1 : p < e.wbits
  · rw [List.getElem?_append_left (by simpa using h1), writtenBits_getElem?, if_pos (by omega), if_pos h1,
      streamBit_putBit b hp, if_neg (by omega), if_neg (by omega)]
  · rw [List.getElem?_append_right (by simpa using h1), writtenBits_length]
    by_cases h2 : p = e.wbits
    · simp [h2, streamBit_putBit b hp]
    · rw [if_neg (by omega), List.getElem?_eq_none (by simp; omega)]

theorem paddingZero_putBit (b : Bool) {e : EncChannel} (hp : paddingZero e = true) :
    paddingZero (putBit b e) = true := by
  rw [paddingZero_iff]
  intro i hi
  rw [putBit_wbits] at *
  have : (e.wbits + 1) % 8 ≠ 0 := by unfold padCount at hi; omega
  rw [streamBit_putBit b hp, if_neg (by omega), if_pos]
  unfold padCount at hi
  omega

/-! ### A field -/

section WriteBits

variable (v : Sample) (n : Nat) (e : EncChannel)

@[simp] theorem writeBits_state : (writeBits v n e).state = e.state := by
  induction n generalizing e with
  | zero => rfl
  | succ n ih => simp [writeBits, ih]

@[simp] theorem writeBits_err : (writeBits v n e).err = e.err := by
  induction n generalizing e with
  | zero => rfl
  | succ n ih => simp [writeBits, ih]

@[simp] theorem writeBits_count : (writeBits v n e).count = e.count := by
  induction n generalizing e with
  | zero => rfl
  | succ n ih => simp [writeBits, ih]

@[simp] theorem writeBits_prev : (writeBits v n e).prev = e.prev := by
  induction n generalizing e with
  | zero => rfl
  | succ n ih => simp [writeBits, ih]

@[simp] theorem writeBits_win : (writeBits v n e).win = e.win := by
  induction n generalizing e with
  | zero => rfl
  | succ n ih => simp [writeBits, ih]

@[simp] theorem writeBits_epoch : (writeBits v n e).epoch = e.epoch := by
  induction n generalizing e with
  | zero => rfl
  | succ n ih => simp [writeBits, ih]

/-- `SNK_WBITS` grows "by exactly `count`" (R25). -/
@[simp] theorem writeBits_wbits : (writeBits v n e).wbits = e.wbits + n := by
  induction n generalizing e with
  | zero => rfl
  | succ n ih => simp [writeBits, ih]; omega

/-- `writeBits` changes the sink and nothing else of the channel. -/
theorem writeBits_eq : writeBits v n e = { e with obuf := (writeBits v n e).obuf, wbits := e.wbits + n } := by
  have h : ∀ a b : EncChannel, a.state = b.state → a.err = b.err → a.count = b.count → a.prev = b.prev →
      a.win = b.win → a.wbits = b.wbits → a.obuf = b.obuf → a.epoch = b.epoch → a = b := by
    intro a b; cases a; cases b; simp_all
  apply h <;> simp

variable {e}

/-- The padding stays zero (R125 (c)). -/
theorem paddingZero_writeBits (hp : paddingZero e = true) : paddingZero (writeBits v n e) = true := by
  induction n generalizing e with
  | zero => exact hp
  | succ n ih => exact ih (paddingZero_putBit _ hp)

/-- `writeBits` appends the field, most significant bit first (R121). -/
theorem writtenBits_writeBits (hp : paddingZero e = true) :
    writtenBits (writeBits v n e) = writtenBits e ++ fieldBits v n := by
  induction n generalizing e with
  | zero => simp [writeBits]
  | succ n ih =>
    rw [writeBits, ih (paddingZero_putBit _ hp), writtenBits_putBit _ hp, fieldBits_succ, List.append_assoc]
    rfl

/-- "changes bytes `SNK_WBITS >> 3` to `(SNK_WBITS + count − 1) >> 3` of `OBUF` and no others" (R64). -/
theorem read?_writeBits_other (e : EncChannel) {a : Nat}
    (h : n = 0 ∨ a < e.wbits / 8 ∨ (e.wbits + n - 1) / 8 < a) :
    (writeBits v n e).obuf.read? a = e.obuf.read? a := by
  induction n generalizing e with
  | zero => rfl
  | succ n ih =>
    rw [writeBits, ih _ (by simp only [putBit_wbits]; omega), read?_putBit_other _ _ (by omega)]

theorem wf_writeBits (h : e.obuf.wf = true) : (writeBits v n e).obuf.wf = true := by
  induction n generalizing e with
  | zero => exact h
  | succ n ih => exact ih (Memory.write_wf h _ _)

theorem obufWritten_putBit (b : Bool) (h : obufWritten e = true) : obufWritten (putBit b e) = true := by
  rw [obufWritten_iff] at *
  intro a ha
  by_cases h1 : a = e.wbits / 8
  · simp [putBit, h1]
  · rw [read?_putBit_other _ _ h1]
    refine h a ?_
    simp only [snkLen, putBit_wbits] at *
    omega

theorem obufWritten_writeBits (h : obufWritten e = true) : obufWritten (writeBits v n e) = true := by
  induction n generalizing e with
  | zero => exact h
  | succ n ih => exact ih (obufWritten_putBit _ h)

/-- The capacity test in terms of the capacity (R123). -/
theorem fits_iff (c : Cfg) (e : EncChannel) (n : Nat) :
    fits c e n = true ↔ ∀ k, c.obufCap = some k → (e.wbits + n + 7) / 8 ≤ k := by
  unfold fits
  cases c.obufCap <;> simp

theorem below_writeBits {c : Cfg} (h : e.obuf.below c.obufCap = true) (hf : fits c e n = true) :
    (writeBits v n e).obuf.below c.obufCap = true := by
  rw [fits_iff] at hf
  induction n generalizing e with
  | zero => exact h
  | succ n ih =>
    refine ih (Memory.write_below h (fun k hk => ?_) _) (fun k hk => ?_)
    · have := hf k hk; omega
    · have := hf k hk; simp only [putBit_wbits]; omega

/-- A write that fits keeps the sink's invariant (R125). -/
theorem sinkOk_writeBits {c : Cfg} (h : sinkOk c e = true) (hf : fits c e n = true) :
    sinkOk c (writeBits v n e) = true := by
  simp only [sinkOk, Bool.and_eq_true] at *
  obtain ⟨⟨⟨⟨h1, h2⟩, h3⟩, h4⟩, h5⟩ := h
  refine ⟨⟨⟨⟨wf_writeBits v n h1, below_writeBits v n h2 hf⟩, ?_⟩, obufWritten_writeBits v n h4⟩,
    paddingZero_writeBits v n h5⟩
  rw [fits_iff] at *
  intro k hk
  have := hf k hk
  simp only [writeBits_wbits]
  omega

theorem sinkOk_padding {c : Cfg} (h : sinkOk c e = true) : paddingZero e = true := by
  simp only [sinkOk, Bool.and_eq_true] at h; exact h.2

end WriteBits

end Sys2Proof.Machine
end

