-- ==== Sys2Proof/Laws/Encoder.lean ====
section
/-! SUPPORT. What the encoder's steps do: each appends the bits of one codeword to the sink and changes nothing else but
what its rule names (R162 to R166). -/

namespace Sys2Proof.Machine

/-- What a step of the encoder did to the sink: the bits were appended, and the invariant of the sink is kept. -/
structure Wrote (c : Cfg) (bits : List Bool) (e e' : EncChannel) : Prop where
  wbits : e'.wbits = e.wbits + bits.length
  written : writtenBits e' = writtenBits e ++ bits
  padding : paddingZero e' = true
  untouched : ∀ a, (bits = [] ∨ a < e.wbits / 8 ∨ (e.wbits + bits.length - 1) / 8 < a) →
    e'.obuf.read? a = e.obuf.read? a
  sink : sinkOk c e = true → sinkOk c e' = true
  rest : e' = { e with obuf := e'.obuf, wbits := e'.wbits }

section Frame

variable {c : Cfg} {bits : List Bool} {e e' : EncChannel}

theorem Wrote.state_eq (h : Wrote c bits e e') : e'.state = e.state := by rw [h.rest]
theorem Wrote.err_eq (h : Wrote c bits e e') : e'.err = e.err := by rw [h.rest]
theorem Wrote.count_eq (h : Wrote c bits e e') : e'.count = e.count := by rw [h.rest]
theorem Wrote.prev_eq (h : Wrote c bits e e') : e'.prev = e.prev := by rw [h.rest]
theorem Wrote.win_eq (h : Wrote c bits e e') : e'.win = e.win := by rw [h.rest]
theorem Wrote.epoch_eq (h : Wrote c bits e e') : e'.epoch = e.epoch := by rw [h.rest]

end Frame

/-- Only the memory, the position and the epoch of a channel say what has been written. -/
theorem writtenBits_congr {e e' : EncChannel} (h1 : e'.obuf = e.obuf) (h2 : e'.wbits = e.wbits)
    (h3 : e'.epoch = e.epoch) : writtenBits e' = writtenBits e := by
  unfold writtenBits streamBit obufByte
  rw [h1, h2, h3]

theorem paddingZero_congr {e e' : EncChannel} (h1 : e'.obuf = e.obuf) (h2 : e'.wbits = e.wbits)
    (h3 : e'.epoch = e.epoch) : paddingZero e' = paddingZero e := by
  unfold paddingZero streamBit obufByte
  rw [h1, h2, h3]

theorem sinkOk_congr {c : Cfg} {e e' : EncChannel} (h1 : e'.obuf = e.obuf) (h2 : e'.wbits = e.wbits)
    (h3 : e'.epoch = e.epoch) : sinkOk c e' = sinkOk c e := by
  unfold sinkOk obufWritten snkLen fits
  rw [paddingZero_congr h1 h2 h3, h1, h2]

/-- One field written (R121). -/
theorem Wrote.field {c : Cfg} {e : EncChannel} (v : Sample) (n : Nat) (hp : paddingZero e = true)
    (hf : fits c e n = true) : Wrote c (fieldBits v n) e (writeBits v n e) where
  wbits := by simp
  written := writtenBits_writeBits v n hp
  padding := paddingZero_writeBits v n hp
  untouched := fun a h => read?_writeBits_other v n e <| by
    rcases h with h | h
    · left; simpa using congrArg List.length h
    · right; simpa using h
  sink := fun h => sinkOk_writeBits v n h hf
  rest := by rw [writeBits_wbits]; exact writeBits_eq v n e

/-- Fields written one after another. -/
theorem Wrote.trans {c : Cfg} {xs ys : List Bool} {e e' e'' : EncChannel} (h1 : Wrote c xs e e') (h2 : Wrote c ys e' e'') :
    Wrote c (xs ++ ys) e e'' where
  wbits := by rw [h2.wbits, h1.wbits, List.length_append]; omega
  written := by rw [h2.written, h1.written, List.append_assoc]
  padding := h2.padding
  untouched := fun a h => by
    have hl : (xs ++ ys).length = xs.length + ys.length := List.length_append
    have hy := h2.untouched a
    have hx := h1.untouched a
    rw [h1.wbits] at hy
    by_cases hx0 : xs = []
    · subst hx0
      rw [hy, hx (.inl rfl)]
      simpa using h
    · have hxl : 0 < xs.length := List.length_pos_of_ne_nil hx0
      by_cases hy0 : ys = []
      · subst hy0
        rw [hy (.inl rfl), hx]
        simpa using h
      · have hyl : 0 < ys.length := List.length_pos_of_ne_nil hy0
        rcases h with h | h | h
        · exact absurd (List.append_eq_nil_iff.1 h).1 hx0
        · rw [hy (.inr (.inl (by omega))), hx (.inr (.inl h))]
        · rw [hl] at h
          rw [hy (.inr (.inr (by omega))), hx (.inr (.inr (by omega)))]
  sink := fun h => h2.sink (h1.sink h)
  rest := by rw [h2.rest, h1.rest]

/-- Nothing written. -/
theorem Wrote.nothing {c : Cfg} {e : EncChannel} (hp : paddingZero e = true) : Wrote c [] e e where
  wbits := rfl
  written := by simp
  padding := hp
  untouched := fun _ _ => rfl
  sink := id
  rest := rfl

/-- The form the statements use. -/
theorem Wrote.appended {c : Cfg} {bits : List Bool} {e e' : EncChannel} (h : Wrote c bits e e') :
    Appended e bits e'.obuf := by
  have he : { e with obuf := e'.obuf, wbits := e.wbits + bits.length } = e' := by rw [← h.wbits]; exact h.rest.symm
  refine ⟨?_, ?_, h.untouched⟩
  · simp only [he]; exact h.written
  · simp only [he]; exact h.padding

/-- The capacity test bounds every shorter write. -/
theorem fits_mono {c : Cfg} {e e' : EncChannel} {n n' : Nat} (h : fits c e n = true)
    (hn : e'.wbits + n' ≤ e.wbits + n) : fits c e' n' = true := by
  rw [fits_iff] at *
  intro k hk
  have := h k hk
  omega

/-- The bits of the first codeword, the tag byte with them (R93, R94, R162). -/
def firstBits (c : Cfg) (v : Sample) : List Bool :=
  (if c.tagEn then fieldBits (c.tagValue.setWidth 64) 8 else []) ++ fieldBits v 64

theorem firstBits_length (c : Cfg) (v : Sample) : (firstBits c v).length = 64 + 8 * c.tagBytes := by
  unfold firstBits Cfg.tagBytes
  split <;> simp

/-- The bits of a `REUSE` (R96, R165). -/
def reuseBits (w : Window) (delta : Sample) : List Bool :=
  [true, false] ++ fieldBits (meaningfulBits delta w.trail) w.width

/-- The bits of a `NEW` (R97, R166). -/
def newBits (c : Cfg) (lead trail : Nat) (delta : Sample) : List Bool :=
  [true, true] ++ fieldBits (BitVec.ofNat 64 lead) c.leadW.bits ++
    fieldBits (BitVec.ofNat 64 (64 - lead - trail - 1)) 6 ++ fieldBits (meaningfulBits delta trail) (64 - lead - trail)

@[simp] theorem reuseBits_length (w : Window) (delta : Sample) : (reuseBits w delta).length = 2 + w.width := by
  simp [reuseBits]; omega

@[simp] theorem newBits_length (c : Cfg) (lead trail : Nat) (delta : Sample) :
    (newBits c lead trail delta).length = 2 + c.leadW.bits + 6 + (64 - lead - trail) := by
  simp [newBits]; omega

/-- Everything `first_value` can do (R162). -/
theorem firstValue_spec {c : Cfg} {v : Sample} {e : EncChannel} (hp : paddingZero e = true) :
    (fits c e (64 + 8 * c.tagBytes) = false ∧ firstValue c v e = none) ∨
      ∃ e', fits c e (64 + 8 * c.tagBytes) = true ∧
        firstValue c v e = some (e', ⟨.first, 64 + 8 * c.tagBytes⟩) ∧ Wrote c (firstBits c v) e e' := by
  by_cases hf : fits c e (64 + 8 * c.tagBytes) = true
  · refine .inr ⟨writeBits v 64 (if c.tagEn then writeBits (c.tagValue.setWidth 64) 8 e else e), hf,
      by simp only [firstValue, hf, if_true], ?_⟩
    unfold firstBits
    by_cases ht : c.tagEn = true
    · have h8 : c.tagBytes = 1 := by simp [Cfg.tagBytes, ht]
      rw [h8] at hf
      simp only [ht, if_true]
      have h1 := Wrote.field (c := c) (c.tagValue.setWidth 64) 8 hp (fits_mono hf (by omega))
      exact h1.trans (Wrote.field v 64 h1.padding (fits_mono hf (by simp)))
    · have h0 : c.tagBytes = 0 := by simp [Cfg.tagBytes, ht]
      rw [h0] at hf
      simp only [ht]
      exact Wrote.field v 64 hp hf
  · simp only [Bool.not_eq_true] at hf
    exact .inl ⟨hf, by simp [firstValue, hf]⟩

/-- Everything the `REPEAT` step can do (R163). -/
theorem emitRepeat_spec {c : Cfg} {e : EncChannel} (hp : paddingZero e = true) :
    (fits c e 1 = false ∧ emitRepeat c e = none) ∨
      ∃ e', fits c e 1 = true ∧ emitRepeat c e = some (e', ⟨.repeated, 1⟩) ∧ Wrote c [false] e e' := by
  by_cases hf : fits c e 1 = true
  · exact .inr ⟨writeBits 0 1 e, hf, by simp [emitRepeat, hf], Wrote.field 0 1 hp hf⟩
  · simp only [Bool.not_eq_true] at hf
    exact .inl ⟨hf, by simp [emitRepeat, hf]⟩

/-- Everything `reuse_window` can do (R165). -/
theorem reuseWindow_spec {c : Cfg} {delta : Sample} {e : EncChannel} (hp : paddingZero e = true) :
    (fits c e (2 + e.win.width) = false ∧ reuseWindow c delta e = none) ∨
      ∃ e', fits c e (2 + e.win.width) = true ∧
        reuseWindow c delta e = some (e', ⟨.reuse, 2 + e.win.width⟩) ∧ Wrote c (reuseBits e.win delta) e e' := by
  by_cases hf : fits c e (2 + e.win.width) = true
  · refine .inr ⟨_, hf, by simp only [reuseWindow, hf, if_true]; rfl, ?_⟩
    have h1 := Wrote.field (c := c) 0b10 2 hp (fits_mono hf (by omega))
    exact h1.trans (Wrote.field _ _ h1.padding (fits_mono hf (by simp; omega)))
  · simp only [Bool.not_eq_true] at hf
    exact .inl ⟨hf, by simp [reuseWindow, hf]⟩

/-- Everything `new_window` can do (R166). -/
theorem newWindow_spec {c : Cfg} {delta : Sample} {lead trail : Nat} {e : EncChannel} (hp : paddingZero e = true) :
    (fits c e (2 + c.leadW.bits + 6 + (64 - lead - trail)) = false ∧ newWindow c delta lead trail e = none) ∨
      ∃ e', fits c e (2 + c.leadW.bits + 6 + (64 - lead - trail)) = true ∧
        newWindow c delta lead trail e
          = some ({ e' with win := ⟨true, lead, trail⟩ }, ⟨.new, 2 + c.leadW.bits + 6 + (64 - lead - trail)⟩) ∧
        Wrote c (newBits c lead trail delta) e e' := by
  by_cases hf : fits c e (2 + c.leadW.bits + 6 + (64 - lead - trail)) = true
  · refine .inr ⟨_, hf, by simp only [newWindow, hf, if_true]; rfl, ?_⟩
    have h1 := Wrote.field (c := c) 0b11 2 hp (fits_mono hf (by omega))
    have h2 := h1.trans (Wrote.field (BitVec.ofNat 64 lead) c.leadW.bits h1.padding (fits_mono hf (by simp; omega)))
    have h3 := h2.trans (Wrote.field (BitVec.ofNat 64 (64 - lead - trail - 1)) 6 h2.padding
      (fits_mono hf (by simp; omega)))
    exact h3.trans (Wrote.field (meaningfulBits delta trail) (64 - lead - trail) h3.padding
      (fits_mono hf (by simp; omega)))
  · simp only [Bool.not_eq_true] at hf
    exact .inl ⟨hf, by simp [newWindow, hf]⟩

/-- Everything `emit_delta` can do (R163): nothing for want of room, or one of the three codewords. -/
theorem emitDelta_spec {c : Cfg} {delta : Sample} {e : EncChannel} (hp : paddingZero e = true) :
    emitDelta c delta e = none ∨
      ∃ e' w cw bits, emitDelta c delta e = some ({ e' with win := w }, cw) ∧ Wrote c bits e e' ∧ 0 < bits.length ∧
        ((delta = 0 ∧ w = e.win ∧ cw.name = .repeated ∧ bits = [false]) ∨
          (delta ≠ 0 ∧ w = e.win ∧ cw.name = .reuse ∧ e.win.valid = true ∧ e.win.lead ≤ clampedLead c delta ∧
            e.win.trail ≤ ctz64 delta ∧ bits = reuseBits e.win delta) ∨
          (delta ≠ 0 ∧ w = ⟨true, clampedLead c delta, ctz64 delta⟩ ∧ cw.name = .new ∧
            bits = newBits c (clampedLead c delta) (ctz64 delta) delta)) := by
  unfold emitDelta
  split
  · rcases emitRepeat_spec (c := c) hp with ⟨-, h⟩ | ⟨e', -, h, hw⟩
    · exact .inl h
    · refine .inr ⟨e', e.win, ⟨.repeated, 1⟩, _, ?_, hw, by simp, .inl ⟨‹_›, rfl, rfl, rfl⟩⟩
      rw [h]
      congr 2
      conv_lhs => rw [hw.rest]
      conv_rhs => rw [hw.rest]
  · simp only
    split
    · rename_i hr
      simp only [reusable, Bool.and_eq_true, decide_eq_true_eq] at hr
      rcases reuseWindow_spec (c := c) (delta := delta) hp with ⟨-, h⟩ | ⟨e', -, h, hw⟩
      · exact .inl h
      · refine .inr ⟨e', e.win, ⟨.reuse, 2 + e.win.width⟩, _, ?_, hw, by simp, .inr (.inl ⟨‹_›, rfl, rfl, hr.1.1, hr.1.2, hr.2, rfl⟩)⟩
        rw [h]
        congr 2
        conv_lhs => rw [hw.rest]
        conv_rhs => rw [hw.rest]
    · rcases newWindow_spec (c := c) (delta := delta) (lead := clampedLead c delta) (trail := ctz64 delta) hp with
        ⟨-, h⟩ | ⟨e', -, h, hw⟩
      · exact .inl h
      · exact .inr ⟨e', _, _, _, h, hw, by simp, .inr (.inr ⟨‹_›, rfl, rfl, rfl⟩)⟩

/-- The Window a `NEW` announces is one of R24: `delta ≠ 0` (R166). -/
theorem windowOk_new {c : Cfg} {delta : Sample} (h : delta ≠ 0) :
    windowOk c ⟨true, clampedLead c delta, ctz64 delta⟩ = true := by
  have h1 := clz64_add_ctz64_le h
  have h2 := (ctz64_spec h).1
  have h3 : min (clz64 delta) c.leadMax ≤ c.leadMax := Nat.min_le_right _ _
  have h4 : min (clz64 delta) c.leadMax + ctz64 delta ≤ 63 := by omega
  simp [windowOk, clampedLead, h2, h4]

/-- With room for the longest codeword, `2 + LEAD_W + 6 + 64` bits (R291), `emit_delta` writes one, no longer than that,
and leaves the mode as it is. -/
theorem emitDelta_room {c : Cfg} {delta : Sample} {e : EncChannel} (hf : fits c e (c.leadW.bits + 72) = true) :
    ∃ e' cw, emitDelta c delta e = some (e', cw) ∧ e'.state = e.state ∧ e'.wbits ≤ e.wbits + (c.leadW.bits + 72) := by
  have hm : ∀ n, n ≤ c.leadW.bits + 72 → fits c e n = true := fun n hn => fits_mono hf (by omega)
  have hw : e.win.width ≤ 64 := by unfold Window.width; omega
  unfold emitDelta
  split
  · exact ⟨_, _, by rw [emitRepeat, if_pos (hm 1 (by omega))], by rw [writeBits_eq], by rw [writeBits_wbits]; omega⟩
  · simp only
    split
    · refine ⟨_, _, by simp only [reuseWindow, hm _ (show 2 + e.win.width ≤ _ by omega), if_true]; rfl, ?_, ?_⟩
      · rw [writeBits_eq, writeBits_eq]
      · rw [writeBits_wbits, writeBits_wbits]; omega
    · have hn : 2 + c.leadW.bits + 6 + (64 - clampedLead c delta - ctz64 delta) ≤ c.leadW.bits + 72 := by omega
      refine ⟨_, _, by simp only [newWindow, hm _ hn, if_true]; rfl, ?_, ?_⟩
      · simp only; rw [writeBits_eq, writeBits_eq, writeBits_eq, writeBits_eq]
      · simp only [writeBits_wbits]; omega

/-- The invariant of the encoder channel, clause by clause. -/
structure EncFacts (c : Cfg) (e : EncChannel) : Prop where
  sink : sinkOk c e = true
  window : windowOk c e.win = true
  empty : e.state = .active → (e.wbits = 0 ↔ e.count = 0)
  prev : e.state = .active → e.count ≠ 0 → e.prev ≠ c.sentinel
  err : e.err = ErrReg.clear ∨ (e.state = .done ∧ e.err.cause = .noCause ∧
    (e.err.kind = .reservedValueCollision ∨ e.err.kind = .capacityExceeded))

theorem encOk_iff (c : Cfg) (e : EncChannel) : encOk c e = true ↔ EncFacts c e := by
  simp only [encOk, Bool.and_eq_true, Bool.or_eq_true, bne_iff_ne, beq_iff_eq, ne_eq]
  constructor
  · rintro ⟨⟨⟨h1, h2⟩, h3⟩, h4⟩
    refine ⟨h1, h2, fun h => ?_, fun h h' => ?_, ?_⟩
    · have h3 := (h3.resolve_left (fun hn => hn h)).1
      rw [Bool.eq_iff_iff] at h3; simpa using h3
    · exact (h3.resolve_left (fun hn => hn h)).2.resolve_left h'
    · simpa [and_assoc] using h4
  · rintro ⟨h1, h2, h3, h4, h5⟩
    refine ⟨⟨⟨h1, h2⟩, ?_⟩, by simpa [and_assoc] using h5⟩
    by_cases h : e.state = .active
    · refine .inr ⟨?_, ?_⟩
      · rw [Bool.eq_iff_iff]; simpa using h3 h
      · by_cases h' : e.count = 0
        · exact .inl h'
        · exact .inr (h4 h h')
    · exact .inl h

/-- An error of the encoder keeps the invariant (R253). -/
theorem raiseEnc_facts {c : Cfg} {e : EncChannel} {kind : ErrKind} (h : EncFacts c e)
    (hk : kind = .reservedValueCollision ∨ kind = .capacityExceeded) : EncFacts c (raiseEnc kind .noCause e).1 :=
  ⟨by rw [sinkOk_congr (e := e)] <;> first | exact h.sink | rfl, h.window, by simp, by simp, .inr ⟨rfl, rfl, hk⟩⟩

/-- `WINDOW_INIT` is a Window of R24 (R6). -/
theorem initialWindow_ok {c : Cfg} (h : c.wf = true) : windowOk c c.initialWindow = true := by
  unfold Cfg.initialWindow Cfg.wf at *
  cases hw : c.windowInit with
  | none => rfl
  | some p => obtain ⟨l, t⟩ := p; simp [hw] at h; simp [windowOk, h]

end Sys2Proof.Machine
end

