-- ==== Sys2Proof/Laws/PerInstr.lean ====
section
/-! SUPPORT. Statements about every instruction, one lemma per instruction. -/

namespace Sys2Proof.Laws.IssuedOrFetched

/-- Every instruction is of exactly one of the two kinds of `INDEX.md`: an operation the host issues with a code (R110),
or a codeword the decoder fetches from the stream (R92); and an operation's code is below 32, a codeword has at most 78
bits. -/
def Statement (i : Instr) : Prop :=
  ∀ (c : Cfg) (w : Window),
    (∃ q, encodeIssue i = some q ∧ q.code.toNat < 32 ∧ encodeCodeword c w i = none) ∨
      ∃ bits, encodeCodeword c w i = some bits ∧ bits.length ≤ 78 ∧ encodeIssue i = none

theorem cwTag (t : Byte) : Statement (.cwTag t) :=
  fun _ _ => .inr ⟨_, rfl, by simp [fieldBits], rfl⟩

theorem cwFirst (v : Sample) : Statement (.cwFirst v) :=
  fun _ _ => .inr ⟨_, rfl, by simp [fieldBits], rfl⟩

theorem cwRepeat : Statement .cwRepeat :=
  fun _ _ => .inr ⟨_, rfl, by simp, rfl⟩

theorem cwReuse (bits : Sample) : Statement (.cwReuse bits) :=
  fun _ w => .inr ⟨_, rfl, by simp [fieldBits, Window.width]; omega, rfl⟩

theorem cwNew (lead : BitVec 6) (len : BitVec 6) (bits : Sample) : Statement (.cwNew lead len bits) :=
  fun c _ => .inr ⟨_, rfl, by
    have := len.isLt
    cases h : c.leadW <;> simp [fieldBits, LeadWidth.bits] <;> omega, rfl⟩

theorem cwPad (n : BitVec 3) : Statement (.cwPad n) :=
  fun _ _ => .inr ⟨_, rfl, by have := n.isLt; simp; omega, rfl⟩

theorem snkInit : Statement .snkInit :=
  fun _ _ => .inl ⟨_, rfl, by simp, rfl⟩

theorem snkWrite (value : Sample) (count : BitVec 7) : Statement (.snkWrite value count) :=
  fun _ _ => .inl ⟨_, rfl, by simp, rfl⟩

theorem snkFinal : Statement .snkFinal :=
  fun _ _ => .inl ⟨_, rfl, by simp, rfl⟩

theorem encBegin : Statement .encBegin :=
  fun _ _ => .inl ⟨_, rfl, by simp, rfl⟩

theorem encSample (v : Sample) : Statement (.encSample v) :=
  fun _ _ => .inl ⟨_, rfl, by simp, rfl⟩

theorem encEnd : Statement .encEnd :=
  fun _ _ => .inl ⟨_, rfl, by simp, rfl⟩

theorem srcInit (len : Nat) : Statement (.srcInit len) :=
  fun _ _ => .inl ⟨_, rfl, by simp, rfl⟩

theorem srcRdBit : Statement .srcRdBit :=
  fun _ _ => .inl ⟨_, rfl, by simp, rfl⟩

theorem srcRdBits (count : BitVec 7) : Statement (.srcRdBits count) :=
  fun _ _ => .inl ⟨_, rfl, by simp, rfl⟩

theorem decBegin (len : Nat) : Statement (.decBegin len) :=
  fun _ _ => .inl ⟨_, rfl, by simp, rfl⟩

theorem decStep : Statement .decStep :=
  fun _ _ => .inl ⟨_, rfl, by simp, rfl⟩

theorem decNext : Statement .decNext :=
  fun _ _ => .inl ⟨_, rfl, by simp, rfl⟩

theorem decRun : Statement .decRun :=
  fun _ _ => .inl ⟨_, rfl, by simp, rfl⟩

theorem decSetExpect (en : Bool) (n : Nat) : Statement (.decSetExpect en n) :=
  fun _ _ => .inl ⟨_, rfl, by simp, rfl⟩

end Sys2Proof.Laws.IssuedOrFetched
end

