-- ==== Sys2Proof/Tests/Slice0.lean ====
section
/-! SUPPORT. The model's own tests: the checks of WellFormed, the decoding of words written out from the spec's tables, one
step each on vectors of `95_test_vectors.md` and `96_test_vectors_decoder.md`, and for every obligation with hypotheses a
state and operands that meet them. -/

namespace Sys2Proof.Tests

set_option Elab.async false

open Sys2Proof.Machine

/-- The default `Cfg` of the vectors. -/
def cfg0 : Cfg where
  sentinel := 0x7FF8000000000001
  tagEn := false
  tagValue := 0xA5
  leadW := .five
  windowInit := none
  obufCap := none
  ibufCap := none

/-- `cfg0` with a tag byte. -/
def cfgTag : Cfg := { cfg0 with tagEn := true }

/-- `cfg0` with small buffers. -/
def cfgSmall : Cfg := { cfg0 with obufCap := some 2, ibufCap := some 18 }

/-- `cfg0` with a Window in force from the start. -/
def cfgWin : Cfg := { cfg0 with windowInit := some (12, 40) }

/-- `cfg0` with `LEAD_W = 6`. -/
def cfg6 : Cfg := { cfg0 with leadW := .six }

/-- 1.0 -/
def one : Sample := 0x3FF0000000000000

/-- The reset state under a configuration. -/
def idle (c : Cfg) : State := { State.reset with cfg := c }

/-- A sink that holds `n` bits. -/
def sink (c : Cfg) (st : EncState) (n : Nat) (bytes : List Byte) : State :=
  { idle c with enc := { EncChannel.reset with state := st, wbits := n, obuf := Memory.ofBytes 0 bytes } }

/-- An encoder that has written `n` bits for `count` samples, the last of them 1.0. -/
def encoder (c : Cfg) (count : Nat) (w : Window) (n : Nat) (bytes : List Byte) : State :=
  { idle c with enc := { EncChannel.reset with
      state := .active, count := count, prev := if count = 0 then 0 else one, win := w, wbits := n
      obuf := Memory.ofBytes 0 bytes } }

/-- A decoder channel in a state, with nothing of the buffer read; past the first sample, 1.0, where the state says so. -/
def decoder (c : Cfg) (st : DecState) (bytes : List Byte) : State :=
  { idle c with dec := { DecChannel.reset with
      state := st
      count := if st.running && st != .awaitingFirst then 1 else 0
      prev := if st.running && st != .awaitingFirst then one else 0
      srcLen := bytes.length
      ibuf := Memory.ofBytes 0 bytes } }

/-- The decoder with a Window in force. -/
def windowed (w : Window) (s : State) : State := { s with dec := { s.dec with win := w } }

/-- A decoder channel with the low `n` bits of one byte left, `n ≤ 8`. -/
def bitsLeft (c : Cfg) (st : DecState) (n : Nat) (b : Byte) : State :=
  let s := decoder c st [b]
  { s with dec := { s.dec with srcCursor := 1, srcValid := n, srcCache := b.setWidth 64 &&& mask n } }

/-- The decoder with the expected-count check on. -/
def expecting (n : Nat) (s : State) : State := { s with dec := { s.dec with expectEn := true, expect := n } }

/-- The state after an instruction. -/
def after (i : Instr) (s : State) : State :=
  match exec i s with
  | .next t => t
  | .fault _ => s
  | .refused _ => s

/-- The bytes of 1.0. -/
def oneBytes : List Byte := [0x3F, 0xF0, 0, 0, 0, 0, 0, 0]

theorem inv_of {s : State} (h : (s.cfg.wf && encOk s.cfg s.enc && decOk s.cfg s.dec) = true) : Inv s := by
  simp only [Bool.and_eq_true] at h
  exact ⟨h.1.1, h.1.2, h.2⟩

/-! ### WellFormed refuses what is ill formed -/

theorem test_wf_default : cfg0.wf = true ∧ cfgWin.wf = true := by decide
theorem test_wf_window_lead : ({ cfg0 with windowInit := some (32, 0) } : Cfg).wf = false := by decide
theorem test_wf_window_trail : ({ cfg0 with windowInit := some (0, 64) } : Cfg).wf = false := by decide
theorem test_wf_window_sum : ({ cfg0 with windowInit := some (31, 33) } : Cfg).wf = false := by decide
theorem test_wf_window_lead_six : ({ cfg6 with windowInit := some (63, 0) } : Cfg).wf = true := by decide
theorem test_wf_tag_unused : (Instr.cwTag 0xA5).wf cfg0 Window.none = false := by decide
theorem test_wf_reuse_no_window : (Instr.cwReuse 1).wf cfg0 Window.none = false := by decide
theorem test_wf_reuse_bits : (Instr.cwReuse 0x1000).wf cfgWin ⟨true, 12, 40⟩ = false := by decide
theorem test_wf_new_lead : (Instr.cwNew 32 0 1).wf cfg0 Window.none = false := by decide
theorem test_wf_new_overrun : (Instr.cwNew 31 33 1).wf cfg0 Window.none = false := by decide
theorem test_wf_new_bits : (Instr.cwNew 0 3 0x10).wf cfg0 Window.none = false := by decide
theorem test_wf_snk_write : (Instr.snkWrite 1 65).wf cfg0 Window.none = false := by decide
theorem test_wf_src_init : (Instr.srcInit 19).wf cfgSmall Window.none = false := by decide
theorem test_wf_dec_begin : (Instr.decBegin 19).wf cfgSmall Window.none = false := by decide
theorem test_wf_rdbits_none : (Instr.srcRdBits 0).wf cfg0 Window.none = false := by decide
theorem test_wf_rdbits_many : (Instr.srcRdBits 65).wf cfg0 Window.none = false := by decide
theorem test_wf_tag_place : (Instr.cwTag 0).standsAt .data = false := by decide
theorem test_wf_pad_place : (Instr.cwPad 3).standsAt (.pad 4) = false := by decide

/-! ### Decoding: the codes of R110 and codewords written out from R92 -/
theorem test_decode_snk_init : decodeTableWord 8 0b00000000 = some .snkInit := by decide +kernel
theorem test_decode_snk_write : decodeTableWord 8 0b00000001 = some (.snkWrite 0 0) := by decide +kernel
theorem test_decode_snk_final : decodeTableWord 8 0b00000010 = some .snkFinal := by decide +kernel
theorem test_decode_enc_begin : decodeTableWord 8 0b00000100 = some .encBegin := by decide +kernel
theorem test_decode_enc_sample : decodeTableWord 8 0b00000101 = some (.encSample 0) := by decide +kernel
theorem test_decode_enc_end : decodeTableWord 8 0b00000110 = some .encEnd := by decide +kernel
theorem test_decode_src_init : decodeTableWord 8 0b00010000 = some (.srcInit 0) := by decide +kernel
theorem test_decode_src_rdbit : decodeTableWord 8 0b00010001 = some .srcRdBit := by decide +kernel
theorem test_decode_src_rdbits : decodeTableWord 8 0b00010010 = some (.srcRdBits 0) := by decide +kernel
theorem test_decode_dec_begin : decodeTableWord 8 0b00010100 = some (.decBegin 0) := by decide +kernel
theorem test_decode_dec_step : decodeTableWord 8 0b00010101 = some .decStep := by decide +kernel
theorem test_decode_dec_next : decodeTableWord 8 0b00010110 = some .decNext := by decide +kernel
theorem test_decode_dec_run : decodeTableWord 8 0b00010111 = some .decRun := by decide +kernel
theorem test_decode_dec_set_expect : decodeTableWord 8 0b00011000 = some (.decSetExpect false 0) := by decide +kernel
theorem test_decode_unknown : decodeTableWord 8 0b00000011 = none := by decide +kernel

/-- The code's operand lanes reach the operands. -/
theorem test_decode_operands :
    decodeIssue { code := 0x01, value := 5, count := 3 } = .ok (.snkWrite 5 3) ∧
      decodeIssue { code := 0x14, len := 18 } = .ok (.decBegin 18) ∧
      decodeIssue { code := 0x18, en := true, n := 7 } = .ok (.decSetExpect true 7) := by decide +kernel

/-- Byte 0 of V28: `TAG 0xA5`. -/
theorem test_decode_tag :
    decodeCodeword cfgTag Window.none .tag (byteBits 0b10100101) = .ok (.cwTag 0xA5, []) := by decide +kernel

/-- Bytes 0 to 7 of V21: `FIRST 0x3FF0000000000000`. -/
theorem test_decode_first :
    decodeCodeword cfg0 Window.none .first (oneBytes.flatMap byteBits) = .ok (.cwFirst one, []) := by decide +kernel

/-- `0`. -/
theorem test_decode_repeat :
    decodeCodeword cfg0 Window.none .data [false, true] = .ok (.cwRepeat, [true]) := by decide +kernel

/-- V29: `10` and 12 bits, `REUSE bits=0xABC`, the bytes `AA F3`; two bits of the next codeword are left. -/
theorem test_decode_reuse :
    decodeCodeword cfgWin ⟨true, 12, 40⟩ .data (byteBits 0b10101010 ++ byteBits 0b11110011)
      = .ok (.cwReuse 0xABC, [true, true]) := by decide +kernel

/-- V23: `11 00001 001010` and 11 ones, `NEW lead=1 len=10 bits=0x7FF`, the bytes `C2 57 FF`. -/
theorem test_decode_new :
    decodeCodeword cfg0 Window.none .data (byteBits 0b11000010 ++ byteBits 0b01010111 ++ byteBits 0b11111111)
      = .ok (.cwNew 1 10 0x7FF, []) := by decide +kernel

/-- V77, `LEAD_W = 6`: `11 111111 000000 1`, `NEW lead=63 len=0 bits=1`, and a `REPEAT` behind it. -/
theorem test_decode_new_six :
    decodeCodeword cfg6 Window.none .data (byteBits 0b11111111 ++ byteBits 0b00000010)
      = .ok (.cwNew 63 0 1, [false]) := by decide +kernel

/-- V21: four zero bits of padding. -/
theorem test_decode_pad :
    decodeCodeword cfg0 Window.none (.pad 4) [false, false, false, false] = .ok (.cwPad 4, []) := by decide +kernel

/-- V55, V56: the two malformed codewords. -/
theorem test_decode_malformed :
    decodeCodeword cfg0 Window.none .data [true, false] = .error .reuseWithoutWindow ∧
      decodeCodeword cfg0 Window.none .data (byteBits 0xFF ++ byteBits 0xF8) = .error .windowTooWide := by decide +kernel

/-- The encoder of the words gives V23's bytes back. -/
theorem test_encode_new :
    encodeCodeword cfg0 Window.none (.cwNew 1 10 0x7FF)
      = some (byteBits 0b11000010 ++ byteBits 0b01010111 ++ byteBits 0b11111111) := by decide +kernel

/-- A table word longer than a byte is a codeword, its first byte the low one (log 11). -/
theorem test_table_codewords :
    decodeTableWord 64 0xF03F = some (.cwFirst one) ∧
      decodeTableWord 24 0xFF57C2 = some (.cwNew 1 10 0x7FF) ∧ decodeTableWord 72 0x80 = some (.cwReuse 0) := by
  decide +kernel

/-- What a step runs first after reset: the operation, and through `DEC_NEXT` the codeword. -/
theorem test_fetch_operation :
    step (State.reset.withFetchWord 8 0x05) = exec (.encSample 0) { State.reset with pending := [] } := rfl

theorem test_fetch_codeword :
    fetchCodeword cfg0 (((idle cfg0).withFetchWord 24 0xFF57C2).dec)
      = some (.ok (.cwNew 1 10 0x7FF, List.replicate 56 false)) := by decide +kernel

/-! ### One step, from the vectors -/

/-- V1. -/
theorem test_snk_write_v1 :
    (after (.snkWrite 0xFF 8) (sink cfg0 .raw 3 [0xA0])).resp = some (.ok .unit) ∧
      obufBytes (after (.snkWrite 0xFF 8) (sink cfg0 .raw 3 [0xA0])).enc = [0xBF, 0xE0] := by decide +kernel

/-- V3. -/
theorem test_snk_write_v3 :
    obufBytes (after (.snkWrite 0x0123456789ABCDEF 64) (sink cfg0 .raw 3 [0xC0])).enc
      = [0xC0, 0x24, 0x68, 0xAC, 0xF1, 0x35, 0x79, 0xBD, 0xE0] := by decide +kernel

/-- V8: the write that does not fit writes nothing; V7: in `IDLE` it is refused. -/
theorem test_snk_write_v8 :
    (after (.snkWrite 0xFFFFF 7) (sink cfgSmall .raw 10 [0xAB, 0xC0])).resp
        = some (.err .capacityExceeded .noCause) ∧
      (after (.snkWrite 0xFFFFF 7) (sink cfgSmall .raw 10 [0xAB, 0xC0])).enc.wbits = 10 ∧
      (after (.snkWrite 1 1) (idle cfg0)).resp = some .refused := by decide +kernel

/-- V8: `SNK_INIT` clears the error and the sink. -/
theorem test_snk_init_v8 :
    (after .snkInit (sink cfgSmall .done 10 [0xAB, 0xC0])).enc.wbits = 0 ∧
      (after .snkInit (sink cfgSmall .done 10 [0xAB, 0xC0])).enc.state = .raw := by decide +kernel

/-- V1: `Ok(2)` for 11 bits. -/
theorem test_snk_final_v1 :
    (after .snkFinal (sink cfg0 .raw 11 [0xBF, 0xE0])).resp = some (.ok (.length 2)) := by decide +kernel

/-- V29: the begin loads `WINDOW_INIT`. -/
theorem test_enc_begin_v29 :
    (after .encBegin (idle cfgWin)).enc.win = ⟨true, 12, 40⟩ ∧
      (after .encBegin (idle cfgWin)).enc.state = .active := by decide +kernel

/-- V28: the tag byte and the first value. -/
theorem test_enc_sample_v28 :
    obufBytes (after (.encSample one) (encoder cfgTag 0 Window.none 0 [])).enc = 0xA5 :: oneBytes := by decide +kernel

/-- V24, third value: 1.0 and a delta of `0x600` under the Window (31, 8) is a `REUSE` of 25 bits. -/
theorem test_enc_sample_v24 :
    (after (.encSample 0x3FF0000000000600) (encoder cfg0 2 ⟨true, 31, 8⟩ 64 oneBytes)).resp
      = some (.ok (.codeword ⟨.reuse, 27⟩)) := by decide +kernel

/-- V21: the terminal codeword. -/
theorem test_enc_end_v21 :
    (after .encEnd (encoder cfg0 1 Window.none 64 oneBytes)).resp = some (.ok (.length 18)) ∧
      obufBytes (after .encEnd (encoder cfg0 1 Window.none 64 oneBytes)).enc
        = oneBytes ++ [0xC3, 0xF4, 0x00, 0x80, 0x00, 0x00, 0x00, 0x00, 0x00, 0x10] := by decide +kernel

/-- R9: the mask at its ends. -/
theorem test_mask : mask 0 = 0 ∧ mask 5 = 0x1F ∧ mask 63 = 0x7FFFFFFFFFFFFFFF ∧ mask 64 = 0xFFFFFFFFFFFFFFFF := by
  decide +kernel

/-- R140: `SRC_INIT` beyond `IBUF_CAP` is refused. -/
theorem test_src_init :
    (after (.srcInit 18) (idle cfgSmall)).dec.srcLen = 18 ∧
      (after (.srcInit 19) (idle cfgSmall)).resp = some .refused := by decide +kernel

/-- V11, the first bit of `A5`; the cache keeps the 7 bits `0x25`. -/
theorem test_src_rdbit_v11 :
    (after .srcRdBit (decoder cfg0 .raw [0xA5])).resp = some (.ok (.bit true)) ∧
      (after .srcRdBit (decoder cfg0 .raw [0xA5])).dec.srcCache = 0x25 := by decide +kernel

/-- V12: the short refill. -/
theorem test_src_rdbits_v12 :
    (after (.srcRdBits 12) (decoder cfg0 .raw [0xAB, 0xCD, 0xEF])).resp = some (.ok (.value 0xABC)) ∧
      (after (.srcRdBits 12) (decoder cfg0 .raw [0xAB, 0xCD, 0xEF])).dec.srcCache = 0xDEF := by decide +kernel

/-- V10: the 60-bit read empties the cache, and the refill waits for the next bit. -/
theorem test_src_rdbits_v10 :
    let s := after (.srcRdBits 60) (after (.srcRdBits 4) (decoder cfg0 .raw [0xA5, 0, 0, 0, 0, 0, 0, 1, 0xFF]))
    s.resp = some (.ok (.value 0x500000000000001)) ∧ (s.dec.srcCursor, s.dec.srcValid, s.dec.srcCache) = (8, 0, 0) := by
  decide +kernel

/-- V14: 60 bits of the cache, 4 of the next refill. -/
theorem test_src_rdbits_v14 :
    let s := after (.srcRdBits 64) (after (.srcRdBits 4) (decoder cfg0 .raw
      [0x10, 0x11, 0x12, 0x13, 0x14, 0x15, 0x16, 0x17, 0x18, 0x19, 0x1A, 0x1B, 0x1C, 0x1D, 0x1E, 0x1F]))
    (s.dec.srcCursor, s.dec.srcValid, s.dec.srcCache) = (16, 60, 0x8191A1B1C1D1E1F) := by decide +kernel

/-- V13: a failed read consumes nothing. -/
theorem test_src_rdbits_v13 :
    (after (.srcRdBits 17) (decoder cfg0 .raw [0xFF, 0xC0])).resp = some (.err .unexpectedEof .rawRead) ∧
      (after (.srcRdBits 17) (decoder cfg0 .raw [0xFF, 0xC0])).dec.srcCursor = 0 := by decide +kernel

/-- V71: the begin loads `WINDOW_INIT`. -/
theorem test_dec_begin_v71 :
    (after (.decBegin 20) (idle cfgWin)).dec.win = ⟨true, 12, 40⟩ ∧
      (after (.decBegin 20) (idle cfgWin)).dec.state = .awaitingFirst := by decide +kernel

/-- V56: `11111 111111` behind the control bits is a `WINDOW_OVERRUN`; 11 bits stay consumed. -/
theorem test_dec_step_v56 :
    (after .decStep (decoder cfg0 .newWindow [0xFF, 0xE0])).resp = some (.err .unexpectedEof .windowOverrun) ∧
      srcRpos (after .decStep (decoder cfg0 .newWindow [0xFF, 0xE0])).dec = 11 := by decide +kernel

/-- V57: `11111 100000` is the Window (31, 0) with `DEC_M = 33`. -/
theorem test_dec_step_v57 :
    (after .decStep (decoder cfg0 .newWindow [0xFC, 0x00])).dec.win = ⟨true, 31, 0⟩ ∧
      (after .decStep (decoder cfg0 .newWindow [0xFC, 0x00])).dec.m = 33 := by decide +kernel

/-- V55: a `REUSE` with no Window; `SRC_RPOS` past both control bits. -/
theorem test_dec_next_v55 :
    (after .decNext (decoder cfg0 .readingControlA [0x80])).resp = some (.err .unexpectedEof .noWindow) ∧
      (after .decNext (decoder cfg0 .readingControlA [0x80])).dec.err.word = 0x62 := by decide +kernel

/-- V51: the whole of V21. -/
theorem test_dec_run_v51 :
    (after .decRun (decoder cfg0 .awaitingFirst
      (oneBytes ++ [0xC3, 0xF4, 0x00, 0x80, 0x00, 0x00, 0x00, 0x00, 0x00, 0x10]))).resp
        = some (.ok (.samples [one])) := by decide +kernel

/-- V66: the empty buffer with a count expected, and with the count 0 expected. -/
theorem test_dec_run_v66 :
    (after .decRun (expecting 1 (decoder cfg0 .awaitingFirst []))).resp
        = some (.err .invariantViolation .noCause) ∧
      (after .decRun (expecting 0 (decoder cfg0 .awaitingFirst []))).resp = some (.ok (.samples [])) := by decide +kernel

theorem test_dec_set_expect :
    (after (.decSetExpect true 7) (decoder cfg0 .done [])).dec.expect = 7 := by decide +kernel

/-- V28, V68: the tag is latched. -/
theorem test_cw_tag_v68 :
    (after (.cwTag 0xA5) (decoder cfgTag .awaitingFirst (0xA5 :: oneBytes))).dec.tag = 0xA5 := by decide +kernel

theorem test_cw_first_v51 :
    (after (.cwFirst one) (decoder cfg0 .awaitingFirst oneBytes)).resp = some (.ok (.sample one)) := by decide +kernel

/-- R95: the value again. -/
theorem test_cw_repeat :
    (after .cwRepeat (decoder cfg0 .readingControlA [0x00])).resp = some (.ok (.sample one)) := by decide +kernel

/-- V29: `REUSE bits=0xABC` under (12, 40) after 1.0. -/
theorem test_cw_reuse_v29 :
    (after (.cwReuse 0xABC) (windowed ⟨true, 12, 40⟩ (decoder cfgWin .readingControlA [0xAA, 0xF3]))).resp
      = some (.ok (.sample 0x3FFABC0000000000)) := by decide +kernel

/-- V23: `NEW lead=1 len=10 bits=0x7FF` after 1.0 is 2.0, the Window (1, 52). -/
theorem test_cw_new_v23 :
    (after (.cwNew 1 10 0x7FF) (decoder cfg0 .readingControlA [0xC2, 0x57, 0xFF])).resp
        = some (.ok (.sample 0x4000000000000000)) ∧
      (after (.cwNew 1 10 0x7FF) (decoder cfg0 .readingControlA [0xC2, 0x57, 0xFF])).dec.win = ⟨true, 1, 52⟩ := by
  decide +kernel

/-- V21: four bits of padding, which nothing reads. -/
theorem test_cw_pad_v21 :
    (after (.cwPad 4) (bitsLeft cfg0 .done 4 0x10)).resp = some (.ok .unit) ∧
      srcRpos (after (.cwPad 4) (bitsLeft cfg0 .done 4 0x10)).dec = 4 := by decide +kernel

/-- V24, by the composition of R168. -/
theorem test_codec_v24 :
    encode [one, 0x3FF0000000000F00, 0x3FF0000000000900] (idle cfg0)
      = some (.ok (oneBytes ++ [0xFE, 0xC0, 0x00, 0x00, 0x3E, 0x00, 0x00, 0x03, 0x61, 0xFA, 0x00, 0x40, 0x00, 0x00,
          0x00, 0x00, 0x48, 0x08])) := by decide +kernel

/-- What the host reads by index: V8's `ENC_ERR = 0x04`, `SNK_WBITS` and `SNK_LEN`, the bytes of `OBUF` below it. -/
theorem test_host_read_enc :
    hostReadEnc 1 (after (.snkWrite 0xFFFFF 7) (sink cfgSmall .raw 10 [0xAB, 0xC0])) = some 0x04 ∧
      hostReadEnc 5 (sink cfg0 .raw 11 [0xBF, 0xE0]) = some 11 ∧ hostReadEnc 6 (sink cfg0 .raw 11 [0xBF, 0xE0]) = some 2 ∧
      hostReadObuf 1 (sink cfg0 .raw 11 [0xBF, 0xE0]) = some 0xE0 ∧
      hostReadObuf 2 (sink cfg0 .raw 11 [0xBF, 0xE0]) = none := by decide +kernel

/-- V55: `DEC_ERR = 0x62`, `SRC_RPOS = 2`; V57: the Window (31, 0) is `DEC_WIN = 0x17C0`. -/
theorem test_host_read_dec :
    hostReadDec 1 (after .decNext (decoder cfg0 .readingControlA [0x80])) = some 0x62 ∧
      hostReadDec 14 (after .decNext (decoder cfg0 .readingControlA [0x80])) = some 2 ∧
      hostReadDec 4 (after .decStep (decoder cfg0 .newWindow [0xFC, 0x00])) = some 0x17C0 := by decide +kernel

/-- A write of the host beyond `IBUF_CAP` faults (log 9); an ill-formed `Cfg` is refused (log 2). -/
theorem test_stops :
    step { idle cfgSmall with pending := [.writeIbuf 18 0] } = .fault .ibufAddressAbsent ∧
      exec .decStep (idle { cfg0 with windowInit := some (32, 0) }) = .refused .illFormedCfg := ⟨rfl, rfl⟩

/-! ### The hypotheses of the obligations are met

One theorem for each clause; the state and the operands are those a reader finds in its statement. -/

theorem witness_StepRunsIssuedOperation :
    ({ idle cfg0 with pending := [.op { code := 0x05, value := one }] } : State).pending
        = .op { code := 0x05, value := one } :: [] ∧
      decodeIssue { code := 0x05, value := one } = .ok (.encSample one) ∧
      (0x03#8 ∉ [0x00#8, 0x01#8, 0x02#8, 0x04#8, 0x05#8, 0x06#8, 0x10#8, 0x11#8, 0x12#8, 0x14#8, 0x15#8, 0x16#8,
        0x17#8, 0x18#8]) := by decide +kernel

theorem witness_HostWriteStoresOneByte :
    ({ idle cfgSmall with pending := [.writeIbuf 17 0xFF] } : State).pending = .writeIbuf 17 0xFF :: [] ∧
      ∀ k, cfgSmall.ibufCap = some k → 17 < k :=
  ⟨rfl, fun k h => by cases h; decide⟩

theorem witness_ResetGivesResetValues :
    ({ idle cfgWin with pending := [.powerOn] } : State).pending = .powerOn :: [] := rfl

theorem witness_WrittenOutEncodingsDecode :
    ({ code := 0b00000001#8 } : Issue).code = 0b00000001#8 ∧ cfg0.leadW = .five ∧ cfg6.leadW = .six := by decide +kernel

theorem witness_IssueDecodeInvertsEncode :
    encodeIssue (.srcRdBits 64) = some { code := 0x12, count := 64 } := by decide +kernel

theorem witness_CodewordDecodeInvertsEncode :
    (Instr.cwNew 31 32 0x1FFFFFFFF).standsAt .data = true ∧
      (Instr.cwNew 31 32 0x1FFFFFFFF).wf cfg0 Window.none = true ∧
      (encodeCodeword cfg0 Window.none (.cwNew 31 32 0x1FFFFFFFF)).isSome = true := by decide +kernel

theorem witness_CodewordEncodeInvertsDecode :
    windowOk cfg0 ⟨true, 31, 32⟩ = true ∧
      decodeCodeword cfg0 ⟨true, 31, 32⟩ .data [true, false, true, false] = .ok (.cwReuse 1, [false]) := by decide +kernel

theorem witness_StepKeepsInvariant :
    Inv { decoder cfg0 .readingControlA [0x80] with pending := [.op { code := 0x16 }] } ∧
      ∃ t, step { decoder cfg0 .readingControlA [0x80] with pending := [.op { code := 0x16 }] } = .next t :=
  ⟨inv_of (by decide +kernel), _, rfl⟩

/-- A source that has read the first four bits of `A5`. -/
def halfRead : State := after (.srcRdBits 4) (decoder cfg0 .raw [0xA5])


theorem witness_OperationsKeepCacheMirror :
    Inv halfRead ∧ CacheMirrors halfRead.dec ∧ halfRead.dec.srcValid = 4 ∧ ∃ t, exec .srcRdBit halfRead = .next t := by
  refine ⟨inv_of (by decide +kernel), ?_, by decide +kernel, _, rfl⟩
  have h : ∀ i, i < 4 → halfRead.dec.srcCache.getLsbD (halfRead.dec.srcValid - 1 - i)
      = streamBit (ibufByte halfRead.dec) (srcRpos halfRead.dec + i) := by decide +kernel
  exact fun i hi => h i hi

theorem witness_UnreadPartIsTheStreamFromRpos :
    Inv halfRead ∧ CacheMirrors halfRead.dec :=
  ⟨witness_OperationsKeepCacheMirror.1, witness_OperationsKeepCacheMirror.2.1⟩

theorem witness_StepKeepsConfiguration :
    ∃ t, step { idle cfgWin with pending := [.powerOn] } = .next t := ⟨_, rfl⟩

theorem witness_EncoderOperationsOwnTheirChannel :
    isEncoderOp (.encSample one) = true ∧
      (encoder cfg0 0 Window.none 0 []).enc = { encoder cfg0 0 Window.none 0 [] with dec := halfRead.dec }.enc ∧
      ∃ t, exec (.encSample one) (encoder cfg0 0 Window.none 0 []) = .next t := ⟨rfl, rfl, _, rfl⟩

theorem witness_DecoderOperationsOwnTheirChannel :
    isEncoderOp .srcRdBit = false ∧
      halfRead.dec = { halfRead with enc := (sink cfg0 .raw 3 [0xA0]).enc }.dec ∧ ∃ t, exec .srcRdBit halfRead = .next t := ⟨rfl, rfl, _, rfl⟩

theorem witness_WindowChangesOnlyByNew :
    (∃ t, exec (.encSample one) (encoder cfg0 1 ⟨true, 31, 8⟩ 64 oneBytes) = .next t ∧
        t.resp = some (.ok (.codeword ⟨.repeated, 1⟩))) ∧
      Inv (decoder cfg0 .readingControlA [0x80]) ∧
      ∃ t, exec .decStep (decoder cfg0 .readingControlA [0x80]) = .next t :=
  ⟨⟨_, rfl, by decide +kernel⟩, inv_of (by decide +kernel), _, rfl⟩

theorem witness_ZeroCountsCountZeros :
    (1 : Sample) ≠ 0 ∧ clz64 1 = 63 ∧ ctz64 0x8000000000000000 = 63 := by decide +kernel

theorem witness_RegisterWordsHaveTheirFields :
    windowOk cfg6 ⟨true, 63, 0⟩ = true ∧ windowOk cfg0 ⟨true, 0, 63⟩ = true ∧ windowOk cfg0 Window.none = true := by decide +kernel

theorem witness_RegisterWordsHaveTheirFields_obuf :
    Inv (sink cfg0 .raw 11 [0xBF, 0xE0]) ∧
      1 < ((sink cfg0 .raw 11 [0xBF, 0xE0]).enc.wbits + 7) / 8 ∧ ((sink cfg0 .raw 11 [0xBF, 0xE0]).enc.wbits + 7) / 8 ≤ 2 :=
  ⟨inv_of (by decide +kernel), by decide +kernel⟩

theorem witness_SnkInitOpensEmptySink :
    ({ idle { cfg0 with windowInit := some (31, 32) } with resp := none } : State).cfg.wf = true := by decide +kernel

theorem witness_SnkWriteAppendsField_refused :
    Inv (sink cfg0 .raw 3 [0xA0]) ∧ (65#7).toNat > 64 ∧ (idle cfg0).enc.state ≠ .raw :=
  ⟨inv_of (by decide +kernel), by decide +kernel⟩

theorem witness_SnkWriteAppendsField_full :
    Inv (sink cfgSmall .raw 10 [0xAB, 0xC0]) ∧ (sink cfgSmall .raw 10 [0xAB, 0xC0]).enc.state = .raw ∧
      (7#7).toNat ≤ 64 ∧ fits cfgSmall (sink cfgSmall .raw 10 [0xAB, 0xC0]).enc (7#7).toNat = false :=
  ⟨inv_of (by decide +kernel), by decide +kernel⟩

theorem witness_SnkWriteAppendsField_fits :
    Inv (sink cfgSmall .raw 10 [0xAB, 0xC0]) ∧ (sink cfgSmall .raw 10 [0xAB, 0xC0]).enc.state = .raw ∧
      (6#7).toNat ≤ 64 ∧ (64#7).toNat ≤ 64 ∧ fits cfgSmall (sink cfgSmall .raw 10 [0xAB, 0xC0]).enc (6#7).toNat = true :=
  ⟨inv_of (by decide +kernel), by decide +kernel⟩

theorem witness_SnkFinalAnswersLength :
    (sink cfg0 .raw 11 [0xBF, 0xE0]).enc.state = .raw ∧ (idle cfg0).enc.state ≠ .raw ∧ cfg0.wf = true := by decide +kernel

theorem witness_EncBeginStartsEncode :
    (idle cfgWin).cfg.wf = true ∧ (idle cfg0).cfg.wf = true := by decide +kernel

theorem witness_EncSampleWritesFirstValueWhole :
    Inv (encoder { cfgTag with obufCap := some 9 } 0 Window.none 0 []) ∧
      (encoder { cfgTag with obufCap := some 9 } 0 Window.none 0 []).enc.state = .active ∧ one ≠ cfgTag.sentinel ∧
      fits { cfgTag with obufCap := some 9 } (encoder { cfgTag with obufCap := some 9 } 0 Window.none 0 []).enc
        (64 + 8 * cfgTag.tagBytes) = true :=
  ⟨inv_of (by decide +kernel), by decide +kernel⟩

theorem witness_EncSampleOfEqualValueWritesRepeat :
    Inv (encoder cfg0 1 Window.none 64 oneBytes) ∧
      (encoder cfg0 1 Window.none 64 oneBytes).enc.state = .active ∧ (encoder cfg0 1 Window.none 64 oneBytes).enc.count ≠ 0 ∧
      fits cfg0 (encoder cfg0 1 Window.none 64 oneBytes).enc 1 = true :=
  ⟨inv_of (by decide +kernel), by decide +kernel⟩

theorem witness_EncSampleInsideWindowWritesReuse :
    Inv (encoder cfg0 2 ⟨true, 31, 9⟩ 64 oneBytes) ∧
      0x3FF0000000000600 ≠ cfg0.sentinel ∧ (0x3FF0000000000600 : Sample) ≠ one ∧
      31 ≤ min (clz64 (0x3FF0000000000600 ^^^ one)) cfg0.leadMax ∧ 9 ≤ ctz64 (0x3FF0000000000600 ^^^ one) ∧
      fits cfg0 (encoder cfg0 2 ⟨true, 31, 9⟩ 64 oneBytes).enc (2 + (64 - 31 - 9)) = true :=
  ⟨inv_of (by decide +kernel), by decide +kernel⟩

theorem witness_EncSampleOutsideWindowWritesNew :
    Inv (encoder cfg0 2 ⟨true, 31, 10⟩ 64 oneBytes) ∧
      0x3FF0000000000600 ≠ cfg0.sentinel ∧ (0x3FF0000000000600 : Sample) ≠ one ∧
      ctz64 (0x3FF0000000000600 ^^^ one) < 10 ∧
      fits cfg0 (encoder cfg0 2 ⟨true, 31, 10⟩ 64 oneBytes).enc (2 + 5 + 6 + 24) = true :=
  ⟨inv_of (by decide +kernel), by decide +kernel⟩

theorem witness_EncSampleOfSentinelCollides :
    (encoder cfg0 1 Window.none 64 oneBytes).enc.state = .active ∧ cfg0.wf = true := by decide +kernel

theorem witness_CodewordBeyondCapacityRaises_first :
    Inv (encoder { cfg0 with obufCap := some 7 } 0 Window.none 0 []) ∧
      fits { cfg0 with obufCap := some 7 } (encoder { cfg0 with obufCap := some 7 } 0 Window.none 0 []).enc
        (64 + 8 * cfg0.tagBytes) = false ∧ one ≠ cfg0.sentinel :=
  ⟨inv_of (by decide +kernel), by decide +kernel⟩

theorem witness_CodewordBeyondCapacityRaises_repeat :
    Inv (encoder { cfg0 with obufCap := some 8 } 1 Window.none 64 oneBytes) ∧
      fits { cfg0 with obufCap := some 8 } (encoder { cfg0 with obufCap := some 8 } 1 Window.none 64 oneBytes).enc 1
        = false :=
  ⟨inv_of (by decide +kernel), by decide +kernel⟩

theorem witness_CodewordBeyondCapacityRaises_reuse :
    Inv (encoder { cfg0 with obufCap := some 11 } 2 ⟨true, 31, 9⟩ 64 oneBytes) ∧
      fits { cfg0 with obufCap := some 11 } (encoder { cfg0 with obufCap := some 11 } 2 ⟨true, 31, 9⟩ 64 oneBytes).enc
        (2 + (64 - 31 - 9)) = false ∧
      31 ≤ min (clz64 0x600) cfg0.leadMax ∧ 9 ≤ ctz64 0x600 ∧ 0x3FF0000000000600 = one ^^^ 0x600 :=
  ⟨inv_of (by decide +kernel), by decide +kernel⟩

theorem witness_CodewordBeyondCapacityRaises_new :
    Inv (encoder { cfg0 with obufCap := some 17 } 1 Window.none 64 oneBytes) ∧
      fits { cfg0 with obufCap := some 17 } (encoder { cfg0 with obufCap := some 17 } 1 Window.none 64 oneBytes).enc
        (2 + 5 + 6 + (64 - min (clz64 0x4008000000000001) cfg0.leadMax - ctz64 0x4008000000000001)) = false ∧
      cfg0.sentinel = one ^^^ 0x4008000000000001 :=
  ⟨inv_of (by decide +kernel), by decide +kernel⟩

theorem witness_EncEndWritesTerminalCodeword_empty :
    Inv (encoder cfg0 0 Window.none 0 []) ∧ (encoder cfg0 0 Window.none 0 []).enc.count = 0 :=
  ⟨inv_of (by decide +kernel), by decide +kernel⟩

theorem witness_EncEndWritesTerminalCodeword_reuse :
    Inv (encoder cfg0 1 ⟨true, 1, 0⟩ 64 oneBytes) ∧
      1 ≤ min (clz64 (cfg0.sentinel ^^^ one)) cfg0.leadMax ∧ 0 ≤ ctz64 (cfg0.sentinel ^^^ one) ∧
      fits cfg0 (encoder cfg0 1 ⟨true, 1, 0⟩ 64 oneBytes).enc (2 + (64 - 1 - 0)) = true :=
  ⟨inv_of (by decide +kernel), by decide +kernel⟩

theorem witness_EncEndWritesTerminalCodeword_new :
    Inv (encoder cfg0 1 ⟨true, 2, 0⟩ 64 oneBytes) ∧
      ¬ 2 ≤ min (clz64 (cfg0.sentinel ^^^ one)) cfg0.leadMax ∧
      fits cfg0 (encoder cfg0 1 ⟨true, 2, 0⟩ 64 oneBytes).enc (2 + 5 + 6 + 63) = true :=
  ⟨inv_of (by decide +kernel), by decide +kernel⟩

theorem witness_SrcInitConstructsSource :
    cfgSmall.wf = true ∧ cfgSmall.ibufCap = some 18 ∧ 18 ≤ 18 ∧ 18 < 19 := by decide +kernel

theorem witness_SrcRdBitAnswersNextBit_refused :
    Inv (idle cfg0) ∧ (idle cfg0).dec.state ≠ .raw :=
  ⟨inv_of (by decide +kernel), by decide +kernel⟩

theorem witness_SrcRdBitAnswersNextBit_end :
    Inv (decoder cfg0 .raw []) ∧ unreadBits (decoder cfg0 .raw []).dec = [] :=
  ⟨inv_of (by decide +kernel), by decide +kernel⟩

theorem witness_SrcRdBitAnswersNextBit_bit :
    Inv (halfRead) ∧ halfRead.dec.state = .raw ∧ unreadBits halfRead.dec = false :: [true, false, true] :=
  ⟨inv_of (by decide +kernel), by decide +kernel⟩

theorem witness_SrcRdBitsAnswersField_refused :
    Inv (decoder cfg0 .raw [0xFF]) ∧ (0#7).toNat = 0 ∧ (65#7).toNat > 64 :=
  ⟨inv_of (by decide +kernel), by decide +kernel⟩

theorem witness_SrcRdBitsAnswersField_short :
    Inv (halfRead) ∧ halfRead.dec.state = .raw ∧ (unreadBits halfRead.dec).length < (5#7).toNat :=
  ⟨inv_of (by decide +kernel), by decide +kernel⟩

theorem witness_SrcRdBitsAnswersField_field :
    Inv (halfRead) ∧ halfRead.dec.state = .raw ∧ (4#7).toNat ≤ (unreadBits halfRead.dec).length :=
  ⟨inv_of (by decide +kernel), by decide +kernel⟩

theorem witness_DecBeginStartsDecode :
    cfgSmall.wf = true ∧ cfgSmall.ibufCap = some 18 ∧ 18 ≤ 18 ∧ 18 < 19 := by decide +kernel

theorem witness_DecStepAwaitingFirst_empty :
    Inv (expecting 1 (decoder cfg0 .awaitingFirst [])) ∧
      (expecting 1 (decoder cfg0 .awaitingFirst [])).dec.srcLen = 0 ∧
      (expecting 1 (decoder cfg0 .awaitingFirst [])).dec.expectEn = true ∧
      (decoder cfg0 .awaitingFirst []).dec.expectEn = false :=
  ⟨inv_of (by decide +kernel), by decide +kernel⟩

theorem witness_DecStepAwaitingFirst_noTag :
    Inv (bitsLeft cfgTag .awaitingFirst 4 0xA5) ∧
      (bitsLeft cfgTag .awaitingFirst 4 0xA5).dec.srcLen ≠ 0 ∧
      (unreadBits (bitsLeft cfgTag .awaitingFirst 4 0xA5).dec).length < 8 * cfgTag.tagBytes :=
  ⟨inv_of (by decide +kernel), by decide +kernel⟩

theorem witness_DecStepAwaitingFirst_short :
    Inv (decoder cfgTag .awaitingFirst [0xA5, 0x3F]) ∧
      (decoder cfgTag .awaitingFirst [0xA5, 0x3F]).dec.srcLen ≠ 0 ∧
      8 * cfgTag.tagBytes ≤ (unreadBits (decoder cfgTag .awaitingFirst [0xA5, 0x3F]).dec).length ∧
      (unreadBits (decoder cfgTag .awaitingFirst [0xA5, 0x3F]).dec).length < 8 * cfgTag.tagBytes + 64 :=
  ⟨inv_of (by decide +kernel), by decide +kernel⟩

theorem witness_DecStepAwaitingFirst_short_noTag :
    Inv (decoder cfg0 .awaitingFirst [0x3F]) ∧
      cfg0.tagEn = false ∧ (decoder cfg0 .awaitingFirst [0x3F]).dec.srcLen ≠ 0 ∧
      8 * cfg0.tagBytes ≤ (unreadBits (decoder cfg0 .awaitingFirst [0x3F]).dec).length ∧
      (unreadBits (decoder cfg0 .awaitingFirst [0x3F]).dec).length < 8 * cfg0.tagBytes + 64 :=
  ⟨inv_of (by decide +kernel), by decide +kernel⟩

theorem witness_DecStepAwaitingFirst_sample :
    Inv (decoder cfgTag .awaitingFirst (0xA5 :: oneBytes)) ∧
      8 * cfgTag.tagBytes + 64 ≤ (unreadBits (decoder cfgTag .awaitingFirst (0xA5 :: oneBytes)).dec).length :=
  ⟨inv_of (by decide +kernel), by decide +kernel⟩

theorem witness_DecStepReadingControlBits_a_end :
    Inv (decoder cfg0 .readingControlA []) ∧ unreadBits (decoder cfg0 .readingControlA []).dec = [] :=
  ⟨inv_of (by decide +kernel), by decide +kernel⟩

theorem witness_DecStepReadingControlBits_a_bit :
    Inv (decoder cfg0 .readingControlA [0x80]) ∧
      unreadBits (decoder cfg0 .readingControlA [0x80]).dec = true :: List.replicate 7 false :=
  ⟨inv_of (by decide +kernel), by decide +kernel⟩

theorem witness_DecStepReadingControlBits_b_end :
    Inv (decoder cfg0 .readingControlB []) ∧ unreadBits (decoder cfg0 .readingControlB []).dec = [] :=
  ⟨inv_of (by decide +kernel), by decide +kernel⟩

theorem witness_DecStepReadingControlBits_b_bit :
    Inv (decoder cfg0 .readingControlB [0x80]) ∧
      unreadBits (decoder cfg0 .readingControlB [0x80]).dec = true :: List.replicate 7 false :=
  ⟨inv_of (by decide +kernel), by decide +kernel⟩

theorem witness_DecStepRepeat :
    (decoder cfg0 .repeating []).cfg.wf = true ∧ (decoder cfg0 .repeating []).dec.state = .repeating := by decide +kernel

theorem witness_DecStepReuseWindow :
    (decoder cfg0 .reuseWindow []).dec.state = .reuseWindow ∧ (decoder cfg0 .reuseWindow []).dec.win.valid = false ∧
      (windowed ⟨true, 31, 32⟩ (decoder cfg0 .reuseWindow [])).dec.win.valid = true := by decide +kernel

theorem witness_DecStepNewWindow_lead :
    Inv (windowed ⟨true, 1, 0⟩ (decoder cfg0 .newWindow [])) ∧
      (unreadBits (windowed ⟨true, 1, 0⟩ (decoder cfg0 .newWindow [])).dec).length < cfg0.leadW.bits :=
  ⟨inv_of (by decide +kernel), by decide +kernel⟩

theorem witness_DecStepNewWindow_len :
    Inv (decoder cfg0 .newWindow [0xFF]) ∧
      cfg0.leadW.bits ≤ (unreadBits (decoder cfg0 .newWindow [0xFF]).dec).length ∧
      (unreadBits (decoder cfg0 .newWindow [0xFF]).dec).length < cfg0.leadW.bits + 6 :=
  ⟨inv_of (by decide +kernel), by decide +kernel⟩

theorem witness_DecStepNewWindow_overrun :
    Inv (decoder cfg0 .newWindow [0xFC, 0x20]) ∧
      (fieldValue ((unreadBits (decoder cfg0 .newWindow [0xFC, 0x20]).dec).take 5)).toNat +
        ((fieldValue (((unreadBits (decoder cfg0 .newWindow [0xFC, 0x20]).dec).drop 5).take 6)).toNat + 1) = 65 :=
  ⟨inv_of (by decide +kernel), by decide +kernel⟩

theorem witness_DecStepNewWindow_window :
    Inv (decoder cfg0 .newWindow [0xFC, 0x00]) ∧
      (fieldValue ((unreadBits (decoder cfg0 .newWindow [0xFC, 0x00]).dec).take 5)).toNat +
        ((fieldValue (((unreadBits (decoder cfg0 .newWindow [0xFC, 0x00]).dec).drop 5).take 6)).toNat + 1) = 64 :=
  ⟨inv_of (by decide +kernel), by decide +kernel⟩

/-- A decoder about to read `m` meaningful bits under the Window `(60, 0)`. -/
def wanting (bytes : List Byte) : State :=
  let s := windowed ⟨true, 30, 30⟩ (decoder cfg0 .readingMeaningfulBits bytes)
  { s with dec := { s.dec with m := 4 } }


theorem witness_DecStepReadingMeaningfulBits :
    Inv (wanting []) ∧
      (unreadBits (wanting []).dec).length < (wanting []).dec.m ∧ Inv (wanting [0xF0]) ∧
      (wanting [0xF0]).dec.m ≤ (unreadBits (wanting [0xF0]).dec).length :=
  ⟨inv_of (by decide +kernel), by decide +kernel, inv_of (by decide +kernel), by decide +kernel⟩

/-- A decoder about to test a value. -/
def testing (v : Sample) : State :=
  { decoder cfg0 .checkSentinel [] with dec := { (decoder cfg0 .checkSentinel []).dec with cur := v } }


theorem witness_DecStepCheckSentinel :
    (testing one).dec.state = .checkSentinel ∧ (testing one).dec.cur ≠ cfg0.sentinel ∧
      (testing cfg0.sentinel).dec.cur = cfg0.sentinel ∧ (testing cfg0.sentinel).dec.expectEn = false ∧
      (expecting 1 (testing cfg0.sentinel)).dec.count = (expecting 1 (testing cfg0.sentinel)).dec.expect ∧
      (expecting 2 (testing cfg0.sentinel)).dec.count ≠ (expecting 2 (testing cfg0.sentinel)).dec.expect := by decide +kernel

theorem witness_DecNextIsRepeatedDecStep :
    (∃ t, exec .decStep (decoder cfg0 .repeating []) = .next t ∧ t.resp = some (.ok (.sample one))) ∧
      (∃ t, exec .decStep (decoder cfg0 .readingControlA []) = .next t ∧ t.resp = some (.err .unexpectedEof .controlA)) ∧
      (∃ t, exec .decStep (testing cfg0.sentinel) = .next t ∧ t.resp = some (.ok .noSample) ∧ t.dec.state = .done) ∧
      (∃ t, exec .decStep (decoder cfg0 .readingControlA [0x80]) = .next t ∧ t.resp = some (.ok .noSample) ∧ t.dec.state ≠ .done) :=
  ⟨⟨_, rfl, by decide +kernel⟩, ⟨_, rfl, by decide +kernel⟩, ⟨_, rfl, by decide +kernel⟩, _, rfl, by decide +kernel⟩

theorem witness_DecNextAndDecRunComplete :
    Inv (decoder cfg0 .readingControlA [0x00]) ∧ (decoder cfg0 .readingControlA [0x00]).dec.state.running = true :=
  ⟨inv_of (by decide +kernel), by decide +kernel⟩

theorem witness_DecRunIsRepeatedDecNext :
    (Inv (decoder cfg0 .readingControlA []) ∧ ∃ t, exec .decNext (decoder cfg0 .readingControlA []) = .next t ∧ t.resp = some (.err .unexpectedEof .controlA)) ∧
      (Inv (testing cfg0.sentinel) ∧ ∃ t, exec .decNext (testing cfg0.sentinel) = .next t ∧ t.resp = some (.ok .endOfStream)) ∧
      Inv (decoder cfg0 .readingControlA [0x00]) ∧ (∃ t, exec .decNext (decoder cfg0 .readingControlA [0x00]) = .next t ∧ t.resp = some (.ok (.sample one))) :=
  ⟨⟨inv_of (by decide +kernel), _, rfl, by decide +kernel⟩, ⟨inv_of (by decide +kernel), _, rfl, by decide +kernel⟩, inv_of (by decide +kernel), _, rfl, by decide +kernel⟩

theorem witness_DecNextExecutesFetchedCodeword :
    Inv (decoder cfg0 .readingControlA [0xC2, 0x57, 0xFF]) ∧
      fetchCodeword cfg0 (decoder cfg0 .readingControlA [0xC2, 0x57, 0xFF]).dec = some (.ok (.cwNew 1 10 0x7FF, [])) :=
  ⟨inv_of (by decide +kernel), by decide +kernel⟩

theorem witness_DecNextExecutesFetchedCodeword_first :
    Inv (decoder cfg0 .awaitingFirst oneBytes) ∧
      fetchCodeword cfg0 (decoder cfg0 .awaitingFirst oneBytes).dec = some (.ok (.cwFirst one, [])) ∧ cfg0.tagEn = false :=
  ⟨inv_of (by decide +kernel), by decide +kernel⟩

theorem witness_DecNextAtStartExecutesTagThenFirst :
    Inv (decoder cfgTag .awaitingFirst (0xA5 :: oneBytes)) ∧
      fetchCodeword cfgTag (decoder cfgTag .awaitingFirst (0xA5 :: oneBytes)).dec
        = some (.ok (.cwTag 0xA5, oneBytes.flatMap byteBits)) ∧
      fetchCodeword cfgTag (after (.cwTag 0xA5) (decoder cfgTag .awaitingFirst (0xA5 :: oneBytes))).dec
        = some (.ok (.cwFirst one, [])) :=
  ⟨inv_of (by decide +kernel), by decide +kernel⟩

theorem witness_DecNextRaisesWhereNoCodewordStands :
    Inv (decoder cfg0 .readingControlA [0x80]) ∧
      fetchCodeword cfg0 (decoder cfg0 .readingControlA [0x80]).dec = some (.error .reuseWithoutWindow) ∧
      fetchCodeword cfg0 (decoder cfg0 .readingControlA []).dec = some (.error (.endOfStream .controlA)) ∧
      fetchCodeword cfg0 (decoder cfg0 .readingControlA [0xFF, 0xF8]).dec = some (.error .windowTooWide) :=
  ⟨inv_of (by decide +kernel), by decide +kernel⟩

theorem witness_DecNextRaisesWhereNoCodewordStands_start :
    Inv (decoder cfg0 .awaitingFirst [0x3F]) ∧
      fetchCodeword cfg0 (decoder cfg0 .awaitingFirst [0x3F]).dec = some (.error (.endOfStream .first)) :=
  ⟨inv_of (by decide +kernel), by decide +kernel⟩

theorem witness_DecNextRaisesWhereNoCodewordStands_behindTag :
    Inv (decoder cfgTag .awaitingFirst [0xA5, 0x3F]) ∧
      fetchCodeword cfgTag (decoder cfgTag .awaitingFirst [0xA5, 0x3F]).dec
        = some (.ok (.cwTag 0xA5, byteBits 0x3F)) ∧
      ∃ t, exec (.cwTag 0xA5) (decoder cfgTag .awaitingFirst [0xA5, 0x3F]) = .next t ∧
        fetchCodeword t.cfg t.dec = some (.error (.endOfStream .first)) :=
  ⟨inv_of (by decide +kernel), by decide +kernel, _, rfl, by decide +kernel⟩

theorem witness_DecSetExpectSetsBoth :
    (idle cfg0).cfg.wf = true := by decide +kernel

theorem witness_IllegalOperationsAreRefused :
    cfg0.wf = true ∧ (encoder cfg0 0 Window.none 0 []).enc.state ≠ .raw ∧ (sink cfg0 .raw 0 []).enc.state ≠ .active ∧
      (decoder cfg0 .done []).dec.state ≠ .raw ∧ (decoder cfg0 .raw []).dec.state = .raw ∧
      (idle cfg0).dec.state = .idle ∧ (decoder cfg0 .done []).dec.state = .done := by decide +kernel

theorem witness_TagAndFirstCodewordsExecute_tag :
    Inv (decoder cfgTag .awaitingFirst [0xA5]) ∧
      (decoder cfgTag .awaitingFirst [0xA5]).dec.srcLen ≠ 0 ∧ cfgTag.tagEn = true ∧
      srcRpos (decoder cfgTag .awaitingFirst [0xA5]).dec = 0 ∧
      8 ≤ (unreadBits (decoder cfgTag .awaitingFirst [0xA5]).dec).length :=
  ⟨inv_of (by decide +kernel), by decide +kernel⟩

theorem witness_TagAndFirstCodewordsExecute_first :
    Inv (decoder cfg0 .awaitingFirst oneBytes) ∧
      srcRpos (decoder cfg0 .awaitingFirst oneBytes).dec = 8 * cfg0.tagBytes ∧
      64 ≤ (unreadBits (decoder cfg0 .awaitingFirst oneBytes).dec).length :=
  ⟨inv_of (by decide +kernel), by decide +kernel⟩

theorem witness_RepeatCodewordExecutes :
    Inv (decoder cfg0 .readingControlA [0x00]) ∧ unreadBits (decoder cfg0 .readingControlA [0x00]).dec ≠ [] :=
  ⟨inv_of (by decide +kernel), by decide +kernel⟩

/-- A decoder between two codewords under the Window `(1, 0)`, the stream `10` and the 63 bits of the delta from 1.0 to
`SENTINEL`. -/
def atTerminal : State :=
  windowed ⟨true, 1, 0⟩ (decoder cfg0 .readingControlA [0xA0, 0x10, 0, 0, 0, 0, 0, 0, 0x80])


theorem witness_ReuseCodewordExecutes_value :
    Inv (atTerminal) ∧
      (1 : Sample).toNat < 2 ^ atTerminal.dec.win.width ∧ 2 + atTerminal.dec.win.width ≤ (unreadBits atTerminal.dec).length ∧
      one ^^^ ((1 : Sample) <<< 0) ≠ cfg0.sentinel :=
  ⟨inv_of (by decide +kernel), by decide +kernel⟩

theorem witness_ReuseCodewordExecutes_end :
    Inv (atTerminal) ∧
      (0x4008000000000001 : Sample).toNat < 2 ^ atTerminal.dec.win.width ∧
      atTerminal.dec.prev ^^^ ((0x4008000000000001 : Sample) <<< atTerminal.dec.win.trail) = cfg0.sentinel ∧
      atTerminal.dec.expectEn = false ∧ (expecting 1 atTerminal).dec.count = (expecting 1 atTerminal).dec.expect :=
  ⟨inv_of (by decide +kernel), by decide +kernel⟩

theorem witness_ReuseCodewordExecutes_disagree :
    Inv (expecting 2 atTerminal) ∧
      (expecting 2 atTerminal).dec.expectEn = true ∧ (expecting 2 atTerminal).dec.count ≠ (expecting 2 atTerminal).dec.expect :=
  ⟨inv_of (by decide +kernel), by decide +kernel⟩

theorem witness_ReuseCodewordExecutes_noWindow :
    Inv (decoder cfg0 .readingControlA [0x80]) ∧
      (decoder cfg0 .readingControlA [0x80]).dec.win.valid = false ∧
      2 ≤ (unreadBits (decoder cfg0 .readingControlA [0x80]).dec).length :=
  ⟨inv_of (by decide +kernel), by decide +kernel⟩

/-- A decoder between two codewords and ten bytes of stream. -/
def longStream : State := decoder cfg0 .readingControlA [0xC3, 0xF4, 0x00, 0x80, 0, 0, 0, 0, 0, 0x10]


theorem witness_NewCodewordExecutes_value :
    Inv (longStream) ∧
      (31#6).toNat ≤ cfg0.leadMax ∧ (31#6).toNat + ((32#6).toNat + 1) = 64 ∧
      (0x1FFFFFFFF : Sample).toNat < 2 ^ ((32#6).toNat + 1) ∧ 2 + 5 + 6 + 33 ≤ (unreadBits longStream.dec).length ∧
      one ^^^ ((0x1FFFFFFFF : Sample) <<< 0) ≠ cfg0.sentinel :=
  ⟨inv_of (by decide +kernel), by decide +kernel⟩

theorem witness_NewCodewordExecutes_end :
    Inv (longStream) ∧
      (1#6).toNat + ((62#6).toNat + 1) = 64 ∧ 2 + 5 + 6 + 63 ≤ (unreadBits longStream.dec).length ∧
      longStream.dec.prev ^^^ ((0x4008000000000001 : Sample) <<< 0) = cfg0.sentinel ∧ longStream.dec.expectEn = false ∧
      (expecting 2 longStream).dec.count ≠ (expecting 2 longStream).dec.expect :=
  ⟨inv_of (by decide +kernel), by decide +kernel⟩

theorem witness_NewCodewordExecutes_overrun :
    Inv (longStream) ∧
      (31#6).toNat + ((33#6).toNat + 1) = 65 ∧ 2 + 5 + 6 ≤ (unreadBits longStream.dec).length :=
  ⟨inv_of (by decide +kernel), by decide +kernel⟩

theorem witness_CodewordCutShortRaises_start :
    Inv (decoder cfg0 .awaitingFirst [0x3F]) ∧
      (decoder cfg0 .awaitingFirst [0x3F]).dec.srcLen ≠ 0 ∧ srcRpos (decoder cfg0 .awaitingFirst [0x3F]).dec = 0 ∧
      (unreadBits (decoder cfg0 .awaitingFirst [0x3F]).dec).length < 64 :=
  ⟨inv_of (by decide +kernel), by decide +kernel⟩

/-- The decoder behind the tag byte of `A5 3F`. -/
def behindTag : State := after (.cwTag 0xA5) (decoder cfgTag .awaitingFirst [0xA5, 0x3F])


theorem witness_CodewordCutShortRaises_behindTag :
    Inv (behindTag) ∧
      behindTag.dec.state = .awaitingFirst ∧ behindTag.dec.srcLen ≠ 0 ∧
      srcRpos behindTag.dec = 8 * behindTag.cfg.tagBytes ∧ behindTag.cfg.tagEn = true ∧
      (unreadBits behindTag.dec).length = 8 :=
  ⟨inv_of (by decide +kernel), by decide +kernel⟩

theorem witness_CodewordCutShortRaises_control :
    Inv (bitsLeft cfg0 .readingControlA 0 0xFF) ∧ (unreadBits (bitsLeft cfg0 .readingControlA 0 0xFF).dec).length = 0 ∧
      Inv (bitsLeft cfg0 .readingControlA 1 0xFF) ∧ (unreadBits (bitsLeft cfg0 .readingControlA 1 0xFF).dec).length = 1 :=
  ⟨inv_of (by decide +kernel), by decide +kernel, inv_of (by decide +kernel), by decide +kernel⟩

theorem witness_CodewordCutShortRaises_reuse :
    Inv (windowed ⟨true, 30, 27⟩ (bitsLeft cfg0 .readingControlA 8 0xFF)) ∧ (unreadBits (windowed ⟨true, 30, 27⟩ (bitsLeft cfg0 .readingControlA 8 0xFF)).dec).length = 8 ∧
      8 < 2 + (windowed ⟨true, 30, 27⟩ (bitsLeft cfg0 .readingControlA 8 0xFF)).dec.win.width :=
  ⟨inv_of (by decide +kernel), by decide +kernel, by decide +kernel⟩

theorem witness_CodewordCutShortRaises_header :
    Inv (bitsLeft cfg0 .readingControlA 6 0xFF) ∧ (unreadBits (bitsLeft cfg0 .readingControlA 6 0xFF).dec).length = 6 ∧ 6 < 2 + cfg0.leadW.bits ∧
      Inv (bitsLeft cfg0 .readingControlA 7 0xFF) ∧ (unreadBits (bitsLeft cfg0 .readingControlA 7 0xFF).dec).length = 2 + cfg0.leadW.bits :=
  ⟨inv_of (by decide +kernel), by decide +kernel, by decide +kernel, inv_of (by decide +kernel), by decide +kernel⟩

theorem witness_CodewordCutShortRaises_bits :
    Inv (decoder cfg0 .readingControlA [0xC3, 0xF4]) ∧
      (unreadBits (decoder cfg0 .readingControlA [0xC3, 0xF4]).dec).length = 16 ∧ 2 + cfg0.leadW.bits + 6 ≤ 16 ∧
      16 < 2 + cfg0.leadW.bits + 6 + ((62#6).toNat + 1) :=
  ⟨inv_of (by decide +kernel), by decide +kernel, by decide +kernel, by decide +kernel⟩

theorem witness_PadCodewordChangesNothing :
    (bitsLeft cfg0 .done 4 0x10).dec.state = .done ∧ (bitsLeft cfg0 .done 4 0x10).dec.err = ErrReg.clear ∧
      (4#3).toNat = (8 - srcRpos (bitsLeft cfg0 .done 4 0x10).dec % 8) % 8 := by decide +kernel

theorem witness_CodewordsOutOfPlaceAreRefused :
    cfgTag.wf = true ∧ cfg0.tagEn = false ∧ (decoder cfgTag .awaitingFirst []).dec.srcLen = 0 ∧
      srcRpos (after (.cwTag 0) (decoder cfgTag .awaitingFirst [0xA5])).dec ≠ 0 ∧
      srcRpos (decoder cfgTag .awaitingFirst oneBytes).dec ≠ 8 * cfgTag.tagBytes ∧ (idle cfg0).dec.state ≠ .readingControlA ∧
      (idle cfg0).dec.state ≠ .done ∧ (after .decStep (decoder cfg0 .readingControlA [])).dec.err.kind ≠ .noError := by decide +kernel

theorem witness_CodewordsOutOfPlaceAreRefused_fields :
    (bitsLeft cfg0 .done 4 0x10).cfg.wf = true ∧ (bitsLeft cfg0 .done 4 0x10).dec.state = .done ∧
      (3#3).toNat ≠ (8 - srcRpos (bitsLeft cfg0 .done 4 0x10).dec % 8) % 8 ∧
      (windowed ⟨true, 12, 40⟩ (decoder cfgWin .readingControlA [0xAA, 0xF3])).dec.win.valid = true ∧
      2 ^ (windowed ⟨true, 12, 40⟩ (decoder cfgWin .readingControlA [0xAA, 0xF3])).dec.win.width
        ≤ (0x1000 : Sample).toNat ∧
      cfg0.leadMax < (32#6).toNat ∧ (31#6).toNat + ((32#6).toNat + 1) ≤ 64 ∧
      2 ^ ((32#6).toNat + 1) ≤ (0x200000000 : Sample).toNat := by decide +kernel

theorem witness_DecodeOfEncodeIsTheSequence :
    cfgSmall.sentinel ∉ ([] : List Sample) ∧ (idle { cfg0 with obufCap := some 18, ibufCap := some 18 }).cfg.wf = true ∧
      cfg0.sentinel ∉ [one] ∧ (8 * cfg0.tagBytes + 64 + (cfg0.leadW.bits + 72) * [one].length + 7) / 8 ≤ 18 ∧
      (idle cfg0).dec.expectEn = false := by decide +kernel

theorem witness_EmptySequenceIsTheEmptyBuffer :
    cfgTag.wf = true ∧ (idle cfgTag).dec.expectEn = false ∧ (expecting 1 (idle cfgTag)).dec.expectEn = true ∧
      (expecting 1 (idle cfgTag)).dec.expect ≠ 0 := by decide +kernel

theorem witness_EncodeOfSentinelCollides :
    cfg0.wf = true ∧ cfg0.obufCap = none ∧ cfg0.sentinel ∈ [one, cfg0.sentinel] := by decide +kernel

theorem witness_EncodeOfSentinelCollides_bounded :
    (idle { cfg0 with obufCap := some 28 }).cfg.wf = true ∧
      ∀ k, (idle { cfg0 with obufCap := some 28 }).cfg.obufCap = some k →
        (8 * cfg0.tagBytes + 64 + (cfg0.leadW.bits + 72) * [one, cfg0.sentinel].length + 7) / 8 ≤ k :=
  ⟨by decide, fun k h => by cases h; decide⟩

theorem witness_ConstantSequenceHasItsSize :
    cfg0.wf = true ∧ cfg0.windowInit = none ∧
      ∃ bytes, encode (List.replicate (0 + 1) one) (idle cfg0) = some (.ok bytes) :=
  ⟨by decide, rfl, oneBytes ++ [0xC3, 0xF4, 0x00, 0x80, 0, 0, 0, 0, 0, 0x10], by decide +kernel⟩

theorem witness_TruncatedStreamIsUnexpectedEof :
    cfg0.wf = true ∧
      (∃ bytes, encode [one] (idle cfg0) = some (.ok bytes) ∧ 17 < bytes.length) ∧ 1 ≤ 17 ∧
      ∀ k, (idle cfg0).cfg.ibufCap = some k → 17 ≤ k :=
  ⟨by decide, ⟨oneBytes ++ [0xC3, 0xF4, 0x00, 0x80, 0, 0, 0, 0, 0, 0x10], by decide +kernel, by decide⟩, by decide,
    fun _ h => by cases h⟩

theorem witness_DecodeOfAnyBytesAnswers :
    cfgSmall.wf = true ∧ ∀ k, (idle cfgSmall).cfg.ibufCap = some k → (List.replicate 18 (0xFF : Byte)).length ≤ k :=
  ⟨by decide, fun k h => by cases h; decide⟩

end Sys2Proof.Tests
end

section
/-! PROOFS of the family `00_scope`: one step, the independence of the channels, the zero counts, and the operations and
codewords that are answered `Refused`. -/

namespace Sys2Proof.Machine

/-! ### What one step of the machine is -/

theorem step_idle {s : State} (h : s.pending = []) : step s = .next s := by
  simp [step, h]

theorem step_input {s : State} {input : HostInput} {rest : List HostInput} (h : s.pending = input :: rest) :
    step s = applyInput input (s.popInput rest) := by
  simp [step, h]

theorem applyInput_decoded {q : Issue} {i : Instr} (s : State) (h : decodeIssue q = .ok i) :
    applyInput (.op q) s = exec i s := by
  simp [applyInput, h]

theorem applyInput_undecoded {q : Issue} {err : DecodeError} (s : State) (h : decodeIssue q = .error err) :
    applyInput (.op q) s = .next (refuseCode s) := by
  simp [applyInput, h]

/-- The fourteen codes of R110 are the only ones that decode. -/
theorem decodeIssue_of_code_not_mem {q : Issue}
    (h : q.code ∉ [0x00#8, 0x01#8, 0x02#8, 0x04#8, 0x05#8, 0x06#8, 0x10#8, 0x11#8, 0x12#8, 0x14#8, 0x15#8, 0x16#8,
      0x17#8, 0x18#8]) :
    decodeIssue q = .error (.unknownCode q.code) := by
  simp only [List.mem_cons, List.not_mem_nil, or_false, not_or] at h
  unfold decodeIssue
  split
  case h_15 => rfl
  all_goals simp_all only [not_true_eq_false, false_and, and_false]

/-- Settles O1: a step is the meaning of the oldest waiting operation, or `refuseCode` where its code decodes to none. -/
theorem stepRunsIssuedOperation : Obligations.StepRunsIssuedOperation := by
  intro s q rest hp
  constructor
  · intro i hi
    rw [step_input hp, applyInput_decoded _ hi]
    rfl
  · intro hc
    rw [step_input hp, applyInput_undecoded _ (decodeIssue_of_code_not_mem hc)]
    rfl

/-! ### Every instruction is an operation on one channel -/

/-- R15: each instruction reads and writes one channel only, the encoder's where `isEncoderOp` says so and the decoder's
elsewhere; its meaning is a function of that channel and the configuration. -/
theorem exec_onChannel (i : Instr) :
    (isEncoderOp i = true ∧ ∃ f, ∀ s, exec i s = onEnc f s) ∨
      (isEncoderOp i = false ∧ ∃ f, ∀ s, exec i s = onDec f s) := by
  cases i with
  | snkInit | snkWrite | snkFinal | encBegin | encSample | encEnd => exact .inl ⟨rfl, _, fun _ => rfl⟩
  | cwTag | cwFirst | cwRepeat | cwReuse | cwNew | cwPad => exact .inr ⟨rfl, _, fun _ => rfl⟩
  | srcInit | srcRdBit | srcRdBits => exact .inr ⟨rfl, _, fun _ => rfl⟩
  | decBegin | decStep | decNext | decRun | decSetExpect => exact .inr ⟨rfl, _, fun _ => rfl⟩

theorem exec_eq_onEnc {i : Instr} (h : isEncoderOp i = true) : ∃ f, ∀ s, exec i s = onEnc f s := by
  rcases exec_onChannel i with ⟨-, hf⟩ | ⟨h', -⟩
  · exact hf
  · rw [h] at h'; cases h'

theorem exec_eq_onDec {i : Instr} (h : isEncoderOp i = false) : ∃ f, ∀ s, exec i s = onDec f s := by
  rcases exec_onChannel i with ⟨h', -⟩ | ⟨-, hf⟩
  · rw [h] at h'; cases h'
  · exact hf

theorem exec_keeps_cfg {i : Instr} {s t : State} (h : exec i s = .next t) : t.cfg = s.cfg := by
  rcases exec_onChannel i with ⟨-, f, hf⟩ | ⟨-, f, hf⟩
  · rw [hf] at h
    obtain ⟨-, rfl⟩ := onEnc_next h
    rfl
  · rw [hf] at h
    obtain ⟨-, rfl⟩ := onDec_next h
    rfl

/-- Settles O13: the meaning of an encoder operation is `onEnc` of a function that is given the encoder channel alone. -/
theorem encoderOperationsOwnTheirChannel : Obligations.EncoderOperationsOwnTheirChannel := by
  intro i s₁ s₂ t₁ hi hcfg henc h
  obtain ⟨f, hf⟩ := exec_eq_onEnc hi
  rw [hf] at h
  obtain ⟨hwf, rfl⟩ := onEnc_next h
  exact ⟨_, (hf s₂).trans (onEnc_eq s₂ f (hcfg ▸ hwf)), by simp [hcfg, henc]⟩

/-- Settles O14: the meaning of a decoder operation or codeword is `onDec` of a function that is given the decoder channel
alone. -/
theorem decoderOperationsOwnTheirChannel : Obligations.DecoderOperationsOwnTheirChannel := by
  intro i s₁ s₂ t₁ hi hcfg hdec h
  obtain ⟨f, hf⟩ := exec_eq_onDec hi
  rw [hf] at h
  obtain ⟨hwf, rfl⟩ := onDec_next h
  exact ⟨_, (hf s₂).trans (onDec_eq s₂ f (hcfg ▸ hwf)), by simp [hcfg, hdec]⟩

theorem applyWriteIbuf_keeps_cfg {a : Nat} {b : Byte} {s t : State} (h : applyWriteIbuf a b s = .next t) :
    t.cfg = s.cfg := by
  unfold applyWriteIbuf at h
  split at h <;> cases h
  rfl

theorem applyInput_keeps_cfg {input : HostInput} {s t : State} (h : applyInput input s = .next t) : t.cfg = s.cfg := by
  cases input with
  | op q =>
    cases hq : decodeIssue q with
    | ok i => exact exec_keeps_cfg ((applyInput_decoded s hq).symm.trans h)
    | error err =>
      cases (applyInput_undecoded s hq).symm.trans h
      rfl
  | writeIbuf a b => exact applyWriteIbuf_keeps_cfg h
  | powerOn =>
    cases h
    rfl

/-- Settles O12: by cases on what the step takes. -/
theorem stepKeepsConfiguration : Obligations.StepKeepsConfiguration := by
  intro s t h
  cases hp : s.pending with
  | nil =>
    cases (step_idle hp).symm.trans h
    rfl
  | cons input rest => exact applyInput_keeps_cfg (s := s.popInput rest) ((step_input hp).symm.trans h)

/-! ### The zero counts -/

/-- Settles O16: the defining properties of the two counts, and their joint bound. -/
theorem zeroCountsCountZeros : Obligations.ZeroCountsCountZeros := by
  intro x hx
  obtain ⟨hclz, hclzBit, hclzAbove⟩ := clz64_spec hx
  obtain ⟨hctz, hctzBit, hctzBelow⟩ := ctz64_spec hx
  exact ⟨hclz, hclzBit, hclzAbove, hctz, hctzBit, hctzBelow, clz64_add_ctz64_le hx⟩

/-! ### Operations that are refused -/

/-- An operation that a channel refuses changes the response and nothing else (R13). -/
theorem onEnc_of_refused {f : Cfg → EncChannel → EncChannel × Response} {s : State} (hwf : s.cfg.wf = true)
    (h : f s.cfg s.enc = (s.enc, .refused)) : onEnc f s = .next { s with resp := some .refused } := by
  rw [onEnc_eq s f hwf, h]
  rfl

theorem onDec_of_refused {f : Cfg → DecChannel → DecChannel × Response} {s : State} (hwf : s.cfg.wf = true)
    (h : f s.cfg s.dec = (s.dec, .refused)) : onDec f s = .next { s with resp := some .refused } := by
  rw [onDec_eq s f hwf, h]
  rfl

section Refused

variable {c : Cfg} {e : EncChannel} {d : DecChannel}

theorem snkWrite_of_state_ne_raw (value : Sample) (count : BitVec 7) (h : e.state ≠ .raw) :
    snkWrite value count c e = (e, .refused) := by simp [snkWrite, h]

theorem snkFinal_of_state_ne_raw (h : e.state ≠ .raw) : snkFinal c e = (e, .refused) := by simp [snkFinal, h]

theorem encSample_of_state_ne_active (v : Sample) (h : e.state ≠ .active) : encSample v c e = (e, .refused) := by
  simp [encSample, h]

theorem encEnd_of_state_ne_active (h : e.state ≠ .active) : encEnd c e = (e, .refused) := by simp [encEnd, h]

theorem srcRdBit_of_state_ne_raw (h : d.state ≠ .raw) : srcRdBit c d = (d, .refused) := by simp [srcRdBit, h]

theorem srcRdBits_of_state_ne_raw (count : BitVec 7) (h : d.state ≠ .raw) :
    srcRdBits count c d = (d, .refused) := by simp [srcRdBits, h]

/-- No decode is in progress exactly in `IDLE`, `RAW` and `DONE` (R112). -/
theorem DecState.running_eq_false_iff (x : DecState) : x.running = false ↔ x = .idle ∨ x = .raw ∨ x = .done := by
  cases x <;> simp [DecState.running]

theorem decStep_of_not_running (h : d.state.running = false) : decStep c d = (d, .refused) := by simp [decStep, h]

theorem decNext_of_not_running (h : d.state.running = false) : decNext c d = (d, .refused) := by simp [decNext, h]

theorem decRun_of_not_running (h : d.state.running = false) : decRun c d = (d, .refused) := by simp [decRun, h]

end Refused

/-- Settles O47: each operation's own refusal, carried to the machine. -/
theorem illegalOperationsAreRefused : Obligations.IllegalOperationsAreRefused := by
  intro s hwf
  refine ⟨fun h value count => ?_, fun h => ?_, fun h v => ?_, fun h => ?_, fun h => ?_, fun h count => ?_, fun h => ?_⟩
  · exact onEnc_of_refused hwf (snkWrite_of_state_ne_raw value count h)
  · exact onEnc_of_refused hwf (snkFinal_of_state_ne_raw h)
  · exact onEnc_of_refused hwf (encSample_of_state_ne_active v h)
  · exact onEnc_of_refused hwf (encEnd_of_state_ne_active h)
  · exact onDec_of_refused hwf (srcRdBit_of_state_ne_raw h)
  · exact onDec_of_refused hwf (srcRdBits_of_state_ne_raw count h)
  · have hr := (DecState.running_eq_false_iff s.dec.state).2 h
    exact ⟨onDec_of_refused hwf (decStep_of_not_running hr), onDec_of_refused hwf (decNext_of_not_running hr),
      onDec_of_refused hwf (decRun_of_not_running hr)⟩

/-! ### Codewords that are refused -/

section Codewords

variable {c : Cfg} {d : DecChannel}

/-- Where `TAG` stands: at stream bit 0 of a slice that is not empty, where a tag is used (R93). -/
theorem codewordPos_eq_tag_iff :
    codewordPos c d = some .tag ↔
      d.state = .awaitingFirst ∧ d.srcLen ≠ 0 ∧ c.tagEn = true ∧ srcRpos d = 0 := by
  cases hs : d.state with
  | awaitingFirst =>
    by_cases ht : c.tagEn = true ∧ srcRpos d = 0
    · simp [codewordPos, hs, ht]
    · simp [codewordPos, hs, ht]
  | _ => simp [codewordPos, hs]

/-- Where `FIRST` stands: behind the tag byte where one is used, else at stream bit 0 (R94). -/
theorem codewordPos_eq_first_iff :
    codewordPos c d = some .first ↔
      d.state = .awaitingFirst ∧ d.srcLen ≠ 0 ∧ srcRpos d = 8 * c.tagBytes := by
  cases hs : d.state with
  | awaitingFirst =>
    cases ht : c.tagEn with
    | false => simp [codewordPos, hs, ht]
    | true =>
      by_cases hr : srcRpos d = 0
      · simp [codewordPos, hs, ht, hr, Cfg.tagBytes]
      · simp [codewordPos, hs, ht, hr]
  | _ => simp [codewordPos, hs]

/-- Where `REPEAT`, `REUSE` and `NEW` stand (R92). -/
theorem codewordPos_eq_data_iff : codewordPos c d = some .data ↔ d.state = .readingControlA := by
  cases hs : d.state with
  | awaitingFirst =>
    simp only [codewordPos, hs, reduceCtorEq, iff_false]
    split_ifs <;> simp
  | _ => simp [codewordPos, hs]

/-- Where `PAD n` stands: behind the terminal codeword of a decode that ended without an error, `n` bits before the next
byte boundary (R100). -/
theorem codewordPos_eq_pad_iff {n : BitVec 3} :
    codewordPos c d = some (.pad n) ↔
      d.state = .done ∧ d.err.kind = .noError ∧ n.toNat = (8 - srcRpos d % 8) % 8 := by
  have hn : BitVec.ofNat 3 (padCount (srcRpos d)) = n ↔ n.toNat = (8 - srcRpos d % 8) % 8 := by
    rw [← BitVec.toNat_inj, BitVec.toNat_ofNat, padCount]
    omega
  cases hs : d.state with
  | awaitingFirst =>
    simp only [codewordPos, hs, reduceCtorEq, false_and, iff_false]
    split_ifs <;> simp
  | done => simp [codewordPos, hs, decFailed, hn]
  | _ => simp [codewordPos, hs]

variable {i : Instr} {legal : Cfg → DecChannel → Bool} {rule : Cfg → DecChannel → DecChannel × StepAnswer}
  {response : StepAnswer → Response}

/-- A codeword that stands at one position is refused where the decoder does not stand there. -/
theorem onCodeword_of_pos_ne {pos : CwPos} (hi : ∀ p, i.standsAt p = (p == pos)) (h : codewordPos c d ≠ some pos) :
    onCodeword i legal rule response c d = (d, .refused) := by
  have hany : (codewordPos c d).any (fun p => i.standsAt p) = false := by
    rw [Option.any_eq_false]
    intro p hp
    rw [hi, beq_eq_false_iff_ne]
    rintro rfl
    exact h hp
  simp [onCodeword, hany]

/-- A codeword whose fields do not fit is refused wherever it stands. -/
theorem onCodeword_of_not_legal (h : legal c d = false) : onCodeword i legal rule response c d = (d, .refused) := by
  simp [onCodeword, h]

theorem bitsFit_eq_false_of_le {bits : Sample} {m : Nat} (h : 2 ^ m ≤ bits.toNat) : bitsFit bits m = false := by
  simp [bitsFit, h]

theorem reuseFits_eq_false {bits : Sample} (hv : d.win.valid = true) (h : 2 ^ d.win.width ≤ bits.toNat) :
    reuseFits bits c d = false := by
  simp [reuseFits, hv, bitsFit_eq_false_of_le h]

theorem newFits_eq_false {lead len : Nat} {bits : Sample}
    (h : c.leadMax < lead ∨ (lead + (len + 1) ≤ 64 ∧ 2 ^ (len + 1) ≤ bits.toNat)) :
    newFits lead len bits c d = false := by
  rcases h with hl | ⟨hw, hb⟩
  · simp [newFits, hl]
  · simp [newFits, bitsFit_eq_false_of_le hb, hw]

end Codewords

/-- Settles O54: the position selects none but the codeword that stands there, and a field that is too wide is illegal at
every position. -/
theorem codewordsOutOfPlaceAreRefused : Obligations.CodewordsOutOfPlaceAreRefused := by
  intro s hwf
  refine ⟨fun b h => ?_, fun v h => ?_, fun h => ?_, fun bits hv h => ?_, fun lead len bits h => ?_, fun n h => ?_⟩
  · refine onDec_of_refused hwf (onCodeword_of_pos_ne (fun _ => rfl) ?_)
    rw [Ne, codewordPos_eq_tag_iff]
    rintro ⟨hs, hl, ht, hr⟩
    simp [hs, hl, ht, hr] at h
  · refine onDec_of_refused hwf (onCodeword_of_pos_ne (fun _ => rfl) ?_)
    rw [Ne, codewordPos_eq_first_iff]
    rintro ⟨hs, hl, hr⟩
    simp [hs, hl, hr] at h
  · have hpos : codewordPos s.cfg s.dec ≠ some .data := mt codewordPos_eq_data_iff.1 h
    exact ⟨onDec_of_refused hwf (onCodeword_of_pos_ne (fun _ => rfl) hpos),
      fun _ => onDec_of_refused hwf (onCodeword_of_pos_ne (fun _ => rfl) hpos),
      fun _ _ _ => onDec_of_refused hwf (onCodeword_of_pos_ne (fun _ => rfl) hpos)⟩
  · exact onDec_of_refused hwf (onCodeword_of_not_legal (reuseFits_eq_false hv h))
  · exact onDec_of_refused hwf (onCodeword_of_not_legal (newFits_eq_false h))
  · refine onDec_of_refused hwf (onCodeword_of_pos_ne (fun _ => rfl) ?_)
    rw [Ne, codewordPos_eq_pad_iff]
    rintro ⟨hs, he, hn⟩
    simp [hs, he, ← hn] at h

end Sys2Proof.Machine
end

section
/-! PROOFS of the family `10_state`: the reset state, what the host writes and reads, the unread part of the stream, and
the invariant, which every step keeps. -/

namespace Sys2Proof.Machine

/-! ### The invariant, channel by channel -/

theorem inv_iff (s : State) : Inv s ↔ s.cfg.wf = true ∧ EncFacts s.cfg s.enc ∧ DecFacts s.cfg s.dec := by
  rw [Inv, encOk_iff, decOk_iff]

/-- An operation on the encoder channel keeps the invariant of the machine where its rule keeps that of the channel. -/
theorem onEnc_keeps_inv {f : Cfg → EncChannel → EncChannel × Response}
    (hf : ∀ c e, c.wf = true → EncFacts c e → EncFacts c (f c e).1) {s t : State} (hs : Inv s)
    (h : onEnc f s = .next t) : Inv t := by
  obtain ⟨hwf, henc, hdec⟩ := (inv_iff s).1 hs
  obtain ⟨-, rfl⟩ := onEnc_next h
  exact (inv_iff _).2 ⟨hwf, hf _ _ hwf henc, hdec⟩

theorem onDec_keeps_inv {f : Cfg → DecChannel → DecChannel × Response}
    (hf : ∀ c d, c.wf = true → DecFacts c d → DecFacts c (f c d).1) {s t : State} (hs : Inv s)
    (h : onDec f s = .next t) : Inv t := by
  obtain ⟨hwf, henc, hdec⟩ := (inv_iff s).1 hs
  obtain ⟨-, rfl⟩ := onDec_next h
  exact (inv_iff _).2 ⟨hwf, henc, hf _ _ hwf hdec⟩

/-! ### The reset state -/

theorem sinkOk_of_empty {c : Cfg} {e : EncChannel} (hwf : e.obuf.wf = true) (hbelow : e.obuf.below c.obufCap = true)
    (hw : e.wbits = 0) : sinkOk c e = true := by
  simp only [sinkOk, Bool.and_eq_true]
  refine ⟨⟨⟨⟨hwf, hbelow⟩, ?_⟩, ?_⟩, ?_⟩
  · simp [fits_iff, hw]
  · simp [obufWritten_iff, snkLen, hw]
  · simp [paddingZero_iff, padCount, hw]

theorem Memory.below_nil (cap : Option Nat) : Memory.below cap [] = true := by
  cases cap <;> rfl

theorem sourceOk_of_empty {c : Cfg} {d : DecChannel} (hwf : d.ibuf.wf = true) (hbelow : d.ibuf.below c.ibufCap = true)
    (hlen : withinCap d.srcLen c.ibufCap = true) (hcur : d.srcCursor = 0) (hval : d.srcValid = 0)
    (hcache : d.srcCache = 0) : sourceOk c d = true := by
  simp [sourceOk, hwf, hbelow, hlen, hcur, hval, hcache]

/-- Whichever power-on it is, the channel comes out of it with its invariant. -/
theorem encFacts_reset (c : Cfg) (epoch : Nat) : EncFacts c { EncChannel.reset with epoch := epoch } where
  sink := sinkOk_of_empty rfl (Memory.below_nil _) rfl
  window := rfl
  empty := fun h => nomatch h
  prev := fun h => nomatch h
  err := .inl rfl

theorem decFacts_reset (c : Cfg) (epoch : Nat) : DecFacts c { DecChannel.reset with epoch := epoch } where
  source := sourceOk_of_empty rfl (Memory.below_nil _) rfl rfl rfl rfl
  window := rfl
  m := Nat.zero_le _
  start := fun h => nomatch h
  counted := fun h => nomatch h
  bits := fun h => nomatch h
  err := .inl rfl

/-- Settles O8: both channels after power-on meet their invariants under every configuration, and the one at reset has no
initial Window. -/
theorem resetMeetsInvariant : Obligations.ResetMeetsInvariant :=
  (inv_iff _).2 ⟨rfl, encFacts_reset _ 0, decFacts_reset _ 0⟩

theorem ErrReg.word_clear : ErrReg.clear.word = 0 := by decide

theorem windowWord_none : windowWord Window.none = 0 := by decide

theorem snkLen_of_empty {e : EncChannel} (h : e.wbits = 0) : snkLen e = 0 := by simp [snkLen, h]

theorem encAtReset_reset (epoch : Nat) : encAtReset { EncChannel.reset with epoch := epoch } :=
  ⟨rfl, ErrReg.word_clear, rfl, rfl, windowWord_none, rfl, snkLen_of_empty rfl⟩

theorem decAtReset_reset (epoch : Nat) : decAtReset { DecChannel.reset with epoch := epoch } :=
  ⟨rfl, ErrReg.word_clear, rfl, rfl, windowWord_none, rfl, rfl, rfl, rfl, rfl, rfl, rfl, rfl, rfl, rfl⟩

/-- Settles O3: the reset input leaves the reset channels but for the count of power-ons, which is in no register. -/
theorem resetGivesResetValues : Obligations.ResetGivesResetValues := by
  refine ⟨⟨encAtReset_reset 0, decAtReset_reset 0⟩, fun s rest hp => ?_⟩
  exact ⟨applyPowerOn (s.popInput rest), step_input hp, encAtReset_reset _, decAtReset_reset _, rfl, rfl⟩

/-! ### The host's write to `IBUF` -/

theorem addressExists_iff (a : Nat) (cap : Option Nat) : addressExists a cap = true ↔ ∀ k, cap = some k → a < k := by
  cases cap <;> simp [addressExists]

theorem applyWriteIbuf_of_lt {s : State} {a : Nat} (b : Byte) (h : ∀ k, s.cfg.ibufCap = some k → a < k) :
    applyWriteIbuf a b s = .next { s with dec := { s.dec with ibuf := s.dec.ibuf.write a b } } :=
  if_pos ((addressExists_iff _ _).2 h)

/-- Everything the host's write can do where it answers a next state. -/
theorem applyWriteIbuf_next {s t : State} {a : Nat} {b : Byte} (h : applyWriteIbuf a b s = .next t) :
    (∀ k, s.cfg.ibufCap = some k → a < k) ∧
      t = { s with dec := { s.dec with ibuf := s.dec.ibuf.write a b } } := by
  unfold applyWriteIbuf at h
  split at h
  · exact ⟨(addressExists_iff _ _).1 ‹_›, (Host.Outcome.next.inj h).symm⟩
  · cases h

/-- Settles O2: the write is the memory's own, read back by `Memory.read?_write`. -/
theorem hostWriteStoresOneByte : Obligations.HostWriteStoresOneByte := by
  intro s a b rest hp ha
  refine ⟨s.dec.ibuf.write a b, ?_, fun x => s.dec.ibuf.read?_write a x b⟩
  exact (step_input hp).trans (applyWriteIbuf_of_lt (s := s.popInput rest) b ha)

/-! ### What the host reads -/

/-- The three fields of an error register (R23). -/
theorem ErrReg.word_fields (r : ErrReg) :
    r.word.extractLsb' 0 3 = kindCode r.kind ∧ r.word.getLsbD 3 = false ∧
      r.word.extractLsb' 4 4 = causeCode r.cause := by
  refine ⟨?_, ?_, BitVec.extractLsb'_append_eq_left⟩
  · exact (BitVec.extractLsb'_append_eq_of_add_le (by decide)).trans BitVec.extractLsb'_append_eq_right
  · calc r.word.getLsbD 3 = (0#1 ++ kindCode r.kind).getLsbD 3 := BitVec.getLsbD_append
      _ = (0#1).getLsbD 0 := BitVec.getLsbD_append

/-- The counts of a Window of R24 need 6 bits each. -/
theorem windowOk_counts_lt {c : Cfg} {w : Window} (h : windowOk c w = true) : w.lead < 64 ∧ w.trail < 64 := by
  unfold windowOk at h
  split at h
  · simp only [Bool.and_eq_true, decide_eq_true_eq] at h
    omega
  · simp only [Bool.and_eq_true, beq_iff_eq] at h
    omega

/-- The three fields of a Window register (R24). -/
theorem windowWord_fields {c : Cfg} {w : Window} (h : windowOk c w = true) :
    (windowWord w).getLsbD 12 = w.valid ∧ ((windowWord w).extractLsb' 6 6).toNat = w.lead ∧
      ((windowWord w).extractLsb' 0 6).toNat = w.trail := by
  obtain ⟨hlead, htrail⟩ := windowOk_counts_lt h
  have lead_field : (windowWord w).extractLsb' 6 6 = BitVec.ofNat 6 w.lead :=
    (BitVec.extractLsb'_append_eq_of_add_le (by decide)).trans BitVec.extractLsb'_append_eq_left
  have trail_field : (windowWord w).extractLsb' 0 6 = BitVec.ofNat 6 w.trail :=
    (BitVec.extractLsb'_append_eq_of_add_le (by decide)).trans BitVec.extractLsb'_append_eq_right
  refine ⟨?_, ?_, ?_⟩
  · calc (windowWord w).getLsbD 12 = (BitVec.ofBool w.valid).getLsbD 0 := BitVec.getLsbD_append
      _ = w.valid := by simp
  · rw [lead_field, BitVec.toNat_ofNat, Nat.mod_eq_of_lt hlead]
  · rw [trail_field, BitVec.toNat_ofNat, Nat.mod_eq_of_lt htrail]

theorem hostReadEnc_absent {i : Nat} (s : State) (h : 7 ≤ i) : hostReadEnc i s = none := by
  obtain ⟨j, rfl⟩ := Nat.exists_eq_add_of_le' h
  rfl

theorem hostReadDec_absent {i : Nat} (s : State) (h : 15 ≤ i) : hostReadDec i s = none := by
  obtain ⟨j, rfl⟩ := Nat.exists_eq_add_of_le' h
  rfl

theorem sinkOk_written {c : Cfg} {e : EncChannel} (h : sinkOk c e = true) {a : Nat} (ha : a < snkLen e) :
    ∃ b, e.obuf.read? a = some b := by
  simp only [sinkOk, Bool.and_eq_true] at h
  obtain ⟨⟨-, hwritten⟩, -⟩ := h
  exact Option.isSome_iff_exists.1 ((obufWritten_iff e).1 hwritten a ha)

/-- Below `SNK_LEN` the host reads the byte that has been written there (R26). -/
theorem hostReadObuf_written {s : State} {a : Nat} {b : Byte} (ha : a < snkLen s.enc)
    (hb : s.enc.obuf.read? a = some b) : hostReadObuf a s = some b := by
  simp [hostReadObuf, ha, obufByte, hb]

/-- Settles O17: the fields of the words, the codes, and the two register maps index by index. -/
theorem registerWordsHaveTheirFields : Obligations.RegisterWordsHaveTheirFields := by
  refine ⟨ErrReg.word_fields, fun c w => windowWord_fields, by decide, by decide, by decide, by decide, fun s => ?_⟩
  refine ⟨⟨rfl, rfl, rfl, rfl, rfl, rfl, rfl, fun i => hostReadEnc_absent s⟩, ?_, fun hs a ha => ?_, fun a ha => ?_⟩
  · have enable : hostReadDec 9 s = some (if s.dec.expectEn then 1 else 0) := by
      cases he : s.dec.expectEn <;> simp [hostReadDec, he]
    exact ⟨rfl, rfl, rfl, rfl, rfl, rfl, rfl, rfl, rfl, enable, rfl, rfl, rfl, rfl, rfl, fun i => hostReadDec_absent s⟩
  · obtain ⟨-, henc, -⟩ := (inv_iff s).1 hs
    obtain ⟨b, hb⟩ := sinkOk_written henc.sink ha
    exact ⟨b, hb, hostReadObuf_written ha hb⟩
  · exact if_neg (Nat.not_lt.2 ha)

/-! ### The unread part of the stream -/

/-- The bytes of a buffer from an address upward, as stream bits by their positions (R8). -/
theorem flatMap_byteBits (f : Nat → Byte) (a n : Nat) :
    ((List.range n).flatMap fun i => byteBits (f (a + i))) =
      (List.range (8 * n)).map fun i => streamBit f (8 * a + i) := by
  have byte (b : Nat) : byteBits (f b) = (List.range 8).map fun i => streamBit f (8 * b + i) := by
    refine List.ext_getElem? fun i => ?_
    rw [byteBits_getElem?, List.getElem?_map]
    by_cases hi : i < 8
    · simp [hi, streamBit, show (8 * b + i) / 8 = b by omega, Nat.mod_eq_of_lt hi]
    · simp [hi]
  induction n with
  | zero => rfl
  | succ n ih =>
    rw [List.range_succ, List.flatMap_append, List.flatMap_singleton, ih, byte, Nat.mul_succ, List.range_add,
      List.map_append, List.map_map]
    simp only [Function.comp_def, Nat.mul_add, Nat.add_assoc]

/-- R149 (a): the cursor stays in the slice. -/
theorem sourceOk_cursor_le {c : Cfg} {d : DecChannel} (h : sourceOk c d = true) : d.srcCursor ≤ d.srcLen := by
  simp only [sourceOk, Bool.and_eq_true, decide_eq_true_eq] at h
  omega

/-- Settles O11: the cache holds the bits up to `SRC_CURSOR` as `CacheMirrors` says, and the bytes behind it are read as
stream bits by `flatMap_byteBits`. -/
theorem unreadPartIsTheStreamFromRpos : Obligations.UnreadPartIsTheStreamFromRpos := by
  intro s hs hm
  obtain ⟨-, -, hdec⟩ := (inv_iff s).1 hs
  have hcur := sourceOk_cursor_le hdec.source
  obtain ⟨-, hval⟩ := sourceOk_bounds hdec.source
  have hrpos : srcRpos s.dec + s.dec.srcValid = 8 * s.dec.srcCursor := by unfold srcRpos; omega
  refine ⟨by unfold avail; omega, ?_⟩
  have cached : fieldBits s.dec.srcCache s.dec.srcValid =
      (List.range s.dec.srcValid).map fun i => streamBit (ibufByte s.dec) (srcRpos s.dec + i) :=
    List.map_congr_left fun i hi => hm i (List.mem_range.1 hi)
  rw [unreadBits, cached, flatMap_byteBits, avail, List.range_add, List.map_append, List.map_map]
  simp only [Function.comp_def, ← Nat.add_assoc, hrpos]

/-! ### The encoder's operations keep their channel's invariant -/

/-- A channel that is not `DONE` has no error latched (R253). -/
theorem EncFacts.noErr {c : Cfg} {e : EncChannel} (h : EncFacts c e) (hs : e.state ≠ .done) : e.err = ErrReg.clear :=
  h.err.resolve_right fun ⟨hdone, _⟩ => hs hdone

/-- A channel with no error latched may become `DONE`. -/
theorem EncFacts.ofDone {c : Cfg} {e : EncChannel} (hsink : sinkOk c e = true) (hwin : windowOk c e.win = true)
    (herr : e.err = ErrReg.clear) : EncFacts c { e with state := .done } where
  sink := (sinkOk_congr rfl rfl rfl).trans hsink
  window := hwin
  empty := fun h => nomatch h
  prev := fun h => nomatch h
  err := .inl herr

/-- R256: the rewound sink keeps its memory, none of whose bytes is defined any more. -/
theorem sinkOk_restartEnc {c : Cfg} {e : EncChannel} (st : EncState) (h : sinkOk c e = true) :
    sinkOk c (restartEnc st e) = true := by
  simp only [sinkOk, Bool.and_eq_true] at h
  obtain ⟨⟨⟨⟨hwf, hbelow⟩, -⟩, -⟩, -⟩ := h
  exact sinkOk_of_empty hwf hbelow rfl

section EncoderOperations

variable {c : Cfg} {e e' : EncChannel} {cw : CwReport}

theorem snkInit_facts (h : EncFacts c e) : EncFacts c (snkInit c e).1 where
  sink := sinkOk_restartEnc .raw h.sink
  window := h.window
  empty := fun h => nomatch h
  prev := fun h => nomatch h
  err := .inl rfl

theorem snkWrite_facts (value : Sample) (count : BitVec 7) (h : EncFacts c e) :
    EncFacts c (snkWrite value count c e).1 := by
  unfold snkWrite
  split_ifs with hs hf
  · exact h
  · obtain ⟨hraw, -⟩ := not_or.1 hs
    have hraw := not_not.1 hraw
    exact {
      sink := sinkOk_writeBits _ _ h.sink hf
      window := by simpa using h.window
      empty := by simp [hraw]
      prev := by simp [hraw]
      err := by simpa using h.err }
  · exact raiseEnc_facts h (.inr rfl)

theorem snkFinal_facts (h : EncFacts c e) : EncFacts c (snkFinal c e).1 := by
  unfold snkFinal
  split_ifs with hs
  · exact h
  · exact .ofDone h.sink h.window (h.noErr (by simp [not_not.1 hs]))

theorem encBegin_facts (hwf : c.wf = true) (h : EncFacts c e) : EncFacts c (encBegin c e).1 where
  sink := (sinkOk_congr (e := restartEnc .active e) rfl rfl rfl).trans (sinkOk_restartEnc .active h.sink)
  window := initialWindow_ok hwf
  empty := fun _ => Iff.rfl
  prev := fun _ hc => absurd rfl hc
  err := .inl rfl

/-- What a step that wrote a codeword leaves: the sink's and the Window's invariant, a longer stream, and the error
register as it was (R162 to R166). -/
structure CodewordWritten (c : Cfg) (e e' : EncChannel) : Prop where
  sink : sinkOk c e' = true
  window : windowOk c e'.win = true
  grown : e.wbits < e'.wbits
  err : e'.err = e.err

theorem firstValue_written {v : Sample} (h : EncFacts c e) (hf : firstValue c v e = some (e', cw)) :
    CodewordWritten c e e' := by
  rcases firstValue_spec (c := c) (v := v) (sinkOk_padding h.sink) with ⟨-, hnone⟩ | ⟨e₁, -, hsome, hw⟩
  · rw [hnone] at hf; cases hf
  · cases hsome.symm.trans hf
    refine ⟨hw.sink h.sink, hw.win_eq ▸ h.window, ?_, hw.err_eq⟩
    rw [hw.wbits, firstBits_length]
    omega

theorem emitDelta_written {delta : Sample} (h : EncFacts c e) (hf : emitDelta c delta e = some (e', cw)) :
    CodewordWritten c e e' := by
  rcases emitDelta_spec (c := c) (delta := delta) (sinkOk_padding h.sink) with
    hnone | ⟨e₁, w, cw₁, bits, hsome, hw, hpos, hcases⟩
  · rw [hnone] at hf; cases hf
  · cases hsome.symm.trans hf
    have hwin : windowOk c w = true := by
      rcases hcases with ⟨-, rfl, -⟩ | ⟨-, rfl, -⟩ | ⟨hne, rfl, -⟩
      · exact h.window
      · exact h.window
      · exact windowOk_new hne
    refine ⟨(sinkOk_congr rfl rfl rfl).trans (hw.sink h.sink), hwin, ?_, hw.err_eq⟩
    show e.wbits < e₁.wbits
    rw [hw.wbits]
    omega

theorem encSample_facts (v : Sample) (h : EncFacts c e) : EncFacts c (encSample v c e).1 := by
  unfold encSample
  split
  · exact h
  · rename_i hs
    have hactive : e.state = .active := not_not.1 hs
    split
    · exact raiseEnc_facts h (.inl rfl)
    · rename_i hv
      split
      · rename_i e' cw hf
        have hw : CodewordWritten c e e' := by
          split_ifs at hf
          · exact firstValue_written h hf
          · exact emitDelta_written h hf
        exact {
          sink := (sinkOk_congr rfl rfl rfl).trans hw.sink
          window := hw.window
          empty := fun _ => iff_of_false (Nat.ne_zero_of_lt hw.grown) (Nat.succ_ne_zero _)
          prev := fun _ _ => hv
          err := .inl (hw.err.trans (h.noErr (by simp [hactive]))) }
      · exact raiseEnc_facts h (.inr rfl)

theorem encEnd_facts (h : EncFacts c e) : EncFacts c (encEnd c e).1 := by
  unfold encEnd
  split_ifs with hs hc
  · exact h
  · exact .ofDone h.sink h.window (h.noErr (by simp [not_not.1 hs]))
  · split
    · rename_i e' cw hf
      have hw := emitDelta_written h hf
      exact .ofDone hw.sink hw.window (hw.err.trans (h.noErr (by simp [not_not.1 hs])))
    · exact raiseEnc_facts h (.inr rfl)

end EncoderOperations

/-! ### The decoder's operations keep their channel's invariant -/

section DecoderOperations

variable {c : Cfg} {d d' : DecChannel}

theorem sourceOk_restartDec {len : Nat} (st : DecState) (h : sourceOk c d = true)
    (hlen : withinCap len c.ibufCap = true) : sourceOk c (restartDec st len d) = true := by
  simp only [sourceOk, Bool.and_eq_true] at h
  obtain ⟨⟨⟨⟨⟨⟨⟨hwf, hbelow⟩, -⟩, -⟩, -⟩, -⟩, -⟩, -⟩ := h
  exact sourceOk_of_empty hwf hbelow hlen rfl rfl rfl

theorem srcInit_facts (len : Nat) (h : DecFacts c d) : DecFacts c (srcInit len c d).1 := by
  unfold srcInit
  split_ifs with hlen
  · exact {
      source := sourceOk_restartDec .raw h.source hlen
      window := h.window
      m := h.m
      start := fun h => nomatch h
      counted := fun h => nomatch h
      bits := fun h => nomatch h
      err := .inl rfl }
  · exact h

theorem rawRead_facts {n : Nat} (result : Sample → OkResult) (hn : n ≤ 64) (h : DecFacts c d) :
    DecFacts c (rawRead n result d).1 := by
  unfold rawRead
  rcases readBits_cases hn h.source with ⟨-, hnone⟩ | ⟨d', -, hsome, hcons, hsrc⟩
  · rw [hnone]
    exact (raiseDec_kept h (by simp)).facts
  · rw [hsome]
    exact h.read hcons hsrc

theorem srcRdBit_facts (h : DecFacts c d) : DecFacts c (srcRdBit c d).1 := by
  unfold srcRdBit
  split_ifs
  · exact h
  · exact rawRead_facts _ (by omega) h

theorem srcRdBits_facts (count : BitVec 7) (h : DecFacts c d) : DecFacts c (srcRdBits count c d).1 := by
  unfold srcRdBits
  split_ifs with hs
  · exact h
  · exact rawRead_facts _ (by omega) h

theorem decBegin_facts (len : Nat) (hwf : c.wf = true) (h : DecFacts c d) : DecFacts c (decBegin len c d).1 := by
  unfold decBegin
  split_ifs with hlen
  · exact {
      source := (sourceOk_congr (d := restartDec .awaitingFirst len d) rfl rfl rfl rfl rfl).trans
        (sourceOk_restartDec .awaitingFirst h.source hlen)
      window := initialWindow_ok hwf
      m := Nat.zero_le _
      start := fun _ => rfl
      counted := fun _ hne => absurd rfl hne
      bits := fun h => nomatch h
      err := .inl rfl }
  · exact h

theorem decStep_facts (h : DecFacts c d) : DecFacts c (decStep c d).1 := by
  unfold decStep
  split_ifs with hr
  · exact (decStepRule_stepped h hr).facts
  · exact h

theorem decNext_facts (h : DecFacts c d) : DecFacts c (decNext c d).1 := by
  unfold decNext
  split_ifs with hr
  · exact (nextRule_advanced h hr).facts
  · exact h

theorem runBound_le (d : DecChannel) : runBound d ≤ avail d + 2 := by
  unfold runBound
  split <;> omega

theorem decRun_facts (h : DecFacts c d) : DecFacts c (decRun c d).1 := by
  unfold decRun
  split_ifs with hr
  · exact (runLoop_spec h hr (runBound_le d)).1
  · exact h

theorem decSetExpect_facts (en : Bool) (n : Nat) (h : DecFacts c d) : DecFacts c (decSetExpect en n c d).1 where
  source := (sourceOk_congr rfl rfl rfl rfl rfl).trans h.source
  window := h.window
  m := h.m
  start := h.start
  counted := h.counted
  bits := h.bits
  err := h.err

/-! ### The codewords keep it where they stand -/

/-- A codeword keeps the invariant where its rule does at the positions that select it; elsewhere it is refused. -/
theorem onCodeword_facts {i : Instr} {legal : Cfg → DecChannel → Bool}
    {rule : Cfg → DecChannel → DecChannel × StepAnswer} {response : StepAnswer → Response} (h : DecFacts c d)
    (hrule : ∀ pos, codewordPos c d = some pos → i.standsAt pos = true → legal c d = true → DecFacts c (rule c d).1) :
    DecFacts c (onCodeword i legal rule response c d).1 := by
  unfold onCodeword
  split_ifs with hl
  · rw [Bool.and_eq_true, Option.any_eq_true] at hl
    obtain ⟨⟨pos, hpos, hi⟩, hlegal⟩ := hl
    exact hrule pos hpos hi hlegal
  · exact h

theorem newFits_lead {lead len : Nat} {bits : Sample} (h : newFits lead len bits c d = true) : lead ≤ c.leadMax := by
  unfold newFits at h
  rw [Bool.and_eq_true, decide_eq_true_eq] at h
  exact h.1

/-- `REPEAT`, `REUSE` and `NEW` stand in `READING_CONTROL_A` only (R92). -/
theorem state_of_standsAt_data {i : Instr} {pos : CwPos} (hi : ∀ p, i.standsAt p = (p == .data))
    (hpos : codewordPos c d = some pos) (hp : i.standsAt pos = true) : d.state = .readingControlA := by
  rw [hi, beq_iff_eq] at hp
  exact codewordPos_eq_data_iff.1 (hp ▸ hpos)

end DecoderOperations

/-! ### Every step keeps the invariant -/

/-- Every instruction keeps the invariant, by its channel's lemma. -/
theorem exec_keeps_inv {i : Instr} {s t : State} (hs : Inv s) (h : exec i s = .next t) : Inv t := by
  cases i with
  | cwTag b =>
    exact onDec_keeps_inv (fun c d _ hd => onCodeword_facts hd fun _ _ _ _ => (stepTag_kept b hd).facts) hs h
  | cwFirst v =>
    refine onDec_keeps_inv (fun c d _ hd => onCodeword_facts hd fun pos hpos hp _ => ?_) hs h
    obtain rfl : pos = .first := beq_iff_eq.1 hp
    obtain ⟨hst, -⟩ := codewordPos_eq_first_iff.1 hpos
    exact (stepFirst_kept v hd (by rw [hst]; rfl)).facts
  | cwRepeat =>
    refine onDec_keeps_inv (fun c d _ hd => onCodeword_facts hd fun pos hpos hp _ => ?_) hs h
    have hst := state_of_standsAt_data (fun _ => rfl) hpos hp
    exact (stepRepeat_kept hd (by rw [hst]; rfl)).facts
  | cwReuse bits =>
    refine onDec_keeps_inv (fun c d _ hd => onCodeword_facts hd fun pos hpos hp _ => ?_) hs h
    exact (stepReuse_kept bits hd (state_of_standsAt_data (fun _ => rfl) hpos hp)).facts
  | cwNew lead len bits =>
    refine onDec_keeps_inv (fun c d _ hd => onCodeword_facts hd fun pos hpos hp hl => ?_) hs h
    exact (stepNew_kept bits hd (state_of_standsAt_data (fun _ => rfl) hpos hp) (newFits_lead hl)).facts
  | cwPad n => exact onDec_keeps_inv (fun _ _ _ hd => onCodeword_facts hd fun _ _ _ _ => hd) hs h
  | snkInit => exact onEnc_keeps_inv (fun _ _ _ => snkInit_facts) hs h
  | snkWrite value count => exact onEnc_keeps_inv (fun _ _ _ => snkWrite_facts value count) hs h
  | snkFinal => exact onEnc_keeps_inv (fun _ _ _ => snkFinal_facts) hs h
  | encBegin => exact onEnc_keeps_inv (fun _ _ => encBegin_facts) hs h
  | encSample v => exact onEnc_keeps_inv (fun _ _ _ => encSample_facts v) hs h
  | encEnd => exact onEnc_keeps_inv (fun _ _ _ => encEnd_facts) hs h
  | srcInit len => exact onDec_keeps_inv (fun _ _ _ => srcInit_facts len) hs h
  | srcRdBit => exact onDec_keeps_inv (fun _ _ _ => srcRdBit_facts) hs h
  | srcRdBits count => exact onDec_keeps_inv (fun _ _ _ => srcRdBits_facts count) hs h
  | decBegin len => exact onDec_keeps_inv (fun _ _ => decBegin_facts len) hs h
  | decStep => exact onDec_keeps_inv (fun _ _ _ => decStep_facts) hs h
  | decNext => exact onDec_keeps_inv (fun _ _ _ => decNext_facts) hs h
  | decRun => exact onDec_keeps_inv (fun _ _ _ => decRun_facts) hs h
  | decSetExpect en n => exact onDec_keeps_inv (fun _ _ _ => decSetExpect_facts en n) hs h

/-- A byte written to `IBUF` inside its capacity keeps the canonical form of the memory (R60). -/
theorem DecFacts.writeIbuf {c : Cfg} {d : DecChannel} {a : Nat} (h : DecFacts c d)
    (ha : ∀ k, c.ibufCap = some k → a < k) (b : Byte) : DecFacts c { d with ibuf := d.ibuf.write a b } where
  source := by
    have hd := h.source
    simp only [sourceOk, Bool.and_eq_true] at hd ⊢
    obtain ⟨⟨⟨⟨⟨⟨⟨hwf, hbelow⟩, hlen⟩, hcur⟩, hval⟩, hcache⟩, hbefore⟩, haligned⟩ := hd
    exact ⟨⟨⟨⟨⟨⟨⟨Memory.write_wf hwf a b, Memory.write_below hbelow ha b⟩, hlen⟩, hcur⟩, hval⟩, hcache⟩, hbefore⟩,
      haligned⟩
  window := h.window
  m := h.m
  start := h.start
  counted := h.counted
  bits := h.bits
  err := h.err

theorem applyInput_keeps_inv {input : HostInput} {s t : State} (hs : Inv s) (h : applyInput input s = .next t) :
    Inv t := by
  cases input with
  | op q =>
    cases hq : decodeIssue q with
    | ok i => exact exec_keeps_inv hs ((applyInput_decoded s hq).symm.trans h)
    | error err =>
      cases (applyInput_undecoded s hq).symm.trans h
      exact hs
  | writeIbuf a b =>
    obtain ⟨hwf, henc, hdec⟩ := (inv_iff s).1 hs
    obtain ⟨ha, rfl⟩ := applyWriteIbuf_next h
    exact (inv_iff _).2 ⟨hwf, henc, hdec.writeIbuf ha b⟩
  | powerOn =>
    cases h
    exact (inv_iff _).2 ⟨hs.1, encFacts_reset _ _, decFacts_reset _ _⟩

/-- Settles O9: by cases on what the step takes; the waiting list is in no clause of the invariant. -/
theorem stepKeepsInvariant : Obligations.StepKeepsInvariant := by
  intro s t hs h
  cases hp : s.pending with
  | nil =>
    cases (step_idle hp).symm.trans h
    exact hs
  | cons input rest => exact applyInput_keeps_inv (s := s.popInput rest) hs ((step_input hp).symm.trans h)

end Sys2Proof.Machine
end

section
/-! PROOFS of the family `30_encoding`: the two decoders and the two encoders agree, in both directions. -/

namespace Sys2Proof

/-! ### One field of a codeword -/

/-- A field of a fixed format, written and then read. -/
theorem decodeField_fieldBits (part : Cause) {v : Sample} {n : Nat} (rest : List Bool) (h : v.toNat < 2 ^ n) :
    decodeField part n (fieldBits v n ++ rest) = .ok (v, rest) := by
  simp [decodeField, takeField_fieldBits v n rest h]

/-- Everything `decodeField` can do: the stream ends inside the field, or the field's bits stand in front of the rest. -/
theorem decodeField_cases (part : Cause) {n : Nat} (stream : List Bool) (hn : n ≤ 64) :
    (stream.length < n ∧ decodeField part n stream = .error (.endOfStream part)) ∨
      ∃ (v : Sample) (rest : List Bool), v.toNat < 2 ^ n ∧ stream = fieldBits v n ++ rest ∧
        decodeField part n stream = .ok (v, rest) := by
  by_cases h : stream.length < n
  · exact .inl ⟨h, by simp [decodeField, takeField_eq_none.2 h]⟩
  · have hlen : (stream.take n).length = n := by simp; omega
    have hv : (fieldValue (stream.take n)).toNat < 2 ^ n :=
      (fieldValue_toNat_lt (stream.take n)).trans_eq (congrArg (2 ^ ·) hlen)
    have hstream : stream = fieldBits (fieldValue (stream.take n)) n ++ stream.drop n := by
      have := fieldBits_fieldValue (stream.take n) (by omega)
      rw [hlen] at this
      rw [this, List.take_append_drop]
    refine .inr ⟨_, _, hv, hstream, ?_⟩
    conv_lhs => rw [hstream]
    exact decodeField_fieldBits part _ hv

/-! ### Codewords read back from their bits -/

/-- A `REUSE` behind its control bits (R96). -/
theorem decodeReuse_fieldBits {w : Window} {bits : Sample} (rest : List Bool) (hv : w.valid = true)
    (h : bits.toNat < 2 ^ w.width) : decodeReuse w (fieldBits bits w.width ++ rest) = .ok (.cwReuse bits, rest) := by
  rw [decodeReuse, if_pos hv, decodeField_fieldBits _ _ h]
  rfl

/-- A `TAG` (R93); the byte is read whether the configuration uses a tag or not. -/
theorem decodeCodeword_tag (c : Cfg) (w : Window) (t : Byte) (rest : List Bool) :
    decodeCodeword c w .tag (fieldBits (t.setWidth 64) 8 ++ rest) = .ok (.cwTag t, rest) := by
  have ht : (t.setWidth 64).toNat < 2 ^ 8 := by rw [BitVec.toNat_setWidth]; omega
  rw [decodeCodeword, decodeField_fieldBits _ _ ht]
  simp [bind, Except.bind]

theorem toNat_lt_of_le_leadMax {c : Cfg} {n : Nat} (h : n ≤ c.leadMax) : n < 2 ^ c.leadW.bits := by
  have := Nat.two_pow_pos c.leadW.bits
  unfold Cfg.leadMax at h
  omega

/-- A field of 6 bits as a word is as large as the field. -/
theorem toNat_setWidth_of_six (x : BitVec 6) : (x.setWidth 64).toNat = x.toNat := by
  rw [BitVec.toNat_setWidth]
  omega

/-- A field that needs at most `n` bits, narrowed to them, is the same number. -/
theorem setWidth_setWidth_of_lt {x : Sample} {n : Nat} (h : x.toNat < 2 ^ n) : (x.setWidth n).setWidth 64 = x := by
  apply BitVec.eq_of_toNat_eq
  rw [BitVec.toNat_setWidth, BitVec.toNat_setWidth, Nat.mod_eq_of_lt h, Nat.mod_eq_of_lt x.isLt]

/-- A `NEW` behind its control bits, whose counts fit 64 bits (R97). -/
theorem decodeNew_fieldBits {c : Cfg} {lead len : BitVec 6} {bits : Sample} (rest : List Bool)
    (hlead : lead.toNat ≤ c.leadMax) (hle : lead.toNat + (len.toNat + 1) ≤ 64) (h : bits.toNat < 2 ^ (len.toNat + 1)) :
    decodeNew c (fieldBits (lead.setWidth 64) c.leadW.bits ++ (fieldBits (len.setWidth 64) 6 ++
      (fieldBits bits (len.toNat + 1) ++ rest))) = .ok (.cwNew lead len bits, rest) := by
  have h1 : (lead.setWidth 64).toNat < 2 ^ c.leadW.bits := by
    rw [toNat_setWidth_of_six]; exact toNat_lt_of_le_leadMax hlead
  have h2 : (len.setWidth 64).toNat < 2 ^ 6 := by rw [toNat_setWidth_of_six]; exact len.isLt
  rw [decodeNew, decodeField_fieldBits _ _ h1]
  simp only [bind, Except.bind]
  rw [decodeField_fieldBits _ _ h2]
  simp only [toNat_setWidth_of_six]
  rw [if_neg (by omega), decodeField_fieldBits _ _ h]
  simp

theorem bitsFit_iff {bits : Sample} {m : Nat} :
    bitsFit bits m = true ↔ (1 ≤ m ∧ m ≤ 64) ∧ bits.toNat < 2 ^ m := by
  simp [bitsFit]

theorem wf_cwReuse_iff {c : Cfg} {w : Window} {bits : Sample} :
    (Instr.cwReuse bits).wf c w = true ↔ w.valid = true ∧ (1 ≤ w.width ∧ w.width ≤ 64) ∧ bits.toNat < 2 ^ w.width := by
  rw [Instr.wf, Bool.and_eq_true, bitsFit_iff]

theorem wf_cwNew_iff {c : Cfg} {w : Window} {lead len : BitVec 6} {bits : Sample} :
    (Instr.cwNew lead len bits).wf c w = true ↔
      lead.toNat ≤ c.leadMax ∧ lead.toNat + (len.toNat + 1) ≤ 64 ∧ bits.toNat < 2 ^ (len.toNat + 1) := by
  have := len.isLt
  rw [Instr.wf, Bool.and_eq_true, Bool.and_eq_true, bitsFit_iff, decide_eq_true_eq, decide_eq_true_eq]
  omega

/-- Settles O6: each codeword's fields are read back one after another by `decodeField_fieldBits`. -/
theorem codewordDecodeInvertsEncode : Obligations.CodewordDecodeInvertsEncode := by
  intro c w pos i bits rest hpos hwf henc
  cases i with
  | cwTag t =>
    obtain rfl : pos = .tag := beq_iff_eq.1 hpos
    obtain rfl := Option.some.inj henc
    exact decodeCodeword_tag c w t rest
  | cwFirst v =>
    obtain rfl : pos = .first := beq_iff_eq.1 hpos
    obtain rfl := Option.some.inj henc
    rw [decodeCodeword, decodeField_fieldBits _ _ v.isLt]
    rfl
  | cwRepeat =>
    obtain rfl : pos = .data := beq_iff_eq.1 hpos
    obtain rfl := Option.some.inj henc
    rfl
  | cwReuse bits =>
    obtain rfl : pos = .data := beq_iff_eq.1 hpos
    obtain rfl := Option.some.inj henc
    obtain ⟨hv, -, hlt⟩ := wf_cwReuse_iff.1 hwf
    exact decodeReuse_fieldBits rest hv hlt
  | cwNew lead len bits =>
    obtain rfl : pos = .data := beq_iff_eq.1 hpos
    obtain rfl := Option.some.inj henc
    obtain ⟨hlead, hle, hlt⟩ := wf_cwNew_iff.1 hwf
    simp only [List.append_assoc]
    exact decodeNew_fieldBits rest hlead hle hlt
  | cwPad n =>
    obtain rfl : pos = .pad n := beq_iff_eq.1 hpos
    obtain rfl := Option.some.inj henc
    simp [decodeCodeword]
  | snkInit | snkWrite | snkFinal | encBegin | encSample | encEnd => cases hpos
  | srcInit | srcRdBit | srcRdBits => cases hpos
  | decBegin | decStep | decNext | decRun | decSetExpect => cases hpos

/-! ### What the decoder reads at a data position -/

/-- Everything `decodeReuse` can do (R96, R102 (a)). -/
theorem decodeReuse_cases (w : Window) (stream : List Bool) :
    (w.valid = false ∧ decodeReuse w stream = .error .reuseWithoutWindow) ∨
      (w.valid = true ∧ stream.length < w.width ∧ decodeReuse w stream = .error (.endOfStream .bits)) ∨
      ∃ (bits : Sample) (rest : List Bool), w.valid = true ∧ bits.toNat < 2 ^ w.width ∧
        stream = fieldBits bits w.width ++ rest ∧ decodeReuse w stream = .ok (.cwReuse bits, rest) := by
  have hw : w.width ≤ 64 := by unfold Window.width; omega
  cases hv : w.valid with
  | false => exact .inl ⟨rfl, by simp [decodeReuse, hv]⟩
  | true =>
    rcases decodeField_cases .bits stream hw with ⟨hlt, herr⟩ | ⟨bits, rest, hlt, rfl, -⟩
    · exact .inr (.inl ⟨rfl, hlt, by simp [decodeReuse, hv, herr, bind, Except.bind]⟩)
    · exact .inr (.inr ⟨bits, rest, rfl, hlt, rfl, decodeReuse_fieldBits rest hv hlt⟩)

/-- The header of a `NEW` stands in front of `rest`: a `LEAD` that fits its field, and a `LEN` (R97). -/
structure NewHeader (c : Cfg) (lead len : BitVec 6) (stream rest : List Bool) : Prop where
  lead_le : lead.toNat ≤ c.leadMax
  stream_eq : stream = fieldBits (lead.setWidth 64) c.leadW.bits ++ (fieldBits (len.setWidth 64) 6 ++ rest)

/-- Everything `decodeNew` can do (R97, R102 (b)). -/
theorem decodeNew_cases (c : Cfg) (stream : List Bool) :
    (stream.length < c.leadW.bits + 6 ∧ decodeNew c stream = .error (.endOfStream .header)) ∨
      ∃ (lead len : BitVec 6) (rest : List Bool), NewHeader c lead len stream rest ∧
        ((lead.toNat + (len.toNat + 1) > 64 ∧ decodeNew c stream = .error .windowTooWide) ∨
          (lead.toNat + (len.toNat + 1) ≤ 64 ∧ rest.length < len.toNat + 1 ∧
            decodeNew c stream = .error (.endOfStream .bits)) ∨
          ∃ (bits : Sample) (rest' : List Bool), lead.toNat + (len.toNat + 1) ≤ 64 ∧ bits.toNat < 2 ^ (len.toNat + 1) ∧
            rest = fieldBits bits (len.toNat + 1) ++ rest' ∧ decodeNew c stream = .ok (.cwNew lead len bits, rest')) := by
  have hb := Machine.leadW_bits_le c
  rcases decodeField_cases .header stream (show c.leadW.bits ≤ 64 by omega) with
    ⟨hlt, herr⟩ | ⟨x, s1, hx, rfl, hok⟩
  · exact .inl ⟨by omega, by simp [decodeNew, herr, bind, Except.bind]⟩
  rcases decodeField_cases .header s1 (show 6 ≤ 64 by omega) with ⟨hlt, herr⟩ | ⟨y, s2, hy, rfl, hok'⟩
  · exact .inl ⟨by simp; omega, by simp [decodeNew, hok, herr, bind, Except.bind]⟩
  have hx6 : x.toNat < 2 ^ 6 := lt_of_lt_of_le hx (Nat.pow_le_pow_right (by omega) hb)
  have hlead : (x.setWidth 6).toNat = x.toNat := by rw [BitVec.toNat_setWidth, Nat.mod_eq_of_lt hx6]
  have hlen : (y.setWidth 6).toNat = y.toNat := by rw [BitVec.toNat_setWidth, Nat.mod_eq_of_lt hy]
  have hxe := setWidth_setWidth_of_lt hx6
  have hye := setWidth_setWidth_of_lt hy
  have hmax : x.toNat ≤ c.leadMax := by unfold Cfg.leadMax; omega
  refine .inr ⟨x.setWidth 6, y.setWidth 6, s2, ⟨by rwa [hlead], by rw [hxe, hye]⟩, ?_⟩
  rw [hlead, hlen]
  by_cases hle : x.toNat + (y.toNat + 1) > 64
  · exact .inl ⟨hle, by simp [decodeNew, hok, hok', hle, bind, Except.bind]⟩
  rcases decodeField_cases .bits s2 (show y.toNat + 1 ≤ 64 by omega) with ⟨hlt, herr⟩ | ⟨bits, rest', hlt, rfl, hok''⟩
  · exact .inr (.inl ⟨by omega, hlt, by simp [decodeNew, hok, hok', hle, herr, bind, Except.bind]⟩)
  · exact .inr (.inr ⟨bits, rest', by omega, hlt, rfl, by simp [decodeNew, hok, hok', hle, hok'', bind, Except.bind]⟩)

/-- A well-formed codeword of a data position and its bits (R95 to R97). -/
inductive DataCodeword (c : Cfg) (w : Window) : Instr → List Bool → Prop
  | repeated : DataCodeword c w .cwRepeat [false]
  | reuse {bits : Sample} (valid : w.valid = true) (fits : bits.toNat < 2 ^ w.width) :
      DataCodeword c w (.cwReuse bits) ([true, false] ++ fieldBits bits w.width)
  | new {lead len : BitVec 6} {bits : Sample} (lead_le : lead.toNat ≤ c.leadMax)
      (sum_le : lead.toNat + (len.toNat + 1) ≤ 64) (fits : bits.toNat < 2 ^ (len.toNat + 1)) :
      DataCodeword c w (.cwNew lead len bits)
        ([true, true] ++ fieldBits (lead.setWidth 64) c.leadW.bits ++ fieldBits (len.setWidth 64) 6
          ++ fieldBits bits (len.toNat + 1))

/-- Everything the decoder can have read at a data position: by the control bits, and behind them by everything
`decodeReuse` and `decodeNew` can do. -/
theorem decodeData_ok {c : Cfg} {w : Window} {i : Instr} {stream rest : List Bool}
    (h : decodeCodeword c w .data stream = .ok (i, rest)) :
    ∃ bits, DataCodeword c w i bits ∧ stream = bits ++ rest := by
  match stream with
  | [] => cases h
  | [true] => cases h
  | false :: s =>
    cases h
    exact ⟨_, .repeated, rfl⟩
  | true :: false :: s =>
    rcases decodeReuse_cases w s with ⟨-, herr⟩ | ⟨-, -, herr⟩ | ⟨bits, rest', hv, hlt, rfl, hok⟩
    · cases herr.symm.trans h
    · cases herr.symm.trans h
    · cases hok.symm.trans h
      exact ⟨_, .reuse hv hlt, rfl⟩
  | true :: true :: s =>
    rcases decodeNew_cases c s with ⟨-, herr⟩ | ⟨lead, len, s2, hh, hcases⟩
    · cases herr.symm.trans h
    rcases hcases with ⟨-, herr⟩ | ⟨-, -, herr⟩ | ⟨bits, rest', hle, hlt, rfl, hok⟩
    · cases herr.symm.trans h
    · cases herr.symm.trans h
    · cases hok.symm.trans h
      refine ⟨_, .new hh.lead_le hle hlt, ?_⟩
      rw [hh.stream_eq]
      simp only [List.append_assoc, List.cons_append, List.nil_append]

/-- Settles O7: each codeword that `decodeData_ok` names is well formed and stands with the bits it is encoded as. -/
theorem codewordEncodeInvertsDecode : Obligations.CodewordEncodeInvertsDecode := by
  intro c w i stream rest hw h
  obtain ⟨bits, hdata, hstream⟩ := decodeData_ok h
  cases hdata with
  | repeated => exact ⟨rfl, _, rfl, hstream⟩
  | reuse hv hlt => exact ⟨wf_cwReuse_iff.2 ⟨hv, Machine.windowOk_width hw hv, hlt⟩, _, rfl, hstream⟩
  | new hlead hle hlt => exact ⟨wf_cwNew_iff.2 ⟨hlead, hle, hlt⟩, _, rfl, hstream⟩

/-! ### What the decoder reads at the start of the stream -/

/-- Everything the decoder can read at the position of a `TAG` (R93). -/
theorem decodeTag_cases (c : Cfg) (w : Window) (stream : List Bool) :
    (stream.length < 8 ∧ decodeCodeword c w .tag stream = .error (.endOfStream .first)) ∨
      ∃ (t : Byte) (rest : List Bool), stream = fieldBits (t.setWidth 64) 8 ++ rest ∧
        decodeCodeword c w .tag stream = .ok (.cwTag t, rest) := by
  rcases decodeField_cases .first stream (show 8 ≤ 64 by omega) with ⟨hlt, herr⟩ | ⟨v, rest, hv, rfl, -⟩
  · exact .inl ⟨hlt, by simp [decodeCodeword, herr, bind, Except.bind]⟩
  · refine .inr ⟨v.setWidth 8, rest, by rw [setWidth_setWidth_of_lt hv], ?_⟩
    have hok := decodeCodeword_tag c w (v.setWidth 8) rest
    rwa [setWidth_setWidth_of_lt hv] at hok

/-- Everything the decoder can read at the position of a `FIRST` (R94). -/
theorem decodeFirst_cases (c : Cfg) (w : Window) (stream : List Bool) :
    (stream.length < 64 ∧ decodeCodeword c w .first stream = .error (.endOfStream .first)) ∨
      ∃ (v : Sample) (rest : List Bool), stream = fieldBits v 64 ++ rest ∧
        decodeCodeword c w .first stream = .ok (.cwFirst v, rest) := by
  rcases decodeField_cases .first stream (show 64 ≤ 64 by omega) with ⟨hlt, herr⟩ | ⟨v, rest, -, hstream, hok⟩
  · exact .inl ⟨hlt, by simp [decodeCodeword, herr, bind, Except.bind]⟩
  · exact .inr ⟨v, rest, hstream, by simp [decodeCodeword, hok, bind, Except.bind]⟩

/-! ### Encodings written out -/

/-- Settles O4: the codes by the table, the codewords as the encodings of their fields. -/
theorem writtenOutEncodingsDecode : Obligations.WrittenOutEncodingsDecode := by
  have code {q : Issue} {k : BitVec 8} {r : Except DecodeError Instr} (hk : decodeIssue { q with code := k } = r)
      (h : q.code = k) : decodeIssue q = r := by rw [← hk, ← h]
  refine ⟨fun _ => code rfl, fun _ => code rfl, fun _ => code rfl, fun _ => code rfl, fun _ => code rfl, fun _ => code rfl,
    fun _ => code rfl, fun _ => code rfl, fun _ => code rfl, fun _ => code rfl, fun _ => code rfl, fun _ => code rfl,
    fun _ => code rfl, fun _ => code rfl, fun c w rest => ?_, fun c w rest => ?_, fun c w rest => ?_, fun c w rest => ?_,
    fun c rest => ?_, fun c w rest hc => ?_, fun c w rest hc => ?_⟩
  · exact codewordDecodeInvertsEncode _ _ _ _ _ rest rfl rfl (congrArg some (by decide))
  · exact codewordDecodeInvertsEncode _ _ _ _ _ rest rfl rfl (congrArg some (by decide))
  · have hbits : [true, false, true, false, false, true, false, true] = fieldBits ((0xA5#8).setWidth 64) 8 := by decide
    rw [hbits]
    exact decodeCodeword_tag c w _ rest
  · rfl
  · exact codewordDecodeInvertsEncode _ _ _ _ _ rest rfl (wf_cwReuse_iff.2 (by decide)) (congrArg some (by decide))
  · exact codewordDecodeInvertsEncode _ _ _ _ _ rest rfl (wf_cwNew_iff.2 (by simp [Cfg.leadMax, hc, LeadWidth.bits]))
      (by rw [encodeCodeword, hc]; decide)
  · exact codewordDecodeInvertsEncode _ _ _ _ _ rest rfl (wf_cwNew_iff.2 (by simp [Cfg.leadMax, hc, LeadWidth.bits]))
      (by rw [encodeCodeword, hc]; decide)

/-- Settles O5: by cases on the instruction; each code selects the arm that reads the lanes its operands were put in. -/
theorem issueDecodeInvertsEncode : Obligations.IssueDecodeInvertsEncode := by
  intro i q h
  cases i with
  | cwTag | cwFirst | cwRepeat | cwReuse | cwNew | cwPad => cases h
  | snkInit | snkWrite | snkFinal | encBegin | encSample | encEnd => cases h; rfl
  | srcInit | srcRdBit | srcRdBits => cases h; rfl
  | decBegin | decStep | decNext | decRun | decSetExpect => cases h; rfl

end Sys2Proof
end

section
/-! PROOFS of the family `30_encoding`: the bits the encoder writes, operation by operation, and the size of a constant
sequence. -/

namespace Sys2Proof.Machine

variable {c : Cfg} {e e' : EncChannel} {cw : CwReport} {v delta : Sample}

/-! ### `SNK_FINAL` -/

theorem snkFinal_of_raw (h : e.state = .raw) :
    snkFinal c e = ({ e with state := .done }, .ok (.length (snkLen e))) := by simp [snkFinal, h]

/-- Settles O20. -/
theorem snkFinalAnswersLength : Obligations.SnkFinalAnswersLength := by
  refine fun s hwf => ⟨fun h => ?_, fun h => onEnc_of_refused hwf (snkFinal_of_state_ne_raw h)⟩
  calc exec .snkFinal s = onEnc snkFinal s := rfl
    _ = _ := by rw [onEnc_eq _ _ hwf, snkFinal_of_raw h]; rfl

/-! ### What each codeword appends to the sink -/

/-- A write to the sink changes the memory and `SNK_WBITS` and nothing else. -/
theorem Wrote.exists_memory {bits : List Bool} {n : Nat} (h : Wrote c bits e e') (hn : bits.length = n) :
    ∃ mem, e' = { e with obuf := mem, wbits := e.wbits + n } ∧ Appended e bits mem :=
  ⟨e'.obuf, by rw [← hn, ← h.wbits]; exact h.rest, h.appended⟩

theorem firstValue_writes (hp : paddingZero e = true) (hf : fits c e (64 + 8 * c.tagBytes) = true) :
    ∃ mem, firstValue c v e =
        some ({ e with obuf := mem, wbits := e.wbits + (64 + 8 * c.tagBytes) }, ⟨.first, 64 + 8 * c.tagBytes⟩) ∧
      Appended e (firstBits c v) mem := by
  rcases firstValue_spec (c := c) (v := v) hp with ⟨hno, -⟩ | ⟨e', -, h, hw⟩
  · simp [hf] at hno
  · obtain ⟨mem, rfl, happ⟩ := hw.exists_memory (firstBits_length c v)
    exact ⟨mem, h, happ⟩

theorem emitDelta_zero (c : Cfg) (e : EncChannel) : emitDelta c 0 e = emitRepeat c e := by simp [emitDelta]

theorem emitRepeat_writes (hp : paddingZero e = true) (hf : fits c e 1 = true) :
    ∃ mem, emitRepeat c e = some ({ e with obuf := mem, wbits := e.wbits + 1 }, ⟨.repeated, 1⟩) ∧
      Appended e [false] mem := by
  rcases emitRepeat_spec (c := c) hp with ⟨hno, -⟩ | ⟨e', -, h, hw⟩
  · simp [hf] at hno
  · obtain ⟨mem, rfl, happ⟩ := hw.exists_memory rfl
    exact ⟨mem, h, happ⟩

theorem reusable_iff {w : Window} {lead trail : Nat} :
    reusable w lead trail = true ↔ w.valid = true ∧ w.lead ≤ lead ∧ w.trail ≤ trail := by
  simp [reusable, and_assoc]

/-- A delta inside the Window in force: the `REUSE` codeword (R165). -/
theorem emitDelta_inside_writes (hp : paddingZero e = true) (hd : delta ≠ 0)
    (hin : e.win.valid = true ∧ e.win.lead ≤ clampedLead c delta ∧ e.win.trail ≤ ctz64 delta)
    (hf : fits c e (2 + e.win.width) = true) :
    ∃ mem, emitDelta c delta e =
        some ({ e with obuf := mem, wbits := e.wbits + (2 + e.win.width) }, ⟨.reuse, 2 + e.win.width⟩) ∧
      Appended e (reuseBits e.win delta) mem := by
  have heq : emitDelta c delta e = reuseWindow c delta e := (if_neg hd).trans (if_pos (reusable_iff.2 hin))
  rcases reuseWindow_spec (c := c) (delta := delta) hp with ⟨hno, -⟩ | ⟨e', -, h, hw⟩
  · simp [hf] at hno
  · obtain ⟨mem, rfl, happ⟩ := hw.exists_memory (reuseBits_length e.win delta)
    exact ⟨mem, heq.trans h, happ⟩

theorem emitDelta_outside (hd : delta ≠ 0)
    (hout : ¬ (e.win.valid = true ∧ e.win.lead ≤ clampedLead c delta ∧ e.win.trail ≤ ctz64 delta)) :
    emitDelta c delta e = newWindow c delta (clampedLead c delta) (ctz64 delta) e :=
  (if_neg hd).trans (if_neg (mt reusable_iff.1 hout))

/-- A delta outside the Window in force, or no Window: the `NEW` codeword, whose Window is then in force (R166). -/
theorem emitDelta_outside_writes {lead trail n : Nat} (hp : paddingZero e = true) (hd : delta ≠ 0)
    (hlead : lead = clampedLead c delta) (htrail : trail = ctz64 delta)
    (hout : ¬ (e.win.valid = true ∧ e.win.lead ≤ lead ∧ e.win.trail ≤ trail))
    (hn : n = 2 + c.leadW.bits + 6 + (64 - lead - trail)) (hf : fits c e n = true) :
    ∃ mem, emitDelta c delta e =
        some ({ e with obuf := mem, wbits := e.wbits + n, win := ⟨true, lead, trail⟩ }, ⟨.new, n⟩) ∧
      Appended e (newBits c lead trail delta) mem := by
  subst hlead htrail hn
  have heq := emitDelta_outside hd hout
  rcases newWindow_spec (c := c) (delta := delta) (lead := clampedLead c delta) (trail := ctz64 delta) hp with
    ⟨hno, -⟩ | ⟨e', -, h, hw⟩
  · simp [hf] at hno
  · obtain ⟨mem, rfl, happ⟩ := hw.exists_memory (newBits_length c _ _ delta)
    exact ⟨mem, heq.trans h, happ⟩

/-! ### `ENC_SAMPLE` -/

theorem encSample_first (hs : e.state = .active) (hc : e.count = 0) (hv : v ≠ c.sentinel)
    (h : firstValue c v e = some (e', cw)) :
    encSample v c e = ({ e' with prev := v, count := 1 }, .ok (.codeword cw)) := by
  simp [encSample, hs, hc, hv, h]

theorem encSample_later (hs : e.state = .active) (hc : e.count ≠ 0) (hv : v ≠ c.sentinel)
    (h : emitDelta c (v ^^^ e.prev) e = some (e', cw)) :
    encSample v c e = ({ e' with prev := v, count := e.count + 1 }, .ok (.codeword cw)) := by
  simp [encSample, hs, hc, hv, h]

/-- `ENC_SAMPLE` on the machine, from what it does to its channel. -/
theorem exec_encSample {s : State} {r : Response} (hwf : s.cfg.wf = true) (h : encSample v s.cfg s.enc = (e', r)) :
    exec (.encSample v) s = .next { s with enc := e', resp := some r } := by
  calc exec (.encSample v) s = onEnc (encSample v) s := rfl
    _ = _ := by rw [onEnc_eq _ _ hwf, h]; rfl

theorem exec_encEnd {s : State} {r : Response} (hwf : s.cfg.wf = true) (h : encEnd s.cfg s.enc = (e', r)) :
    exec .encEnd s = .next { s with enc := e', resp := some r } := by
  calc exec .encEnd s = onEnc encEnd s := rfl
    _ = _ := by rw [onEnc_eq _ _ hwf, h]; rfl

/-- Settles O22. -/
theorem encSampleWritesFirstValueWhole : Obligations.EncSampleWritesFirstValueWhole := by
  intro s v hs hst hc hv hf
  obtain ⟨hwf, henc, -⟩ := (inv_iff s).1 hs
  obtain ⟨mem, h, happ⟩ := firstValue_writes (v := v) (sinkOk_padding henc.sink) hf
  exact ⟨mem, exec_encSample hwf (encSample_first hst hc hv h), happ⟩

/-- Settles O23: the delta of a value to itself is 0, and the previous value is never `SENTINEL`. -/
theorem encSampleOfEqualValueWritesRepeat : Obligations.EncSampleOfEqualValueWritesRepeat := by
  intro s hs hst hc hf
  obtain ⟨hwf, henc, -⟩ := (inv_iff s).1 hs
  obtain ⟨mem, h, happ⟩ := emitRepeat_writes (sinkOk_padding henc.sink) hf
  have hdelta : emitDelta s.cfg (s.enc.prev ^^^ s.enc.prev) s.enc = emitRepeat s.cfg s.enc := by
    rw [BitVec.xor_self]; exact emitDelta_zero _ _
  exact ⟨mem, exec_encSample hwf (encSample_later hst hc (henc.prev hst hc) (hdelta.trans h)), happ⟩

theorem xor_ne_zero {x y : Sample} (h : x ≠ y) : x ^^^ y ≠ 0 := mt BitVec.xor_eq_zero_iff.1 h

/-- Settles O24: the Window's counts are no larger than the delta's, so its field leaves no bit of the delta out. -/
theorem encSampleInsideWindowWritesReuse : Obligations.EncSampleInsideWindowWritesReuse := by
  intro s v hs hst hc hv hne hvalid hlead htrail hf
  obtain ⟨hwf, henc, -⟩ := (inv_iff s).1 hs
  have hd := xor_ne_zero hne
  obtain ⟨mem, h, happ⟩ := emitDelta_inside_writes (sinkOk_padding henc.sink) hd ⟨hvalid, hlead, htrail⟩ hf
  exact ⟨mem, exec_encSample hwf (encSample_later hst hc hv h), happ,
    meaningfulBits_lt (getLsbD_of_le_clz64 hd (hlead.trans (Nat.min_le_left _ _))),
    deltaOf_meaningfulBits (getLsbD_of_le_ctz64 hd htrail)⟩

theorem not_inside_of {w : Window} {lead trail : Nat} (h : w.valid = false ∨ lead < w.lead ∨ trail < w.trail) :
    ¬ (w.valid = true ∧ w.lead ≤ lead ∧ w.trail ≤ trail) := by
  rintro ⟨hv, hl, ht⟩
  rcases h with h | h | h
  · rw [hv] at h; cases h
  · omega
  · omega

/-- Settles O25: the field spans the delta's own counts, the leading one clamped, so it leaves no bit of the delta out. -/
theorem encSampleOutsideWindowWritesNew : Obligations.EncSampleOutsideWindowWritesNew := by
  intro s v lead trail m hs hst hc hv hne hlead htrail hm hout hf
  obtain ⟨hwf, henc, -⟩ := (inv_iff s).1 hs
  have hd := xor_ne_zero hne
  subst hm
  obtain ⟨mem, h, happ⟩ :=
    emitDelta_outside_writes (sinkOk_padding henc.sink) hd hlead htrail (not_inside_of hout) rfl hf
  have hclz : lead ≤ clz64 (v ^^^ s.enc.prev) := by omega
  have hsum := clz64_add_ctz64_le hd
  exact ⟨mem, exec_encSample hwf (encSample_later hst hc hv h), happ, by omega,
    toNat_lt_of_le_leadMax (by omega), meaningfulBits_lt (getLsbD_of_le_clz64 hd hclz),
    deltaOf_meaningfulBits (getLsbD_of_le_ctz64 hd htrail.le)⟩

/-! ### `ENC_END` -/

theorem encEnd_empty (hs : e.state = .active) (hc : e.count = 0) : encEnd c e = finishEncode e := by
  simp [encEnd, hs, hc]

theorem encEnd_terminal (hs : e.state = .active) (hc : e.count ≠ 0)
    (h : emitDelta c (c.sentinel ^^^ e.prev) e = some (e', cw)) : encEnd c e = finishEncode e' := by
  simp [encEnd, hs, hc, h]

/-- Settles O28: the previous value is never `SENTINEL`, so the terminal delta is not 0 and a `REUSE` or a `NEW` is
written. -/
theorem encEndWritesTerminalCodeword : Obligations.EncEndWritesTerminalCodeword := by
  intro s delta lead trail m w hs hst hdelta hlead htrail hm hw
  obtain ⟨hwf, henc, -⟩ := (inv_iff s).1 hs
  have hp := sinkOk_padding henc.sink
  subst hdelta hm hw
  refine ⟨fun hc => ?_, fun hc hin hf => ?_, fun hc hout hf => ?_⟩
  · have hlen : snkLen s.enc = 0 := snkLen_of_empty ((henc.empty hst).2 hc)
    rw [← hlen]
    exact exec_encEnd hwf (encEnd_empty hst hc)
  · have hd := xor_ne_zero (henc.prev hst hc).symm
    subst hlead htrail
    obtain ⟨mem, h, happ⟩ := emitDelta_inside_writes hp hd hin hf
    exact ⟨mem, exec_encEnd hwf (encEnd_terminal hst hc h), happ⟩
  · have hd := xor_ne_zero (henc.prev hst hc).symm
    obtain ⟨mem, h, happ⟩ := emitDelta_outside_writes hp hd hlead htrail hout rfl hf
    exact ⟨mem, exec_encEnd hwf (encEnd_terminal hst hc h), happ⟩

/-! ### `encode` that answers `Ok` -/

theorem issue_onEnc {i : Instr} {f : Cfg → EncChannel → EncChannel × Response} (hi : ∀ s, exec i s = onEnc f s)
    {s : State} (hwf : s.cfg.wf = true) :
    issue i s = some (s.setEnc (f s.cfg s.enc).1 (f s.cfg s.enc).2, (f s.cfg s.enc).2) := by
  rw [issue, hi, onEnc_eq s f hwf]
  rfl

theorem issue_keeps_cfg {i : Instr} {s t : State} {r : Response} (h : issue i s = some (t, r)) : t.cfg = s.cfg := by
  unfold issue at h
  split at h
  · rename_i u hu
    obtain ⟨r', -, hr⟩ := Option.map_eq_some_iff.1 h
    cases hr
    exact exec_keeps_cfg hu
  · cases h
  · cases h

theorem sampleLoop_keeps_cfg {vs : List Sample} {s t : State} {failed : Option ErrKind}
    (h : sampleLoop vs s = some (t, failed)) : t.cfg = s.cfg := by
  induction vs generalizing s with
  | nil => cases h; rfl
  | cons v vs ih =>
    unfold sampleLoop at h
    split at h
    · rename_i u r hu
      exact (ih h).trans (issue_keeps_cfg hu)
    · rename_i u kind cause hu
      cases h
      exact issue_keeps_cfg hu
    · cases h

/-- The loop of R168 goes on only behind an `ENC_SAMPLE` that answered `Ok`. -/
theorem sampleLoop_cons_ok {vs : List Sample} {s t : State} (hwf : s.cfg.wf = true)
    (h : sampleLoop (v :: vs) s = some (t, none)) :
    ∃ e r, encSample v s.cfg s.enc = (e, .ok r) ∧ sampleLoop vs (s.setEnc e (.ok r)) = some (t, none) := by
  rw [sampleLoop, issue_onEnc (f := encSample v) (fun _ => rfl) hwf] at h
  rcases hr : encSample v s.cfg s.enc with ⟨e, r | ⟨kind, cause⟩ | _⟩
  · exact ⟨e, r, rfl, by simpa only [hr] using h⟩
  · simp [hr] at h
  · simp [hr] at h

/-- An `encode` that answered `Ok`: every sample was taken, the `ENC_END` behind them answered `Ok`, and the bytes are
those of `OBUF` (R168). -/
theorem encode_ok {values : List Sample} {s : State} {bytes : List Byte} (hwf : s.cfg.wf = true)
    (h : encode values s = some (.ok bytes)) :
    ∃ t e r, sampleLoop values (s.setEnc (encBegin s.cfg s.enc).1 (.ok .unit)) = some (t, none) ∧
      encEnd s.cfg t.enc = (e, .ok r) ∧ bytes = obufBytes e := by
  have hbegin : (encBegin s.cfg s.enc).2 = .ok .unit := rfl
  rw [encode, issue_onEnc (f := encBegin) (fun _ => rfl) hwf, hbegin] at h
  simp only [Option.bind_eq_bind, Option.bind_some] at h
  rcases hl : sampleLoop values (s.setEnc (encBegin s.cfg s.enc).1 (.ok .unit)) with _ | ⟨t, _ | kind⟩
  · simp [hl] at h
  · have hcfg : t.cfg = s.cfg := (sampleLoop_keeps_cfg hl).trans rfl
    rw [hl] at h
    simp only [Option.bind_some, issue_onEnc (i := .encEnd) (f := encEnd) (fun _ => rfl) (hcfg ▸ hwf)] at h
    rcases hr : encEnd s.cfg t.enc with ⟨e, r | ⟨kind, cause⟩ | _⟩
    · exact ⟨t, e, r, rfl, hr, by simpa [hcfg, hr, eq_comm] using h⟩
    · simp [hcfg, hr] at h
    · simp [hcfg, hr] at h
  · simp [hl] at h

/-- Everything an `ENC_SAMPLE` that answered `Ok` did (R161). -/
theorem encSample_ok {r : OkResult} (h : encSample v c e = (e', .ok r)) :
    e.state = .active ∧ v ≠ c.sentinel ∧
      ∃ e₁ cw, (if e.count = 0 then firstValue c v e else emitDelta c (v ^^^ e.prev) e) = some (e₁, cw) ∧
        e' = { e₁ with prev := v, count := e.count + 1 } := by
  unfold encSample at h
  split at h
  · cases h
  · rename_i hs
    split at h
    · cases h
    · rename_i hv
      split at h
      · rename_i e₁ cw hw
        cases h
        exact ⟨not_not.1 hs, hv, e₁, cw, hw, rfl⟩
      · cases h

/-- Everything an `ENC_END` behind at least one sample did, where it answered `Ok` (R167). -/
theorem encEnd_ok {r : OkResult} (hc : e.count ≠ 0) (h : encEnd c e = (e', .ok r)) :
    ∃ e₁ cw, emitDelta c (c.sentinel ^^^ e.prev) e = some (e₁, cw) ∧ e' = { e₁ with state := .done } := by
  unfold encEnd at h
  rw [if_neg hc] at h
  split at h
  · cases h
  · split at h
    · rename_i e₁ cw hw
      cases h
      exact ⟨e₁, cw, hw, rfl⟩
    · cases h

/-! ### A constant sequence -/

/-- The encoder amid a constant sequence: `n` bits written, the last sample `v`, no Window in force. -/
structure AmidConstant (v : Sample) (n : Nat) (e : EncChannel) : Prop where
  padding : paddingZero e = true
  wbits : e.wbits = n
  prev : e.prev = v
  window : e.win.valid = false
  count : e.count ≠ 0

/-- The first sample takes 64 bits, and 8 more for a tag (R162). -/
theorem encSample_first_amidConstant {r : OkResult} (hp : paddingZero e = true) (hb : e.wbits = 0)
    (hc : e.count = 0) (hw : e.win.valid = false) (h : encSample v c e = (e', .ok r)) :
    AmidConstant v (64 + 8 * c.tagBytes) e' := by
  obtain ⟨-, -, e₁, cw, hem, rfl⟩ := encSample_ok h
  rw [if_pos hc] at hem
  rcases firstValue_spec (c := c) (v := v) hp with ⟨-, hno⟩ | ⟨e₂, -, hsome, hwrote⟩
  · cases hno.symm.trans hem
  · cases hsome.symm.trans hem
    exact {
      padding := (paddingZero_congr rfl rfl rfl).trans hwrote.padding
      wbits := by show e₁.wbits = _; rw [hwrote.wbits, hb, firstBits_length, Nat.zero_add]
      prev := rfl
      window := by show e₁.win.valid = false; rw [hwrote.win_eq, hw]
      count := Nat.succ_ne_zero _ }

/-- Every further sample takes one bit (R163). -/
theorem encSample_later_amidConstant {n : Nat} {r : OkResult} (ha : AmidConstant v n e)
    (h : encSample v c e = (e', .ok r)) : AmidConstant v (n + 1) e' := by
  obtain ⟨-, -, e₁, cw, hem, rfl⟩ := encSample_ok h
  rw [if_neg ha.count, ha.prev, BitVec.xor_self] at hem
  rcases emitRepeat_spec (c := c) ha.padding with ⟨-, hno⟩ | ⟨e₂, -, hsome, hwrote⟩
  · cases hno.symm.trans ((emitDelta_zero c e).symm.trans hem)
  · cases hsome.symm.trans ((emitDelta_zero c e).symm.trans hem)
    exact {
      padding := (paddingZero_congr rfl rfl rfl).trans hwrote.padding
      wbits := by show e₁.wbits = _; rw [hwrote.wbits, ha.wbits]; rfl
      prev := rfl
      window := by show e₁.win.valid = false; rw [hwrote.win_eq, ha.window]
      count := Nat.succ_ne_zero _ }

theorem sampleLoop_amidConstant {k n : Nat} {s t : State} (hwf : s.cfg.wf = true) (ha : AmidConstant v n s.enc)
    (h : sampleLoop (List.replicate k v) s = some (t, none)) : AmidConstant v (n + k) t.enc := by
  induction k generalizing n s with
  | zero => cases h; exact ha
  | succ k ih =>
    obtain ⟨e, r, hr, hrest⟩ := sampleLoop_cons_ok hwf h
    rw [Nat.add_comm k, ← Nat.add_assoc]
    exact ih (s := s.setEnc e (.ok r)) hwf (encSample_later_amidConstant ha hr) hrest

/-- The terminal codeword behind a constant sequence is a `NEW`: no Window is in force (R166, R167). -/
theorem encEnd_amidConstant {n : Nat} {r : OkResult} (ha : AmidConstant v n e) (hd : c.sentinel ^^^ v ≠ 0)
    (h : encEnd c e = (e', .ok r)) :
    e'.wbits = n + (2 + c.leadW.bits + 6 + (64 - clampedLead c (c.sentinel ^^^ v) - ctz64 (c.sentinel ^^^ v))) := by
  obtain ⟨e₁, cw, hem, rfl⟩ := encEnd_ok ha.count h
  rw [ha.prev, emitDelta_outside hd (by simp [ha.window])] at hem
  rcases newWindow_spec (c := c) (delta := c.sentinel ^^^ v) (lead := clampedLead c (c.sentinel ^^^ v))
    (trail := ctz64 (c.sentinel ^^^ v)) ha.padding with ⟨-, hno⟩ | ⟨e₂, -, hsome, hwrote⟩
  · cases hno.symm.trans hem
  · cases hsome.symm.trans hem
    show e₂.wbits = _
    rw [hwrote.wbits, ha.wbits, newBits_length]

theorem obufBytes_length (e : EncChannel) : (obufBytes e).length = (e.wbits + 7) / 8 := by
  simp [obufBytes, snkLen]

/-- Settles O58: 64 bits and the tag for the first sample, one bit for each other, and a `NEW` at the end. -/
theorem constantSequenceHasItsSize : Obligations.ConstantSequenceHasItsSize := by
  intro s v n lead trail bytes hwf hwin hlead htrail h
  obtain ⟨t, e, r, hloop, hend, rfl⟩ := encode_ok hwf h
  rw [List.replicate_succ] at hloop
  obtain ⟨e₁, r₁, hfirst, hrest⟩ := sampleLoop_cons_ok (s := s.setEnc _ _) hwf hloop
  obtain ⟨-, hv, -⟩ := encSample_ok hfirst
  have hempty : (encBegin s.cfg s.enc).1.win.valid = false := by
    show s.cfg.initialWindow.valid = false
    rw [Cfg.initialWindow, hwin]
    rfl
  have hpad : paddingZero (encBegin s.cfg s.enc).1 = true := by simp [paddingZero_iff, encBegin, padCount]
  have ha := encSample_first_amidConstant (c := s.cfg) hpad rfl rfl hempty hfirst
  have hb := sampleLoop_amidConstant (s := State.setEnc _ _ _) hwf ha hrest
  rw [obufBytes_length, encEnd_amidConstant (c := s.cfg) hb (xor_ne_zero (Ne.symm hv)) hend, hlead, htrail,
    BitVec.xor_comm v, clampedLead]
  congr 1
  omega

end Sys2Proof.Machine
end

section
/-! PROOFS of the family `30_encoding`: what each codeword does where it stands, and where the stream ends inside it. -/

namespace Sys2Proof.Machine

variable {c : Cfg} {d : DecChannel} {n m : Nat} {bits v : Sample}

/-! ### Parts of a codeword -/

theorem Consumed.unread_eq {d' : DecChannel} (h : Consumed d d' n) : unreadBits d' = (unreadBits d).drop n := by
  obtain ⟨-, hunread, -⟩ := h
  exact hunread

theorem Consumed.rpos_eq {d' : DecChannel} (h : Consumed d d' n) : srcRpos d' = srcRpos d + n := by
  obtain ⟨-, -, hrpos, -⟩ := h
  exact hrpos

theorem Consumed.unread_length {d' : DecChannel} (h : Consumed d d' n) :
    (unreadBits d').length = (unreadBits d).length - n := by
  rw [h.unread_eq, List.length_drop]

/-- A read takes the same bits whatever the other registers hold. -/
theorem Consumed.transfer {e e' : DecChannel} (h : Consumed e e' n) (hs : SameSource e d) :
    Consumed d { d with srcCursor := e'.srcCursor, srcValid := e'.srcValid, srcCache := e'.srcCache } n := by
  obtain ⟨heq, hunread, hrpos, hlazy⟩ := h
  have hs' : SameSource e' { d with srcCursor := e'.srcCursor, srcValid := e'.srcValid, srcCache := e'.srcCache } :=
    { len := hs.len.trans (by rw [heq]), cursor := rfl, valid := rfl, cache := rfl,
      ibuf := hs.ibuf.trans (by rw [heq]), epoch := hs.epoch.trans (by rw [heq]) }
  refine ⟨rfl, ?_, ?_, hlazy.congr hs hs'⟩
  · rw [hs'.unread, hunread, hs.unread]
  · have hd : srcRpos d = srcRpos e := by simp only [srcRpos, hs.cursor, hs.valid]
    rw [hd, ← hrpos]
    rfl

section Parts

variable {cause cause' : Cause} {next : DecChannel → DecChannel × StepAnswer}

theorem consume_short (h : (unreadBits d).length < n) : consume n cause next d = raiseDec .unexpectedEof cause d := by
  simp [consume, readBits_none_iff.2 h]

theorem consume_read (hd : DecFacts c d) (hn : n ≤ 64) (h : n ≤ (unreadBits d).length) :
    ∃ d', consume n cause next d = next d' ∧ Consumed d d' n ∧ DecFacts c d' := by
  rcases consume_cases (cause := cause) (next := next) hn hd with ⟨hlt, -⟩ | ⟨d', -, heq, hc, hd', -⟩
  · omega
  · exact ⟨d', heq, hc, hd'⟩

/-- Two parts one after another, both in the stream. -/
theorem consume_consume_read (hd : DecFacts c d) (hn : n ≤ 64) (hm : m ≤ 64) (h : n + m ≤ (unreadBits d).length) :
    ∃ d', consume n cause (consume m cause' next) d = next d' ∧ Consumed d d' (n + m) ∧ DecFacts c d' := by
  obtain ⟨d₁, heq₁, hc₁, hd₁⟩ := consume_read (cause := cause) (next := consume m cause' next) hd hn (by omega)
  have hlen := hc₁.unread_length
  obtain ⟨d₂, heq₂, hc₂, hd₂⟩ := consume_read (cause := cause') (next := next) hd₁ hm (by omega)
  exact ⟨d₂, heq₁.trans heq₂, hc₁.trans hc₂, hd₂⟩

/-- Two parts one after another, the stream ending inside the second. -/
theorem consume_consume_short (hd : DecFacts c d) (hn : n ≤ 64) (h₁ : n ≤ (unreadBits d).length)
    (h₂ : (unreadBits d).length < n + m) :
    ∃ d', consume n cause (consume m cause' next) d = raiseDec .unexpectedEof cause' d' ∧ Consumed d d' n := by
  obtain ⟨d', heq, hc, -⟩ := consume_read (cause := cause) (next := consume m cause' next) hd hn h₁
  have hlen := hc.unread_length
  exact ⟨d', heq.trans (consume_short (by omega)), hc⟩

end Parts

/-! ### The meaningful bits and the sentinel test -/

/-- The stream ends inside the meaningful bits, whose Window and width the codeword has set. -/
theorem finishCodeword_short {w : Window} (h : (unreadBits d).length < m) :
    finishCodeword c bits { d with win := w, m := m, state := .readingMeaningfulBits } =
      raiseDec .unexpectedEof .bits { d with win := w, m := m, state := .readingMeaningfulBits } :=
  consume_short h

/-- The meaningful bits are in the stream (R198). -/
theorem finishCodeword_read {w : Window} (hd : DecFacts c d) (hm : m ≤ 64) (h : m ≤ (unreadBits d).length) :
    ∃ d', Consumed d d' m ∧
      finishCodeword c bits { d with win := w, m := m, state := .readingMeaningfulBits } =
        ruleCheckSentinel c { d' with
          win := w, m := m, cur := d.prev ^^^ deltaOf bits w.trail, state := .checkSentinel } := by
  have hs : SameSource d { d with win := w, m := m, state := .readingMeaningfulBits } := ⟨rfl, rfl, rfl, rfl, rfl, rfl⟩
  rcases readBits_cases hm (hs.sourceOk hd.source) with ⟨hlt, -⟩ | ⟨e', -, hread, hc, -⟩
  · rw [hs.unread] at hlt
    omega
  · have ⟨heq, _⟩ := hc
    refine ⟨_, hc.transfer (d := d) ⟨rfl, rfl, rfl, rfl, rfl, rfl⟩, ?_⟩
    simp only [finishCodeword, consume, hread]
    rw [heq]
    rfl

theorem ruleCheckSentinel_emits (h : d.cur ≠ c.sentinel) :
    ruleCheckSentinel c d = ({ d with prev := d.cur, count := d.count + 1, state := .readingControlA }, .sample d.cur) :=
  if_neg h

theorem ruleCheckSentinel_ends (h : d.cur = c.sentinel) (he : d.expectEn = false ∨ d.count = d.expect) :
    ruleCheckSentinel c d = ({ d with state := .done }, .noSample) := by
  have hagree : countDisagrees d d.count = false := by rcases he with he | he <;> simp [countDisagrees, he]
  simp [ruleCheckSentinel, h, finishDecode, hagree]

theorem ruleCheckSentinel_disagrees (h : d.cur = c.sentinel) (he : d.expectEn = true) (hn : d.count ≠ d.expect) :
    ruleCheckSentinel c d = raiseDec .invariantViolation .noCause d := by
  simp [ruleCheckSentinel, h, finishDecode, countDisagrees, he, hn]

/-! ### The rules of `REUSE` and `NEW`, part by part -/

theorem windowWidth_le (w : Window) : w.width ≤ 64 := by
  unfold Window.width
  omega

/-- `REUSE` behind its two control bits. -/
theorem stepReuse_controls (bits : Sample) (hd : DecFacts c d) (h : 2 ≤ (unreadBits d).length) :
    ∃ d', Consumed d d' 2 ∧ DecFacts c d' ∧
      stepReuse c bits d = andThen (ruleReuseWindow d') (finishCodeword c bits) := by
  obtain ⟨d', heq, hc, hd'⟩ := consume_consume_read (cause := .controlA) (cause' := .controlB)
    (next := fun d' => andThen (ruleReuseWindow d') (finishCodeword c bits)) (n := 1) (m := 1) hd (by omega) (by omega) h
  exact ⟨d', hc, hd', heq⟩

theorem ruleReuseWindow_valid (h : d.win.valid = true) :
    ruleReuseWindow d = ({ d with m := d.win.width, state := .readingMeaningfulBits }, .noSample) := if_pos h

theorem ruleReuseWindow_invalid (h : d.win.valid = false) :
    ruleReuseWindow d = raiseDec .unexpectedEof .noWindow d := if_neg (by simp [h])

/-- `REUSE` under a Window in force, all of it in the stream (R96). -/
theorem stepReuse_read (bits : Sample) (hd : DecFacts c d) (hv : d.win.valid = true)
    (h : 2 + d.win.width ≤ (unreadBits d).length) :
    ∃ d', Consumed d d' (2 + d.win.width) ∧
      stepReuse c bits d = ruleCheckSentinel c { d' with
        m := d.win.width, cur := d.prev ^^^ deltaOf bits d.win.trail, state := .checkSentinel } := by
  obtain ⟨d₂, hc, hd₂, heq⟩ := stepReuse_controls bits hd (by omega)
  have hlen := hc.unread_length
  obtain ⟨d', hc', hfin⟩ :=
    finishCodeword_read (bits := bits) (w := d₂.win) hd₂ (windowWidth_le d.win) (by omega)
  refine ⟨d', hc.trans hc', ?_⟩
  calc stepReuse c bits d
      = finishCodeword c bits { d₂ with m := d.win.width, state := .readingMeaningfulBits } := by
        rw [heq, ruleReuseWindow_valid (by rw [hc.win_eq, hv]), hc.win_eq]; rfl
    _ = _ := hfin
    _ = _ := by rw [← hc.win_eq, ← hc.prev_eq, ← hc'.win_eq]

/-- `REUSE` with no Window in force (R102 (a)). -/
theorem stepReuse_noWindow (bits : Sample) (hd : DecFacts c d) (hv : d.win.valid = false)
    (h : 2 ≤ (unreadBits d).length) :
    ∃ d', Consumed d d' 2 ∧ stepReuse c bits d = raiseDec .unexpectedEof .noWindow d' := by
  obtain ⟨d', hc, -, heq⟩ := stepReuse_controls bits hd h
  exact ⟨d', hc, heq.trans (by rw [ruleReuseWindow_invalid (by rw [hc.win_eq, hv])]; rfl)⟩

/-- `REUSE` under a Window in force, the stream ending inside `BITS`. -/
theorem stepReuse_bits_short (bits : Sample) (hd : DecFacts c d) (hv : d.win.valid = true)
    (h₁ : 2 ≤ (unreadBits d).length) (h₂ : (unreadBits d).length < 2 + d.win.width) :
    ∃ d', Consumed d d' 2 ∧ stepReuse c bits d =
      raiseDec .unexpectedEof .bits { d' with m := d.win.width, state := .readingMeaningfulBits } := by
  obtain ⟨d', hc, -, heq⟩ := stepReuse_controls bits hd h₁
  have hlen := hc.unread_length
  refine ⟨d', hc, heq.trans ?_⟩
  rw [ruleReuseWindow_valid (by rw [hc.win_eq, hv]), hc.win_eq]
  exact finishCodeword_short (d := d') (w := d.win) (by omega)

/-- `NEW` behind its two control bits. -/
theorem stepNew_controls (lead len : Nat) (bits : Sample) (hd : DecFacts c d) (h : 2 ≤ (unreadBits d).length) :
    ∃ d', Consumed d d' 2 ∧ DecFacts c d' ∧ stepNew c lead len bits d =
      consume c.leadW.bits .header
        (consume 6 .header fun d' => andThen (acceptHeader lead len d') (finishCodeword c bits)) d' := by
  obtain ⟨d', heq, hc, hd'⟩ := consume_consume_read (cause := .controlA) (cause' := .controlB)
    (next := consume c.leadW.bits .header
      (consume 6 .header fun d' => andThen (acceptHeader lead len d') (finishCodeword c bits)))
    (n := 1) (m := 1) hd (by omega) (by omega) h
  exact ⟨d', hc, hd', heq⟩

/-- `NEW` behind its control bits and header. -/
theorem stepNew_header (lead len : Nat) (bits : Sample) (hd : DecFacts c d)
    (h : 2 + c.leadW.bits + 6 ≤ (unreadBits d).length) :
    ∃ d', Consumed d d' (2 + c.leadW.bits + 6) ∧ DecFacts c d' ∧
      stepNew c lead len bits d = andThen (acceptHeader lead len d') (finishCodeword c bits) := by
  have hb := leadW_bits_le c
  obtain ⟨d₂, hc, hd₂, heq⟩ := stepNew_controls lead len bits hd (by omega)
  have hlen := hc.unread_length
  obtain ⟨d', heq', hc', hd'⟩ := consume_consume_read (cause := .header) (cause' := .header)
    (next := fun d' => andThen (acceptHeader lead len d') (finishCodeword c bits)) (n := c.leadW.bits) (m := 6) hd₂
    (by omega) (by omega) (by omega)
  exact ⟨d', hc.trans hc', hd', heq.trans heq'⟩

theorem acceptHeader_fits {lead len : Nat} (h : lead + (len + 1) ≤ 64) :
    acceptHeader lead len d = ({ d with
      win := ⟨true, lead, 64 - lead - (len + 1)⟩, m := len + 1, state := .readingMeaningfulBits }, .noSample) :=
  if_neg (by omega)

theorem acceptHeader_overruns {lead len : Nat} (h : lead + (len + 1) > 64) :
    acceptHeader lead len d = raiseDec .unexpectedEof .windowOverrun d := if_pos h

/-- `NEW` whose counts fit 64 bits, all of it in the stream (R97). -/
theorem stepNew_read {lead len : Nat} (bits : Sample) (hd : DecFacts c d) (hle : lead + (len + 1) ≤ 64)
    (h : 2 + c.leadW.bits + 6 + (len + 1) ≤ (unreadBits d).length) :
    ∃ d', Consumed d d' (2 + c.leadW.bits + 6 + (len + 1)) ∧
      stepNew c lead len bits d = ruleCheckSentinel c { d' with
        win := ⟨true, lead, 64 - lead - (len + 1)⟩, m := len + 1
        cur := d.prev ^^^ deltaOf bits (64 - lead - (len + 1)), state := .checkSentinel } := by
  obtain ⟨d₂, hc, hd₂, heq⟩ := stepNew_header lead len bits hd (by omega)
  have hlen := hc.unread_length
  obtain ⟨d', hc', hfin⟩ := finishCodeword_read (bits := bits) (w := ⟨true, lead, 64 - lead - (len + 1)⟩)
    (m := len + 1) hd₂ (by omega) (by omega)
  refine ⟨d', hc.trans hc', ?_⟩
  calc stepNew c lead len bits d
      = finishCodeword c bits { d₂ with
          win := ⟨true, lead, 64 - lead - (len + 1)⟩, m := len + 1, state := .readingMeaningfulBits } := by
        rw [heq, acceptHeader_fits hle]; rfl
    _ = _ := hfin
    _ = _ := by rw [← hc.prev_eq]

/-- `NEW` whose counts exceed 64 bits (R102 (b)). -/
theorem stepNew_overruns {lead len : Nat} (bits : Sample) (hd : DecFacts c d) (hgt : lead + (len + 1) > 64)
    (h : 2 + c.leadW.bits + 6 ≤ (unreadBits d).length) :
    ∃ d', Consumed d d' (2 + c.leadW.bits + 6) ∧
      stepNew c lead len bits d = raiseDec .unexpectedEof .windowOverrun d' := by
  obtain ⟨d', hc, -, heq⟩ := stepNew_header lead len bits hd h
  exact ⟨d', hc, heq.trans (by rw [acceptHeader_overruns hgt]; rfl)⟩

/-- `NEW` whose counts fit, the stream ending inside `BITS`. -/
theorem stepNew_bits_short {lead len : Nat} (bits : Sample) (hd : DecFacts c d) (hle : lead + (len + 1) ≤ 64)
    (h₁ : 2 + c.leadW.bits + 6 ≤ (unreadBits d).length)
    (h₂ : (unreadBits d).length < 2 + c.leadW.bits + 6 + (len + 1)) :
    ∃ d', Consumed d d' (2 + c.leadW.bits + 6) ∧ stepNew c lead len bits d =
      raiseDec .unexpectedEof .bits { d' with
        win := ⟨true, lead, 64 - lead - (len + 1)⟩, m := len + 1, state := .readingMeaningfulBits } := by
  obtain ⟨d', hc, -, heq⟩ := stepNew_header lead len bits hd h₁
  have hlen := hc.unread_length
  refine ⟨d', hc, heq.trans ?_⟩
  rw [acceptHeader_fits hle]
  exact finishCodeword_short (d := d') (by omega)

/-- `NEW`, the stream ending inside its header (R102): a `LEAD` that was read stays consumed. -/
theorem stepNew_header_short (lead len : Nat) (bits : Sample) (hd : DecFacts c d) (h : 2 ≤ (unreadBits d).length) :
    ((unreadBits d).length < 2 + c.leadW.bits →
      ∃ d', Consumed d d' 2 ∧ stepNew c lead len bits d = raiseDec .unexpectedEof .header d') ∧
    (2 + c.leadW.bits ≤ (unreadBits d).length → (unreadBits d).length < 2 + c.leadW.bits + 6 →
      ∃ d', Consumed d d' (2 + c.leadW.bits) ∧ stepNew c lead len bits d = raiseDec .unexpectedEof .header d') := by
  have hb := leadW_bits_le c
  obtain ⟨d₂, hc, hd₂, heq⟩ := stepNew_controls lead len bits hd h
  have hlen := hc.unread_length
  refine ⟨fun hlt => ⟨d₂, hc, heq.trans (consume_short (by omega))⟩, fun hle hlt => ?_⟩
  obtain ⟨d', heq', hc'⟩ := consume_consume_short (cause := .header) (cause' := .header)
    (next := fun d' => andThen (acceptHeader lead len d') (finishCodeword c bits)) (n := c.leadW.bits) (m := 6) hd₂
    (by omega) (by omega) (by omega)
  exact ⟨d', hc.trans hc', heq.trans heq'⟩

/-! ### Codewords on the machine -/

/-- A codeword where its position selects it and its fields fit is executed by its rule. -/
theorem onCodeword_in_place {i : Instr} {legal : Cfg → DecChannel → Bool}
    {rule : Cfg → DecChannel → DecChannel × StepAnswer} {response : StepAnswer → Response} {pos : CwPos}
    (hpos : codewordPos c d = some pos) (hi : i.standsAt pos = true) (hl : legal c d = true) :
    onCodeword i legal rule response c d = ((rule c d).1, response (rule c d).2) := by
  simp [onCodeword, hpos, hi, hl]

section Exec

variable {s : State}

theorem exec_cwTag (b : Byte) (hwf : s.cfg.wf = true) (hpos : codewordPos s.cfg s.dec = some .tag) :
    exec (.cwTag b) s = .next (s.setDec (stepTag b s.dec).1 (stepResponse (stepTag b s.dec).2)) :=
  (onDec_eq s _ hwf).trans (by rw [onCodeword_in_place hpos rfl rfl])

theorem exec_cwFirst (v : Sample) (hwf : s.cfg.wf = true) (hpos : codewordPos s.cfg s.dec = some .first) :
    exec (.cwFirst v) s = .next (s.setDec (stepFirst v s.dec).1 (nextResponse (stepFirst v s.dec).2)) :=
  (onDec_eq s _ hwf).trans (by rw [onCodeword_in_place hpos rfl rfl])

theorem exec_cwRepeat (hwf : s.cfg.wf = true) (hs : s.dec.state = .readingControlA) :
    exec .cwRepeat s = .next (s.setDec (stepRepeat s.dec).1 (nextResponse (stepRepeat s.dec).2)) :=
  (onDec_eq s _ hwf).trans (by rw [onCodeword_in_place (codewordPos_eq_data_iff.2 hs) rfl rfl])

theorem exec_cwReuse (hwf : s.cfg.wf = true) (hs : s.dec.state = .readingControlA)
    (hl : reuseFits bits s.cfg s.dec = true) :
    exec (.cwReuse bits) s =
      .next (s.setDec (stepReuse s.cfg bits s.dec).1 (nextResponse (stepReuse s.cfg bits s.dec).2)) :=
  (onDec_eq s _ hwf).trans (by rw [onCodeword_in_place (codewordPos_eq_data_iff.2 hs) rfl hl])

theorem exec_cwNew {lead len : BitVec 6} (hwf : s.cfg.wf = true) (hs : s.dec.state = .readingControlA)
    (hl : newFits lead.toNat len.toNat bits s.cfg s.dec = true) :
    exec (.cwNew lead len bits) s =
      .next (s.setDec (stepNew s.cfg lead.toNat len.toNat bits s.dec).1
        (nextResponse (stepNew s.cfg lead.toNat len.toNat bits s.dec).2)) :=
  (onDec_eq s _ hwf).trans (by rw [onCodeword_in_place (codewordPos_eq_data_iff.2 hs) rfl hl])

theorem exec_cwPad {n : BitVec 3} (hwf : s.cfg.wf = true) (hpos : codewordPos s.cfg s.dec = some (.pad n)) :
    exec (.cwPad n) s = .next (s.setDec s.dec (.ok .unit)) :=
  (onDec_eq s _ hwf).trans (by rw [onCodeword_in_place hpos (beq_self_eq_true _) rfl])

theorem reuseFits_of (hw : windowOk c d.win = true) (h : d.win.valid = true → bits.toNat < 2 ^ d.win.width) :
    reuseFits bits c d = true := by
  cases hv : d.win.valid with
  | false => simp [reuseFits, hv]
  | true =>
    rw [reuseFits, hv]
    exact bitsFit_iff.2 ⟨windowOk_width hw hv, h hv⟩

theorem newFits_of {lead len : Nat} (hl : lead ≤ c.leadMax) (h : lead + (len + 1) ≤ 64 → bits.toNat < 2 ^ (len + 1)) :
    newFits lead len bits c d = true := by
  by_cases hle : lead + (len + 1) ≤ 64
  · have hfit : bitsFit bits (len + 1) = true := bitsFit_iff.2 ⟨by omega, h hle⟩
    simp [newFits, hl, hfit]
  · simp [newFits, hl, Nat.lt_of_not_le hle]

/-- The three ends of a `REUSE` or a `NEW` that was read whole: the value is emitted; it is `SENTINEL` and ends the
decode; or it ends it against the expected count (R199). -/
theorem exec_of_checkSentinel {i : Instr} {d : DecChannel} {r : DecChannel × StepAnswer} {w : Window}
    (hc : Consumed s.dec d n) (hexec : exec i s = .next (s.setDec r.1 (nextResponse r.2)))
    (hr : r = ruleCheckSentinel s.cfg { d with win := w, m := m, cur := v, state := .checkSentinel }) :
    (v ≠ s.cfg.sentinel →
      exec i s = .next { s with
        dec := { d with
          win := w, m := m, cur := v, prev := v, count := s.dec.count + 1, state := .readingControlA }
        resp := some (.ok (.sample v)) }) ∧
    (v = s.cfg.sentinel → s.dec.expectEn = false ∨ s.dec.count = s.dec.expect →
      exec i s = .next { s with
        dec := { d with win := w, m := m, cur := v, state := .done }, resp := some (.ok .endOfStream) }) ∧
    (v = s.cfg.sentinel → s.dec.expectEn = true → s.dec.count ≠ s.dec.expect →
      exec i s = .next { s with
        dec := { d with win := w, m := m, cur := v, err := ⟨.invariantViolation, .noCause⟩, state := .done }
        resp := some (.err .invariantViolation .noCause) }) := by
  rw [hexec, ← hc.count_eq, ← hc.expect_eq, ← hc.expectEn_eq]
  refine ⟨fun hv => ?_, fun hv he => ?_, fun hv he hn => ?_⟩
  · rw [hr.trans (ruleCheckSentinel_emits hv)]
    rfl
  · rw [hr.trans (ruleCheckSentinel_ends hv he)]
    rfl
  · rw [hr.trans (ruleCheckSentinel_disagrees hv he hn)]
    rfl

/-- A codeword that raises `UnexpectedEof` behind what it consumed (R102). -/
theorem eofAfter_of_raise {i : Instr} {d : DecChannel} {r : DecChannel × StepAnswer} {cause : Cause}
    (hexec : exec i s = .next (s.setDec r.1 (nextResponse r.2))) (hc : Consumed s.dec d n)
    (hr : r = raiseDec .unexpectedEof cause d) : EofAfter s n cause (exec i s) := by
  refine ⟨d, hc, fun h => ?_, by rw [hexec, hr]; rfl⟩
  subst h
  exact hc.eq_of_zero

/-- A codeword whose first control bit is missing. -/
theorem eofAfter_controlA {i : Instr} {next : DecChannel → DecChannel × StepAnswer} {r : DecChannel × StepAnswer}
    (hexec : exec i s = .next (s.setDec r.1 (nextResponse r.2))) (hr : r = consume 1 .controlA next s.dec)
    (h : (unreadBits s.dec).length = 0) : EofAfter s 0 .controlA (exec i s) :=
  eofAfter_of_raise hexec (.refl _) (hr.trans (consume_short (by omega)))

/-- A codeword whose second control bit is missing. -/
theorem eofAfter_controlB {i : Instr} {next : DecChannel → DecChannel × StepAnswer} {r : DecChannel × StepAnswer}
    (hd : DecFacts s.cfg s.dec) (hexec : exec i s = .next (s.setDec r.1 (nextResponse r.2)))
    (hr : r = consume 1 .controlA (consume 1 .controlB next) s.dec) (h : (unreadBits s.dec).length = 1) :
    EofAfter s 1 .controlB (exec i s) := by
  obtain ⟨d, heq, hc⟩ := consume_consume_short (cause := .controlA) (cause' := .controlB) (next := next) (m := 1) hd
    (by omega) h.ge (by omega)
  exact eofAfter_of_raise hexec hc (hr.trans heq)

/-- Settles O48: one read each, and what the value read does. -/
theorem tagAndFirstCodewordsExecute : Obligations.TagAndFirstCodewordsExecute := by
  intro s hs hst hlen
  obtain ⟨hwf, -, hd⟩ := (inv_iff s).1 hs
  refine ⟨fun b ht hr h => ?_, fun v hr h => ?_⟩
  · obtain ⟨d, heq, hc, -⟩ := consume_read (cause := .first)
      (next := fun d' => (acceptTag (b.setWidth 64) d', .noSample)) hd (by omega) h
    have hb : (b.setWidth 64).setWidth 8 = b := by simp
    refine ⟨d, hc, ?_⟩
    rw [exec_cwTag b hwf (codewordPos_eq_tag_iff.2 ⟨hst, hlen, ht, hr⟩), stepTag, heq, acceptTag, hb]
    rfl
  · obtain ⟨d, heq, hc, -⟩ := consume_read (cause := .first) (next := acceptFirst v) hd (by omega) h
    refine ⟨d, hc, ?_⟩
    rw [exec_cwFirst v hwf (codewordPos_eq_first_iff.2 ⟨hst, hlen, hr⟩), stepFirst, heq]
    rfl

/-- Settles O49: one read, and the rule of `REPEAT` behind it. -/
theorem repeatCodewordExecutes : Obligations.RepeatCodewordExecutes := by
  intro s hs hst hne
  obtain ⟨hwf, -, hd⟩ := (inv_iff s).1 hs
  obtain ⟨d, heq, hc, -⟩ := consume_read (cause := .controlA) (next := ruleRepeat) hd (by omega)
    (List.length_pos_of_ne_nil hne)
  refine ⟨d, hc, ?_⟩
  rw [exec_cwRepeat hwf hst, stepRepeat, heq, ← hc.count_eq, ← hc.prev_eq]
  rfl

/-- Settles O50: `stepReuse_read` and the three ends of the sentinel test, or `stepReuse_noWindow`. -/
theorem reuseCodewordExecutes : Obligations.ReuseCodewordExecutes := by
  intro s bits v hs hst
  obtain ⟨hwf, -, hd⟩ := (inv_iff s).1 hs
  refine ⟨fun hv hbits hlen hval => ?_, fun hv hlen => ?_⟩
  · subst hval
    obtain ⟨d, hc, hr⟩ := stepReuse_read bits hd hv hlen
    exact ⟨d, hc, exec_of_checkSentinel hc (exec_cwReuse hwf hst (reuseFits_of hd.window fun _ => hbits)) hr⟩
  · obtain ⟨d, hc, hr⟩ := stepReuse_noWindow bits hd hv hlen
    refine ⟨d, hc, ?_⟩
    rw [exec_cwReuse hwf hst (reuseFits_of hd.window fun h => by simp [hv] at h), hr]
    rfl

/-- Settles O51: `stepNew_read` and the three ends of the sentinel test, or `stepNew_overruns`. -/
theorem newCodewordExecutes : Obligations.NewCodewordExecutes := by
  intro s lead len bits v m trail n hs hst hlead hm htrail hn
  obtain ⟨hwf, -, hd⟩ := (inv_iff s).1 hs
  subst hm htrail hn
  refine ⟨fun hle hbits hlen hval => ?_, fun hgt hlen => ?_⟩
  · subst hval
    obtain ⟨d, hc, hr⟩ := stepNew_read bits hd hle hlen
    exact ⟨d, hc, exec_of_checkSentinel hc (exec_cwNew hwf hst (newFits_of hlead fun _ => hbits)) hr⟩
  · obtain ⟨d, hc, hr⟩ := stepNew_overruns bits hd hgt hlen
    refine ⟨d, hc, ?_⟩
    rw [exec_cwNew hwf hst (newFits_of hlead fun _ => by omega), hr]
    rfl

/-- At stream bit 0 of a slice that is not empty there are the 8 bits of a tag (R192). -/
theorem unread_of_rpos_zero (hd : sourceOk c d = true) (hl : d.srcLen ≠ 0) (hr : srcRpos d = 0) :
    8 ≤ (unreadBits d).length := by
  obtain ⟨-, hv⟩ := sourceOk_bounds hd
  have hcur := sourceOk_cursor_le hd
  rw [unreadBits_length]
  unfold srcRpos at hr
  unfold avail
  omega

/-- Settles O52: part by part, in stream order. -/
theorem codewordCutShortRaises : Obligations.CodewordCutShortRaises := by
  intro s n L hs hn hL
  obtain ⟨hwf, -, hd⟩ := (inv_iff s).1 hs
  subst hn hL
  refine ⟨fun hst hlen => ⟨unread_of_rpos_zero hd.source hlen, fun v hr h => ?_⟩, fun hst => ⟨fun h => ?_, ?_, ?_⟩⟩
  · have hexec := exec_cwFirst v hwf (codewordPos_eq_first_iff.2 ⟨hst, hlen, hr⟩)
    exact eofAfter_of_raise hexec (.refl _) (consume_short h)
  · exact eofAfter_controlA (exec_cwRepeat hwf hst) rfl h
  · intro bits hbits
    have hexec := exec_cwReuse hwf hst (reuseFits_of hd.window hbits)
    refine ⟨eofAfter_controlA hexec rfl, eofAfter_controlB hd hexec rfl, fun hv h₁ h₂ => ?_⟩
    obtain ⟨d, hc, hr⟩ := stepReuse_bits_short bits hd hv h₁ h₂
    exact ⟨d, hc, by rw [hexec, hr]; rfl⟩
  · intro lead len bits hlead hbits
    have hexec := exec_cwNew hwf hst (newFits_of hlead hbits)
    refine ⟨eofAfter_controlA hexec rfl, eofAfter_controlB hd hexec rfl, fun h₁ h₂ => ?_, fun h₁ h₂ => ?_,
      fun hle h₁ h₂ => ?_⟩
    · obtain ⟨d, hc, hr⟩ := (stepNew_header_short lead.toNat len.toNat bits hd h₁).1 h₂
      exact eofAfter_of_raise hexec hc hr
    · obtain ⟨d, hc, hr⟩ := (stepNew_header_short lead.toNat len.toNat bits hd (by omega)).2 h₁ h₂
      exact eofAfter_of_raise hexec hc hr
    · obtain ⟨d, hc, hr⟩ := stepNew_bits_short bits hd hle h₁ h₂
      exact ⟨d, hc, by rw [hexec, hr]; rfl⟩

/-- Settles O53: a `PAD` reads nothing. -/
theorem padCodewordChangesNothing : Obligations.PadCodewordChangesNothing := by
  intro s n hwf hst herr hn
  exact exec_cwPad hwf (codewordPos_eq_pad_iff.2 ⟨hst, by rw [herr]; rfl, hn⟩)

end Exec

end Sys2Proof.Machine
end

section
/-! PROOFS of the family `30_encoding`: `DEC_NEXT` executes the codeword that stands next, and raises where none does. -/

namespace Sys2Proof.Machine

variable {c : Cfg} {d : DecChannel} {n : Nat} {bits v : Sample}

/-! ### `DEC_NEXT` transition by transition -/

theorem nextRule_step {d' : DecChannel} (hd : DecFacts c d) (hr : d.state.running = true)
    (h : decStepRule c d = (d', .noSample)) (hs : d'.state ≠ .done) : nextRule c d = nextRule c d' ∧ DecFacts c d' := by
  have hfacts := (decStepRule_stepped hd hr).facts
  rw [h] at hfacts
  rw [nextRule_unfold hd hr, h]
  exact ⟨if_pos ⟨rfl, hs⟩, hfacts⟩

theorem nextRule_stop {r : DecChannel × StepAnswer} (hd : DecFacts c d) (hr : d.state.running = true)
    (h : decStepRule c d = r) (hstop : r.2 = .noSample → r.1.state = .done) : nextRule c d = r := by
  rw [nextRule_unfold hd hr, h]
  exact if_neg fun ⟨hno, hne⟩ => hne (hstop hno)

theorem nextRule_raise {cause : Cause} {d' : DecChannel} (hd : DecFacts c d) (hr : d.state.running = true)
    (h : decStepRule c d = raiseDec .unexpectedEof cause d') : nextRule c d = raiseDec .unexpectedEof cause d' :=
  nextRule_stop hd hr h fun h => nomatch h

/-- `AWAITING_FIRST`, `REPEAT` and `CHECK_SENTINEL` are one transition from the answer (R201). -/
theorem nextRule_of_rank_one (hd : DecFacts c d) (hr : d.state.running = true) (h : d.state.rank = 1) :
    nextRule c d = decStepRule c d := by
  refine nextRule_stop hd hr rfl fun hno => ?_
  rcases (decStepRule_stepped hd hr).answer with ⟨v, hans, -⟩ | ⟨_, _, -, hdone, -⟩ | ⟨-, hdone, -⟩ | ⟨-, hrun, hrank, -⟩
  · cases hno.symm.trans hans
  · exact hdone
  · exact hdone
  · have := DecState.rank_pos hrun
    omega

/-- A channel between two codewords keeps its facts in the other states that read no meaningful bits. -/
theorem DecFacts.withState {st : DecState} (hd : DecFacts c d) (hs : d.state = .readingControlA)
    (h₁ : st ≠ .awaitingFirst) (h₂ : st ≠ .readingMeaningfulBits) : DecFacts c { d with state := st } where
  source := SameSource.sourceOk (d := d) ⟨rfl, rfl, rfl, rfl, rfl, rfl⟩ hd.source
  window := hd.window
  m := hd.m
  start := fun h => absurd h h₁
  counted := fun _ _ => hd.counted (by rw [hs]; rfl) (by simp [hs])
  bits := fun h => absurd h h₂
  err := .inl (hd.noErr (by rw [hs]; rfl))

theorem consume_congr {cause : Cause} {next next' : DecChannel → DecChannel × StepAnswer} (hd : DecFacts c d)
    (hn : n ≤ 64) (h : ∀ d', Consumed d d' n → DecFacts c d' → next d' = next' d') :
    consume n cause next d = consume n cause next' d := by
  by_cases hlen : (unreadBits d).length < n
  · rw [consume_short hlen, consume_short hlen]
  · rcases readBits_cases hn hd.source with ⟨hlt, -⟩ | ⟨d', -, hread, hc, hsrc⟩
    · exact absurd hlt hlen
    · simp only [consume, hread]
      exact h d' hc (hd.read hc hsrc)

/-- What R193 and R195 have in common: one bit selects the next state. -/
def controlRule (cause : Cause) (next : Bool → DecState) (d : DecChannel) : DecChannel × StepAnswer :=
  match readBits 1 d with
  | none => raiseDec .unexpectedEof cause d
  | some (a, d') => ({ d' with state := next (a != 0) }, .noSample)

/-- The state the first control bit selects (R193). -/
def afterControlA (a : Bool) : DecState := if a then .readingControlB else .repeating

/-- The state the second control bit selects (R195). -/
def afterControlB (b : Bool) : DecState := if b then .newWindow else .reuseWindow

theorem decStepRule_controlA (h : d.state = .readingControlA) :
    decStepRule c d = controlRule .controlA afterControlA d := by
  rw [decStepRule, h]
  show ruleControlA d = _
  unfold ruleControlA controlRule afterControlA
  rcases readBits 1 d with _ | ⟨a, d'⟩
  · rfl
  · by_cases ha : a = 0 <;> simp [ha]

theorem decStepRule_controlB (h : d.state = .readingControlB) :
    decStepRule c d = controlRule .controlB afterControlB d := by
  rw [decStepRule, h]
  show ruleControlB d = _
  unfold ruleControlB controlRule afterControlB
  rcases readBits 1 d with _ | ⟨a, d'⟩
  · rfl
  · by_cases ha : a = 0 <;> simp [ha]

/-- A control bit that is in the stream is the bit the rule tests. -/
theorem controlRule_read {cause : Cause} {next : Bool → DecState} {b : Bool} {rest : List Bool} (st : DecState)
    (hd : sourceOk c d = true) (h : unreadBits d = b :: rest) :
    ∃ v d', readBits 1 d = some (v, d') ∧
      controlRule cause next { d with state := st } = ({ d' with state := next b }, .noSample) := by
  rcases readBits_cases (n := 1) (by omega) hd with ⟨hlt, -⟩ | ⟨d', -, hread, -, -⟩
  · simp [h] at hlt
  · have hb : (fieldValue ((unreadBits d).take 1) != 0) = b := by
      rw [h]
      show (fieldValue [b] != 0) = b
      cases b <;> decide
    refine ⟨_, d', hread, ?_⟩
    simp only [controlRule, readBits_state, hread, Option.map_some, hb]

theorem controlRule_short {cause : Cause} {next : Bool → DecState} (st : DecState) (h : unreadBits d = []) :
    controlRule cause next { d with state := st } = raiseDec .unexpectedEof cause d := by
  have hnone : readBits 1 d = none := readBits_none_iff.2 (by simp [h])
  simp only [controlRule, readBits_state, hnone, Option.map_none]
  rfl

/-- `DEC_NEXT` at a control bit: where the bit is not `!b`, it is consumed, or found missing, and what follows is what
`b` selects. -/
theorem nextRule_controlBit {st : DecState} {cause : Cause} {next : Bool → DecState} (b : Bool)
    (hd : DecFacts c { d with state := st }) (hr : st.running = true)
    (hrule : decStepRule c { d with state := st } = controlRule cause next { d with state := st })
    (hnext : next b ≠ .done) (h : ∀ rest, unreadBits d ≠ (!b) :: rest) :
    nextRule c { d with state := st } = consume 1 cause (fun d' => nextRule c { d' with state := next b }) d := by
  have hsame : SameSource { d with state := st } d := ⟨rfl, rfl, rfl, rfl, rfl, rfl⟩
  have hsrc := hsame.sourceOk hd.source
  cases hu : unreadBits d with
  | nil =>
    rw [consume_short (by simp [hu]), nextRule_raise hd hr (hrule.trans (controlRule_short st hu))]
  | cons a rest =>
    have hab : a = b := by
      by_contra hne
      exact h rest (by rw [hu, Bool.eq_not_of_ne hne])
    subst hab
    obtain ⟨v, d', hread, hcontrol⟩ := controlRule_read (cause := cause) (next := next) st hsrc hu
    obtain ⟨heq, -⟩ := nextRule_step hd hr (hrule.trans hcontrol) hnext
    rw [heq]
    simp only [consume, hread]

/-- `DEC_NEXT` between two codewords, at the first control bit (R193). -/
theorem nextRule_controlA (b : Bool) (hd : DecFacts c d) (hs : d.state = .readingControlA)
    (h : ∀ rest, unreadBits d ≠ (!b) :: rest) :
    nextRule c d = consume 1 .controlA (fun d' => nextRule c { d' with state := afterControlA b }) d := by
  have heq : { d with state := .readingControlA } = d := by rw [← hs]
  have := nextRule_controlBit (d := d) (st := .readingControlA) b (by rwa [heq]) rfl (decStepRule_controlA rfl)
    (by cases b <;> simp [afterControlA]) h
  rwa [heq] at this

/-- `DEC_NEXT` at the second control bit (R195), the channel else as it is between two codewords. -/
theorem nextRule_controlB (b : Bool) (hd : DecFacts c d) (hs : d.state = .readingControlA)
    (h : ∀ rest, unreadBits d ≠ (!b) :: rest) :
    nextRule c { d with state := .readingControlB } =
      consume 1 .controlB (fun d' => nextRule c { d' with state := afterControlB b }) d :=
  nextRule_controlBit b (hd.withState hs (by simp) (by simp)) rfl (decStepRule_controlB rfl)
    (by cases b <;> simp [afterControlB]) h

/-- The meaningful bits and the sentinel test (R198, R199). -/
theorem nextRule_meaningfulBits (hd : DecFacts c d) (hs : d.state = .readingMeaningfulBits) :
    nextRule c d = finishCodeword c (fieldValue ((unreadBits d).take d.m)) d := by
  have hr : d.state.running = true := by rw [hs]; rfl
  have hrule : decStepRule c d = ruleMeaningfulBits d := by rw [decStepRule, hs]
  rcases readBits_cases hd.m hd.source with ⟨-, hread⟩ | ⟨d', -, hread, -, -⟩
  · rw [finishCodeword, consume, hread]
    exact nextRule_raise hd hr (hrule.trans (by rw [ruleMeaningfulBits, hread]))
  · obtain ⟨heq, hd'⟩ := nextRule_step (d' := (acceptBits (fieldValue ((unreadBits d).take d.m)) d').1) hd hr
      (hrule.trans (by rw [ruleMeaningfulBits, hread]; rfl)) (by simp [acceptBits])
    rw [finishCodeword, consume, hread, heq]
    exact nextRule_of_rank_one hd' rfl rfl

theorem nextRule_repeating (hd : DecFacts c d) (hs : d.state = .readingControlA) :
    nextRule c { d with state := .repeating } = ruleRepeat d :=
  nextRule_of_rank_one (hd.withState hs (by simp) (by simp)) rfl rfl

/-- The Window in force, then the meaningful bits (R196). -/
theorem nextRule_reuseWindow (hd : DecFacts c d) (hs : d.state = .readingControlA) :
    nextRule c { d with state := .reuseWindow } =
      andThen (ruleReuseWindow d) (finishCodeword c (fieldValue ((unreadBits d).take d.win.width))) := by
  have hd' : DecFacts c { d with state := .reuseWindow } := hd.withState hs (by simp) (by simp)
  cases hv : d.win.valid with
  | false =>
    rw [ruleReuseWindow_invalid hv]
    exact nextRule_raise hd' rfl (ruleReuseWindow_invalid (d := { d with state := .reuseWindow }) hv)
  | true =>
    obtain ⟨heq, hd''⟩ := nextRule_step hd' rfl (ruleReuseWindow_valid (d := { d with state := .reuseWindow }) hv)
      (by simp)
    rw [heq, ruleReuseWindow_valid hv]
    exact nextRule_meaningfulBits hd'' rfl

/-- The header of a `NEW`, then the meaningful bits (R197). -/
theorem nextRule_newWindow {lead len : Nat} (hd : DecFacts c d) (hs : d.state = .readingControlA)
    (hlead : lead = (fieldValue ((unreadBits d).take c.leadW.bits)).toNat)
    (hlen : len = (fieldValue (((unreadBits d).drop c.leadW.bits).take 6)).toNat)
    (hbits : bits = fieldValue (((unreadBits d).drop (c.leadW.bits + 6)).take (len + 1))) :
    nextRule c { d with state := .newWindow } =
      consume c.leadW.bits .header
        (consume 6 .header fun d' => andThen (acceptHeader lead len d') (finishCodeword c bits)) d := by
  have hb := leadW_bits_le c
  have hd' : DecFacts c { d with state := .newWindow } := hd.withState hs (by simp) (by simp)
  have hrule : decStepRule c { d with state := .newWindow } = ruleNewWindow c { d with state := .newWindow } := rfl
  rcases readBits_cases (n := c.leadW.bits) (by omega) hd.source with ⟨-, hread₁⟩ | ⟨d₁, -, hread₁, hc₁, hs₁⟩
  · rw [consume, hread₁]
    exact nextRule_raise hd' rfl (hrule.trans (by rw [ruleNewWindow, readBits_state, hread₁]; rfl))
  rcases readBits_cases (n := 6) (by omega) hs₁ with ⟨-, hread₂⟩ | ⟨d₂, -, hread₂, hc₂, hs₂⟩
  · simp only [consume, hread₁, hread₂]
    exact nextRule_raise hd' rfl (hrule.trans (by
      simp only [ruleNewWindow, readBits_state, hread₁, hread₂, Option.map_some, Option.map_none]; rfl))
  rw [hc₁.unread_eq] at hread₂
  have hheader : decStepRule c { d with state := .newWindow } =
      acceptHeader lead len { d₂ with state := .newWindow } := by
    rw [hrule, hlead, hlen]
    simp only [ruleNewWindow, readBits_state, hread₁, hread₂, Option.map_some]
  simp only [consume, hread₁, hread₂]
  by_cases hle : lead + (len + 1) ≤ 64
  · obtain ⟨heq, hd''⟩ := nextRule_step hd' rfl (hheader.trans (acceptHeader_fits hle)) (by simp)
    have hunread : unreadBits d₂ = (unreadBits d).drop (c.leadW.bits + 6) := (hc₁.trans hc₂).unread_eq
    rw [heq, acceptHeader_fits hle, nextRule_meaningfulBits hd'' rfl, hbits, ← hunread]
    rfl
  · rw [acceptHeader_overruns (by omega)]
    exact nextRule_raise hd' rfl (hheader.trans (acceptHeader_overruns (by omega)))

/-! ### `DEC_NEXT` is the codeword that stands next, whole or cut short -/

theorem Consumed.unread_cons {d' : DecChannel} {b : Bool} {rest : List Bool} (h : Consumed d d' 1)
    (hu : unreadBits d' = b :: rest) : ∃ a, unreadBits d = a :: b :: rest := by
  have hdrop := h.unread_eq.symm.trans hu
  cases hd : unreadBits d with
  | nil => simp [hd] at hdrop
  | cons a _ => exact ⟨a, by rw [hd] at hdrop; exact congrArg (a :: ·) hdrop⟩

/-- Where no `1` stands next, `DEC_NEXT` is the `REPEAT` codeword. -/
theorem nextRule_eq_stepRepeat (hd : DecFacts c d) (hs : d.state = .readingControlA)
    (h : ∀ rest, unreadBits d ≠ true :: rest) : nextRule c d = stepRepeat d :=
  (nextRule_controlA false hd hs h).trans
    (consume_congr hd (by omega) fun _ hc hd₁ => nextRule_repeating hd₁ (hc.state_eq.trans hs))

/-- Where neither `0` nor `1 1` stands next, it is the `REUSE` codeword of the bits that follow. -/
theorem nextRule_eq_stepReuse (hd : DecFacts c d) (hs : d.state = .readingControlA)
    (h₁ : ∀ rest, unreadBits d ≠ false :: rest) (h₂ : ∀ a rest, unreadBits d ≠ a :: true :: rest)
    (hbits : bits = fieldValue (((unreadBits d).drop 2).take d.win.width)) :
    nextRule c d = stepReuse c bits d := by
  refine (nextRule_controlA true hd hs h₁).trans (consume_congr hd (by omega) fun d₁ hc₁ hd₁ => ?_)
  have hs₁ := hc₁.state_eq.trans hs
  have hb : ∀ rest, unreadBits d₁ ≠ true :: rest := fun rest hu =>
    have ⟨a, ha⟩ := hc₁.unread_cons hu
    h₂ a rest ha
  refine (nextRule_controlB false hd₁ hs₁ hb).trans (consume_congr hd₁ (by omega) fun d₂ hc₂ hd₂ => ?_)
  have hc := hc₁.trans hc₂
  rw [hbits, ← hc.win_eq, ← hc.unread_eq]
  exact nextRule_reuseWindow hd₂ (hc₂.state_eq.trans hs₁)

/-- Where neither `0` nor `1 0` stands next, it is the `NEW` codeword of the fields that follow. -/
theorem nextRule_eq_stepNew {lead len : Nat} (hd : DecFacts c d) (hs : d.state = .readingControlA)
    (h₁ : ∀ rest, unreadBits d ≠ false :: rest) (h₂ : ∀ a rest, unreadBits d ≠ a :: false :: rest)
    (hlead : lead = (fieldValue (((unreadBits d).drop 2).take c.leadW.bits)).toNat)
    (hlen : len = (fieldValue ((((unreadBits d).drop 2).drop c.leadW.bits).take 6)).toNat)
    (hbits : bits = fieldValue ((((unreadBits d).drop 2).drop (c.leadW.bits + 6)).take (len + 1))) :
    nextRule c d = stepNew c lead len bits d := by
  refine (nextRule_controlA true hd hs h₁).trans (consume_congr hd (by omega) fun d₁ hc₁ hd₁ => ?_)
  have hs₁ := hc₁.state_eq.trans hs
  have hb : ∀ rest, unreadBits d₁ ≠ false :: rest := fun rest hu =>
    have ⟨a, ha⟩ := hc₁.unread_cons hu
    h₂ a rest ha
  refine (nextRule_controlB true hd₁ hs₁ hb).trans (consume_congr hd₁ (by omega) fun d₂ hc₂ hd₂ => ?_)
  have hc := hc₁.trans hc₂
  rw [← hc.unread_eq] at hlead hlen hbits
  exact nextRule_newWindow hd₂ (hc₂.state_eq.trans hs₁) hlead hlen hbits

/-! ### The codewords of a data position -/

/-- The sentinel test reads no bit (R199). -/
theorem ruleCheckSentinel_unread (c : Cfg) (d : DecChannel) :
    unreadBits (ruleCheckSentinel c d).1 = unreadBits d := by
  have hs : SameSource d (ruleCheckSentinel c d).1 := by
    unfold ruleCheckSentinel finishDecode
    split_ifs <;> exact ⟨rfl, rfl, rfl, rfl, rfl, rfl⟩
  exact hs.unread

theorem exec_decNext {s : State} (hwf : s.cfg.wf = true) (hr : s.dec.state.running = true) :
    exec .decNext s =
      .next (s.setDec (nextRule s.cfg s.dec).1 (nextResponse (nextRule s.cfg s.dec).2)) :=
  (onDec_eq s decNext hwf).trans (by rw [decNext, if_pos hr])

/-- The value of a `LEAD` or `LEN` field that stands in front of a stream. -/
theorem fieldValue_take_six {x : BitVec 6} {n : Nat} (rest : List Bool) (h : x.toNat < 2 ^ n) :
    (fieldValue ((fieldBits (x.setWidth 64) n ++ rest).take n)).toNat = x.toNat := by
  rw [List.take_left' (fieldBits_length _ _), fieldValue_fieldBits _ _ (by rwa [toNat_setWidth_of_six]),
    toNat_setWidth_of_six]

/-- A data codeword that stands next, executed, does what `DEC_NEXT` does, and has then read exactly its bits. -/
theorem exec_dataCodeword {s : State} {i : Instr} {bits rest : List Bool} (hwf : s.cfg.wf = true)
    (hd : DecFacts s.cfg s.dec) (hs : s.dec.state = .readingControlA) (h : DataCodeword s.cfg s.dec.win i bits)
    (hu : unreadBits s.dec = bits ++ rest) :
    exec i s = .next (s.setDec (nextRule s.cfg s.dec).1 (nextResponse (nextRule s.cfg s.dec).2)) ∧
      unreadBits (nextRule s.cfg s.dec).1 = rest := by
  cases h with
  | repeated =>
    obtain ⟨d', heq, hc, -⟩ := consume_read (cause := .controlA) (next := ruleRepeat) (n := 1) hd (by omega)
      (by simp [hu])
    have hunread : unreadBits (ruleRepeat d').1 = unreadBits d' :=
      SameSource.unread (d := d') ⟨rfl, rfl, rfl, rfl, rfl, rfl⟩
    rw [nextRule_eq_stepRepeat hd hs (by simp [hu])]
    refine ⟨exec_cwRepeat hwf hs, ?_⟩
    rw [stepRepeat, heq, hunread, hc.unread_eq, hu]
    rfl
  | @reuse bits hv hlt =>
    obtain ⟨d', hc, hr⟩ := stepReuse_read bits hd hv (by simp [hu]; omega)
    have hbits : bits = fieldValue (((unreadBits s.dec).drop 2).take s.dec.win.width) := by
      rw [hu]
      simp [fieldValue_fieldBits _ _ hlt]
    rw [nextRule_eq_stepReuse hd hs (by simp [hu]) (by simp [hu]) hbits]
    refine ⟨exec_cwReuse hwf hs (reuseFits_of hd.window fun _ => hlt), ?_⟩
    rw [hr, ruleCheckSentinel_unread]
    show unreadBits d' = rest
    rw [hc.unread_eq, hu, List.drop_left' (by simp; omega)]
  | @new lead len bits hlead hle hlt =>
    obtain ⟨d', hc, hr⟩ := stepNew_read bits hd hle (by simp [hu]; omega)
    have hstream : (unreadBits s.dec).drop 2 = fieldBits (lead.setWidth 64) s.cfg.leadW.bits ++
        (fieldBits (len.setWidth 64) 6 ++ (fieldBits bits (len.toNat + 1) ++ rest)) := by
      rw [hu]
      simp
    have hbits : bits =
        fieldValue ((((unreadBits s.dec).drop 2).drop (s.cfg.leadW.bits + 6)).take (len.toNat + 1)) := by
      rw [hstream, ← List.drop_drop, List.drop_left' (fieldBits_length _ _), List.drop_left' (fieldBits_length _ _),
        List.take_left' (fieldBits_length _ _), fieldValue_fieldBits _ _ hlt]
    rw [nextRule_eq_stepNew hd hs (by simp [hu]) (by simp [hu])
      (by rw [hstream, fieldValue_take_six _ (toNat_lt_of_le_leadMax hlead)])
      (by rw [hstream, List.drop_left' (fieldBits_length _ _), fieldValue_take_six _ len.isLt]) hbits]
    refine ⟨exec_cwNew hwf hs (newFits_of hlead fun _ => hlt), ?_⟩
    rw [hr, ruleCheckSentinel_unread]
    show unreadBits d' = rest
    rw [hc.unread_eq, hu, List.drop_left' (by simp; omega)]

/-! ### The start of the stream -/

/-- Without a tag, the first `DEC_NEXT` is the `FIRST` codeword, whole or cut short (R94, R192). -/
theorem nextRule_untagged (hd : DecFacts c d) (hs : d.state = .awaitingFirst) (hl : d.srcLen ≠ 0)
    (ht : c.tagEn = false) : nextRule c d = stepFirst (fieldValue ((unreadBits d).take 64)) d := by
  have hrule : nextRule c d = ruleAwaitingFirst c d :=
    (nextRule_of_rank_one hd (by rw [hs]; rfl) (by rw [hs]; rfl)).trans (by rw [decStepRule, hs])
  have htag : readTag c d = some d := if_neg (by simp [ht])
  rw [hrule, ruleAwaitingFirst, if_neg hl, htag]
  rcases readBits_cases (n := 64) (by omega) hd.source with ⟨-, hread⟩ | ⟨d', -, hread, -, -⟩ <;>
    simp only [stepFirst, consume, hread]

/-- With a tag, it is the `TAG` codeword and then the `FIRST` codeword, whole or cut short (R93, R94, R192). -/
theorem nextRule_tagged (hd : DecFacts c d) (hs : d.state = .awaitingFirst) (hl : d.srcLen ≠ 0)
    (ht : c.tagEn = true) :
    nextRule c d = andThen (stepTag ((fieldValue ((unreadBits d).take 8)).setWidth 8) d)
      (stepFirst (fieldValue (((unreadBits d).drop 8).take 64))) := by
  have hrule : nextRule c d = ruleAwaitingFirst c d :=
    (nextRule_of_rank_one hd (by rw [hs]; rfl) (by rw [hs]; rfl)).trans (by rw [decStepRule, hs])
  rw [hrule, ruleAwaitingFirst, if_neg hl, readTag, if_pos ht]
  rcases readBits_cases (n := 8) (by omega) hd.source with ⟨-, hread⟩ | ⟨d', -, hread, hc, hsrc⟩
  · simp only [stepTag, consume, hread, Option.map_none]
    rfl
  · have hsame : SameSource d' (acceptTag (fieldValue ((unreadBits d).take 8)) d') := ⟨rfl, rfl, rfl, rfl, rfl, rfl⟩
    have htag (x : Sample) : acceptTag ((x.setWidth 8).setWidth 64) d' = acceptTag x d' := by simp [acceptTag]
    simp only [stepTag, consume, hread, Option.map_some, andThen, htag]
    rcases readBits_cases (n := 64) (by omega) (hsame.sourceOk hsrc) with ⟨-, hread'⟩ | ⟨d'', -, hread', -, -⟩
    · simp only [stepFirst, consume, hread']
    · simp only [stepFirst, consume, hread', hsame.unread, hc.unread_eq]

/-! ### What the decoder fetches -/

theorem fetchCodeword_some {r : Except DecodeError (Instr × List Bool)} (h : fetchCodeword c d = some r) :
    ∃ pos, codewordPos c d = some pos ∧ decodeCodeword c d.win pos (unreadBits d) = r :=
  Option.map_eq_some_iff.1 h

/-- At the start of the stream the decoder fetches a `TAG` or a `FIRST`. -/
theorem codewordPos_awaitingFirst {pos : CwPos} (hs : d.state = .awaitingFirst) (h : codewordPos c d = some pos) :
    pos = .tag ∨ pos = .first := by
  cases pos with
  | tag => exact .inl rfl
  | first => exact .inr rfl
  | data => cases hs.symm.trans (codewordPos_eq_data_iff.1 h)
  | pad n => cases hs.symm.trans (codewordPos_eq_pad_iff.1 h).1

/-- A `TAG` is fetched at stream bit 0 only, and with the 8 bits it has there (R92, R93). -/
theorem fetch_cwTag {b : Byte} {rest : List Bool} (h : fetchCodeword c d = some (.ok (.cwTag b, rest))) :
    codewordPos c d = some .tag ∧ unreadBits d = fieldBits (b.setWidth 64) 8 ++ rest := by
  obtain ⟨pos, hpos, hdec⟩ := fetchCodeword_some h
  cases pos with
  | tag =>
    rcases decodeTag_cases c d.win (unreadBits d) with ⟨-, herr⟩ | ⟨t, rest', hu, hok⟩
    · cases herr.symm.trans hdec
    · cases hok.symm.trans hdec
      exact ⟨hpos, hu⟩
  | first =>
    rcases decodeFirst_cases c d.win (unreadBits d) with ⟨-, herr⟩ | ⟨v, rest', -, hok⟩
    · cases herr.symm.trans hdec
    · cases hok.symm.trans hdec
  | data =>
    obtain ⟨bits, hdata, -⟩ := decodeData_ok hdec
    cases hdata
  | pad n =>
    rw [decodeCodeword] at hdec
    split at hdec <;> cases hdec

theorem stepFirst_read (v : Sample) (hd : DecFacts c d) (h : 64 ≤ (unreadBits d).length) :
    ∃ d', Consumed d d' 64 ∧ stepFirst v d = acceptFirst v d' := by
  obtain ⟨d', heq, hc, -⟩ := consume_read (cause := .first) (next := acceptFirst v) hd (by omega) h
  exact ⟨d', hc, heq⟩

theorem stepFirst_unread {rest : List Bool} (hd : DecFacts c d) (hu : unreadBits d = fieldBits v 64 ++ rest) :
    unreadBits (stepFirst v d).1 = rest := by
  obtain ⟨d', hc, heq⟩ := stepFirst_read v hd (by simp [hu])
  have hsame : SameSource d' (acceptFirst v d').1 := ⟨rfl, rfl, rfl, rfl, rfl, rfl⟩
  rw [heq, hsame.unread, hc.unread_eq, hu, List.drop_left' (fieldBits_length _ _)]

/-- Settles O43: a `FIRST` without a tag by `nextRule_untagged`, a data codeword by `exec_dataCodeword`. -/
theorem decNextExecutesFetchedCodeword : Obligations.DecNextExecutesFetchedCodeword := by
  intro s i rest hs hr hfetch hnotTag htag
  obtain ⟨hwf, -, hd⟩ := (inv_iff s).1 hs
  obtain ⟨pos, hpos, hdec⟩ := fetchCodeword_some hfetch
  rw [exec_decNext hwf hr]
  cases pos with
  | tag =>
    rcases decodeTag_cases s.cfg s.dec.win (unreadBits s.dec) with ⟨-, herr⟩ | ⟨t, rest', -, hok⟩
    · cases herr.symm.trans hdec
    · cases hok.symm.trans hdec
      exact absurd rfl (hnotTag t)
  | first =>
    obtain ⟨hst, hl, -⟩ := codewordPos_eq_first_iff.1 hpos
    rcases decodeFirst_cases s.cfg s.dec.win (unreadBits s.dec) with ⟨-, herr⟩ | ⟨v, rest', hu, hok⟩
    · cases herr.symm.trans hdec
    · cases hok.symm.trans hdec
      have hv : fieldValue ((unreadBits s.dec).take 64) = v := by
        rw [hu, List.take_left' (fieldBits_length _ _), fieldValue_fieldBits _ _ v.isLt]
      rw [nextRule_untagged hd hst hl (htag hst), hv]
      exact ⟨(exec_cwFirst v hwf hpos).symm, _, exec_cwFirst v hwf hpos, stepFirst_unread hd hu⟩
  | data =>
    obtain ⟨bits, hdata, hu⟩ := decodeData_ok hdec
    obtain ⟨hexec, hrest⟩ := exec_dataCodeword hwf hd (codewordPos_eq_data_iff.1 hpos) hdata hu
    exact ⟨hexec.symm, _, hexec, hrest⟩
  | pad n =>
    obtain ⟨hst, -⟩ := codewordPos_eq_pad_iff.1 hpos
    rw [hst] at hr
    cases hr

/-! ### The start of the stream behind a tag -/

/-- What the `TAG` codeword leaves where it stands: the byte latched, its 8 bits read, `FIRST` awaited (R93). -/
structure BehindTag (s t : State) (b : Byte) (rest : List Bool) : Prop where
  exec_eq : exec (.cwTag b) s = .next t
  facts : DecFacts t.cfg t.dec
  state : t.dec.state = .awaitingFirst
  pos : codewordPos t.cfg t.dec = some .first
  unread : unreadBits t.dec = rest
  /-- `DEC_NEXT` from `s` is the `FIRST` codeword from `t` -/
  next : nextRule s.cfg s.dec = stepFirst (fieldValue (rest.take 64)) t.dec
  /-- the machine has changed in the decoder channel and the response only -/
  frame : ∀ d r, s.setDec d r = t.setDec d r

theorem behindTag_of_fetch {s : State} {b : Byte} {rest : List Bool} (hs : Inv s)
    (hfetch : fetchCodeword s.cfg s.dec = some (.ok (.cwTag b, rest))) : ∃ t, BehindTag s t b rest := by
  obtain ⟨hwf, -, hd⟩ := (inv_iff s).1 hs
  obtain ⟨hpos, hu⟩ := fetch_cwTag hfetch
  obtain ⟨hst, hl, ht, hr⟩ := codewordPos_eq_tag_iff.1 hpos
  have hb : (b.setWidth 64).toNat < 2 ^ 8 := by rw [BitVec.toNat_setWidth]; omega
  have hlatch : (fieldValue ((unreadBits s.dec).take 8)).setWidth 8 = b := by
    rw [hu, List.take_left' (fieldBits_length _ _), fieldValue_fieldBits _ _ hb]
    simp
  have hdrop : (unreadBits s.dec).drop 8 = rest := by rw [hu, List.drop_left' (fieldBits_length _ _)]
  obtain ⟨d', heq, hc, -⟩ := consume_read (cause := .first)
    (next := fun d' => (acceptTag (b.setWidth 64) d', .noSample)) hd (show 8 ≤ 64 by omega) (by simp [hu])
  have hstep : stepTag b s.dec = (acceptTag (b.setWidth 64) d', .noSample) := heq
  have hexec := exec_cwTag b hwf hpos
  rw [hstep] at hexec
  have hsame : SameSource d' (acceptTag (b.setWidth 64) d') := ⟨rfl, rfl, rfl, rfl, rfl, rfl⟩
  refine ⟨_, {
    exec_eq := hexec
    facts := ((inv_iff _).1 (exec_keeps_inv hs hexec)).2.2
    state := hc.state_eq.trans hst
    pos := codewordPos_eq_first_iff.2 ⟨hc.state_eq.trans hst, fun h => hl (hc.srcLen_eq.symm.trans h), ?_⟩
    unread := (hsame.unread.trans hc.unread_eq).trans hdrop
    next := by rw [nextRule_tagged hd hst hl ht, hlatch, hdrop, hstep]; rfl
    frame := fun _ _ => rfl }⟩
  show srcRpos d' = 8 * s.cfg.tagBytes
  rw [hc.rpos_eq, hr]
  simp [Cfg.tagBytes, ht]

/-- Settles O44: both sides are the `FIRST` codeword behind the tag. -/
theorem decNextAtStartExecutesTagThenFirst : Obligations.DecNextAtStartExecutesTagThenFirst := by
  intro s b v rest rest' hs hst hfetch
  obtain ⟨t, ht⟩ := behindTag_of_fetch hs hfetch
  refine ⟨t, ht.exec_eq, ht.unread, fun hfetch' => ?_⟩
  have htwf : t.cfg.wf = true := by rw [exec_keeps_cfg ht.exec_eq]; exact hs.1
  obtain ⟨pos, hpos, hdec⟩ := fetchCodeword_some hfetch'
  cases ht.pos.symm.trans hpos
  rcases decodeFirst_cases t.cfg t.dec.win (unreadBits t.dec) with ⟨-, herr⟩ | ⟨v', rest'', hu, hok⟩
  · cases herr.symm.trans hdec
  · cases hok.symm.trans hdec
    have hv : fieldValue (rest.take 64) = v := by
      rw [← ht.unread, hu, List.take_left' (fieldBits_length _ _), fieldValue_fieldBits _ _ v.isLt]
    have hexec := exec_cwFirst v htwf ht.pos
    refine ⟨?_, _, hexec, stepFirst_unread ht.facts hu⟩
    rw [exec_decNext hs.1 (by rw [hst]; rfl), ht.next, hv, ht.frame, hexec]

/-! ### Where no codeword can be fetched -/

/-- `DEC_NEXT` ends in `UnexpectedEof` of a cause, no sample counted and the previous value as it was (R253). -/
def NextRaises (c : Cfg) (d : DecChannel) (cause : Cause) : Prop :=
  ∃ d', nextRule c d = raiseDec .unexpectedEof cause d' ∧ d'.count = d.count ∧ d'.prev = d.prev

theorem NextRaises.of_consumed {r : DecChannel × StepAnswer} {d' : DecChannel} {cause : Cause} (h : nextRule c d = r)
    (hc : Consumed d d' n) (hr : r = raiseDec .unexpectedEof cause d') : NextRaises c d cause :=
  ⟨d', h.trans hr, hc.count_eq, hc.prev_eq⟩

/-- The cause that R252 gives to what is missing or malformed (R102). -/
def CauseOf (why : DecodeError) (cause : Cause) : Prop :=
  why = .endOfStream cause ∨ (why = .reuseWithoutWindow ∧ cause = .noWindow) ∨
    (why = .windowTooWide ∧ cause = .windowOverrun)

theorem nextRaises_reuse {s : List Bool} {why : DecodeError} (hd : DecFacts c d) (hs : d.state = .readingControlA)
    (hu : unreadBits d = true :: false :: s) (h : decodeReuse d.win s = .error why) :
    ∃ cause, NextRaises c d cause ∧ CauseOf why cause := by
  have hnext := nextRule_eq_stepReuse hd hs (by simp [hu]) (by simp [hu]) rfl
  have hlen : (unreadBits d).length = 2 + s.length := by simp [hu]; omega
  rcases decodeReuse_cases d.win s with ⟨hv, herr⟩ | ⟨hv, hlt, herr⟩ | ⟨_, _, -, -, -, hok⟩
  · cases herr.symm.trans h
    obtain ⟨d', hc, hr⟩ := stepReuse_noWindow _ hd hv (by omega)
    exact ⟨_, .of_consumed hnext hc hr, .inr (.inl ⟨rfl, rfl⟩)⟩
  · cases herr.symm.trans h
    obtain ⟨d', hc, hr⟩ := stepReuse_bits_short _ hd hv (by omega) (by omega)
    exact ⟨_, ⟨_, hnext.trans hr, hc.count_eq, hc.prev_eq⟩, .inl rfl⟩
  · cases hok.symm.trans h

theorem nextRaises_new {s : List Bool} {why : DecodeError} (hd : DecFacts c d) (hs : d.state = .readingControlA)
    (hu : unreadBits d = true :: true :: s) (h : decodeNew c s = .error why) :
    ∃ cause, NextRaises c d cause ∧ CauseOf why cause := by
  have hnext {lead len : Nat} (hlead : lead = (fieldValue (s.take c.leadW.bits)).toNat)
      (hlen : len = (fieldValue ((s.drop c.leadW.bits).take 6)).toNat) :
      ∃ bits, nextRule c d = stepNew c lead len bits d :=
    ⟨_, nextRule_eq_stepNew hd hs (by simp [hu]) (by simp [hu]) (by rw [hu]; exact hlead) (by rw [hu]; exact hlen) rfl⟩
  have hlen : (unreadBits d).length = 2 + s.length := by simp [hu]; omega
  rcases decodeNew_cases c s with ⟨hlt, herr⟩ | ⟨lead, len, rest, hh, hcases⟩
  · cases herr.symm.trans h
    obtain ⟨bits, hshort⟩ := hnext rfl rfl
    obtain ⟨hnoLead, hnoLen⟩ := stepNew_header_short _ _ bits hd (by omega)
    by_cases hl : (unreadBits d).length < 2 + c.leadW.bits
    · obtain ⟨d', hc, hr⟩ := hnoLead hl
      exact ⟨_, .of_consumed hshort hc hr, .inl rfl⟩
    · obtain ⟨d', hc, hr⟩ := hnoLen (by omega) (by omega)
      exact ⟨_, .of_consumed hshort hc hr, .inl rfl⟩
  · obtain ⟨bits, hfields⟩ := hnext (lead := lead.toNat) (len := len.toNat)
      (by rw [hh.stream_eq, fieldValue_take_six _ (toNat_lt_of_le_leadMax hh.lead_le)])
      (by rw [hh.stream_eq, List.drop_left' (fieldBits_length _ _), fieldValue_take_six _ len.isLt])
    have hs : s.length = c.leadW.bits + 6 + rest.length := by rw [hh.stream_eq]; simp; omega
    rcases hcases with ⟨hgt, herr⟩ | ⟨hle, hlt, herr⟩ | ⟨_, _, -, -, -, hok⟩
    · cases herr.symm.trans h
      obtain ⟨d', hc, hr⟩ := stepNew_overruns _ hd hgt (by omega)
      exact ⟨_, .of_consumed hfields hc hr, .inr (.inr ⟨rfl, rfl⟩)⟩
    · cases herr.symm.trans h
      obtain ⟨d', hc, hr⟩ := stepNew_bits_short _ hd hle (by omega) (by omega)
      exact ⟨_, ⟨_, hfields.trans hr, hc.count_eq, hc.prev_eq⟩, .inl rfl⟩
    · cases hok.symm.trans h

/-- Between two codewords: the control bits, or what `decodeReuse` or `decodeNew` finds missing or malformed. -/
theorem nextRaises_data {why : DecodeError} (hd : DecFacts c d) (hs : d.state = .readingControlA)
    (h : decodeCodeword c d.win .data (unreadBits d) = .error why) :
    ∃ cause, NextRaises c d cause ∧ CauseOf why cause := by
  match hu : unreadBits d with
  | [] =>
    cases (congrArg (decodeCodeword c d.win .data) hu).symm.trans h
    have hnext := nextRule_eq_stepRepeat hd hs (by simp [hu])
    exact ⟨_, .of_consumed hnext (.refl d) (consume_short (by simp [hu])), .inl rfl⟩
  | [true] =>
    cases (congrArg (decodeCodeword c d.win .data) hu).symm.trans h
    have hnext := nextRule_eq_stepReuse hd hs (by simp [hu]) (by simp [hu]) rfl
    obtain ⟨d', hr, hc⟩ := consume_consume_short (n := 1) (m := 1) hd (by omega) (by simp [hu]) (by simp [hu])
    exact ⟨_, .of_consumed hnext hc hr, .inl rfl⟩
  | false :: _ => cases (congrArg (decodeCodeword c d.win .data) hu).symm.trans h
  | true :: false :: s => exact nextRaises_reuse hd hs hu ((congrArg (decodeCodeword c d.win .data) hu).symm.trans h)
  | true :: true :: s => exact nextRaises_new hd hs hu ((congrArg (decodeCodeword c d.win .data) hu).symm.trans h)

/-- A stream that ends inside the first sample, read behind a tag where one is used (R192). -/
theorem nextRaises_first (hd : DecFacts c d) (hs : d.state = .awaitingFirst) (hl : d.srcLen ≠ 0)
    (hlt : (unreadBits d).length < 64) : NextRaises c d .first := by
  cases ht : c.tagEn with
  | false => exact .of_consumed (nextRule_untagged hd hs hl ht) (.refl d) (consume_short hlt)
  | true =>
    have hnext := nextRule_tagged hd hs hl ht
    set b := (fieldValue ((unreadBits d).take 8)).setWidth 8
    by_cases h8 : (unreadBits d).length < 8
    · exact .of_consumed hnext (.refl d) (by rw [stepTag, consume_short h8]; rfl)
    · obtain ⟨d', heq, hc, -⟩ := consume_read (cause := .first)
        (next := fun d' => (acceptTag (b.setWidth 64) d', .noSample)) hd (show 8 ≤ 64 by omega) (by omega)
      have hlen := hc.unread_length
      have hsame : unreadBits (acceptTag (b.setWidth 64) d') = unreadBits d' :=
        SameSource.unread ⟨rfl, rfl, rfl, rfl, rfl, rfl⟩
      refine ⟨acceptTag (b.setWidth 64) d', hnext.trans ?_, hc.count_eq, hc.prev_eq⟩
      rw [stepTag, heq]
      refine consume_short ?_
      rw [hsame]
      omega

/-- At the start of the stream a fetch fails only where the stream ends inside the codeword. -/
theorem nextRaises_start {pos : CwPos} {why : DecodeError} (hd : DecFacts c d) (hs : d.state = .awaitingFirst)
    (hpos : codewordPos c d = some pos) (h : decodeCodeword c d.win pos (unreadBits d) = .error why) :
    NextRaises c d .first ∧ why = .endOfStream .first := by
  rcases codewordPos_awaitingFirst hs hpos with rfl | rfl
  · obtain ⟨-, hl, -⟩ := codewordPos_eq_tag_iff.1 hpos
    rcases decodeTag_cases c d.win (unreadBits d) with ⟨hlt, herr⟩ | ⟨t, rest, -, hok⟩
    · cases herr.symm.trans h
      exact ⟨nextRaises_first hd hs hl (by omega), rfl⟩
    · cases hok.symm.trans h
  · obtain ⟨-, hl, -⟩ := codewordPos_eq_first_iff.1 hpos
    rcases decodeFirst_cases c d.win (unreadBits d) with ⟨hlt, herr⟩ | ⟨v, rest, -, hok⟩
    · cases herr.symm.trans h
      exact ⟨nextRaises_first hd hs hl hlt, rfl⟩
    · cases hok.symm.trans h

/-- Settles O45: `nextRaises_data` between two codewords, `nextRaises_start` at the start of the stream, and behind a tag
the `FIRST` codeword that `BehindTag` says is next. -/
theorem decNextRaisesWhereNoCodewordStands : Obligations.DecNextRaisesWhereNoCodewordStands := by
  intro s why hs
  obtain ⟨hwf, -, hd⟩ := (inv_iff s).1 hs
  constructor
  · intro hst hfetch
    have hr : s.dec.state.running = true := by rcases hst with h | h <;> rw [h] <;> rfl
    obtain ⟨pos, hpos, hdec⟩ := fetchCodeword_some hfetch
    have key : ∃ cause, NextRaises s.cfg s.dec cause ∧ CauseOf why cause ∧
        (s.dec.state = .awaitingFirst → cause = .first) := by
      rcases hst with hst | hst
      · cases (codewordPos_eq_data_iff.2 hst).symm.trans hpos
        obtain ⟨cause, hnext, hnames⟩ := nextRaises_data hd hst hdec
        exact ⟨cause, hnext, hnames, fun h => nomatch hst.symm.trans h⟩
      · obtain ⟨hnext, hwhy⟩ := nextRaises_start hd hst hpos hdec
        exact ⟨.first, hnext, .inl hwhy, fun _ => rfl⟩
    obtain ⟨cause, ⟨d', hnext, hcount, hprev⟩, hnames, hfirst⟩ := key
    refine ⟨_, cause, exec_decNext hwf hr, ?_⟩
    rw [hnext]
    exact ⟨rfl, rfl, rfl, hcount, hprev, hnames, hfirst⟩
  · intro b rest t hst hfetch hexec hfetch'
    obtain ⟨t', ht⟩ := behindTag_of_fetch hs hfetch
    cases ht.exec_eq.symm.trans hexec
    obtain ⟨pos, hpos, hdec⟩ := fetchCodeword_some hfetch'
    cases ht.pos.symm.trans hpos
    rcases decodeFirst_cases t.cfg t.dec.win (unreadBits t.dec) with ⟨hlt, herr⟩ | ⟨v, rest', -, hok⟩
    · cases herr.symm.trans hdec
      refine ⟨rfl, ?_⟩
      rw [exec_decNext hwf (by rw [hst]; rfl), ht.next, stepFirst, consume_short hlt, ht.frame]
      rfl
    · cases hok.symm.trans hdec

end Sys2Proof.Machine
end

section
/-! PROOFS of the family `40_bit_packer`: opening the sink, appending a field to it, and the codewords it has no room
for. -/

namespace Sys2Proof.Machine

variable {c : Cfg} {e : EncChannel} {v delta : Sample}

/-- An encoder operation on the machine, from what it does to its channel. -/
theorem onEnc_of_eq {f : Cfg → EncChannel → EncChannel × Response} {s : State} {e' : EncChannel} {r : Response}
    (hwf : s.cfg.wf = true) (h : f s.cfg s.enc = (e', r)) : onEnc f s = .next { s with enc := e', resp := some r } := by
  rw [onEnc_eq s f hwf, h]
  rfl

/-! ### `SNK_INIT` -/

/-- Settles O18. -/
theorem snkInitOpensEmptySink : Obligations.SnkInitOpensEmptySink :=
  fun s hwf => onEnc_of_eq hwf (show snkInit s.cfg s.enc = (restartEnc .raw s.enc, .ok .unit) from rfl)

/-! ### `SNK_WRITE` -/

section SnkWrite

variable {value : Sample} {count : BitVec 7}

theorem snkWrite_of_not_legal (h : e.state ≠ .raw ∨ count.toNat > 64) : snkWrite value count c e = (e, .refused) :=
  if_pos h

theorem snkWrite_of_legal (hs : e.state = .raw) (hn : count.toNat ≤ 64) :
    snkWrite value count c e =
      if fits c e count.toNat then (writeBits value count.toNat e, .ok .unit)
      else raiseEnc .capacityExceeded .noCause e :=
  if_neg (not_or.2 ⟨not_not.2 hs, not_lt.2 hn⟩)

/-- The write where the field does not fit (R123). -/
theorem snkWrite_full (hs : e.state = .raw) (hn : count.toNat ≤ 64) (hf : fits c e count.toNat = false) :
    snkWrite value count c e = raiseEnc .capacityExceeded .noCause e := by
  rw [snkWrite_of_legal hs hn, hf, if_neg Bool.false_ne_true]

/-- The write where the field fits (R121). -/
theorem snkWrite_writes (hp : paddingZero e = true) (hs : e.state = .raw) (hn : count.toNat ≤ 64)
    (hf : fits c e count.toNat = true) :
    ∃ mem, snkWrite value count c e = ({ e with obuf := mem, wbits := e.wbits + count.toNat }, .ok .unit) ∧
      Appended e (fieldBits value count.toNat) mem := by
  obtain ⟨mem, hwrite, happ⟩ := (Wrote.field value count.toNat hp hf).exists_memory (fieldBits_length _ _)
  refine ⟨mem, ?_, happ⟩
  rw [snkWrite_of_legal hs hn, if_pos hf, hwrite]

end SnkWrite

/-- Settles O19: the three cases of `SNK_WRITE` on the channel, carried to the machine. -/
theorem snkWriteAppendsField : Obligations.SnkWriteAppendsField := by
  intro s value count hs
  obtain ⟨hwf, henc, -⟩ := (inv_iff s).1 hs
  refine ⟨fun h => ?_, fun hst hn hf => ?_, fun hst hn hf => ?_⟩
  · exact onEnc_of_refused hwf (snkWrite_of_not_legal h)
  · exact onEnc_of_eq hwf (snkWrite_full hst hn hf)
  · obtain ⟨mem, h, happ⟩ := snkWrite_writes (value := value) (sinkOk_padding henc.sink) hst hn hf
    exact ⟨mem, onEnc_of_eq hwf h, happ⟩

/-! ### Codewords without room: nothing is written -/

theorem firstValue_full (hf : fits c e (64 + 8 * c.tagBytes) = false) : firstValue c v e = none := by
  simp [firstValue, hf]

theorem emitRepeat_full (hf : fits c e 1 = false) : emitRepeat c e = none := by simp [emitRepeat, hf]

theorem reuseWindow_full (hf : fits c e (2 + e.win.width) = false) : reuseWindow c delta e = none := by
  simp [reuseWindow, hf]

theorem newWindow_full {lead trail : Nat} (hf : fits c e (2 + c.leadW.bits + 6 + (64 - lead - trail)) = false) :
    newWindow c delta lead trail e = none := by
  simp [newWindow, hf]

theorem emitDelta_inside (hd : delta ≠ 0)
    (hin : e.win.valid = true ∧ e.win.lead ≤ clampedLead c delta ∧ e.win.trail ≤ ctz64 delta) :
    emitDelta c delta e = reuseWindow c delta e :=
  (if_neg hd).trans (if_pos (reusable_iff.2 hin))

/-- A delta other than 0 for whose codeword there is no room; `n` is the length of that codeword, a `REUSE` where the
Window in force covers the delta and a `NEW` elsewhere (R163, R165, R166). -/
theorem emitDelta_full {n : Nat} (hd : delta ≠ 0)
    (hn : n = if e.win.valid = true ∧ e.win.lead ≤ min (clz64 delta) c.leadMax ∧ e.win.trail ≤ ctz64 delta
      then 2 + (64 - e.win.lead - e.win.trail)
      else 2 + c.leadW.bits + 6 + (64 - min (clz64 delta) c.leadMax - ctz64 delta))
    (hf : fits c e n = false) : emitDelta c delta e = none := by
  split_ifs at hn with hin <;> subst hn
  · exact (emitDelta_inside hd hin).trans (reuseWindow_full hf)
  · exact (emitDelta_outside hd hin).trans (newWindow_full hf)

theorem encSample_first_full (hs : e.state = .active) (hc : e.count = 0) (hv : v ≠ c.sentinel)
    (h : firstValue c v e = none) : encSample v c e = raiseEnc .capacityExceeded .noCause e := by
  simp [encSample, hs, hc, hv, h]

theorem encSample_later_full (hs : e.state = .active) (hc : e.count ≠ 0) (hv : v ≠ c.sentinel)
    (h : emitDelta c (v ^^^ e.prev) e = none) : encSample v c e = raiseEnc .capacityExceeded .noCause e := by
  simp [encSample, hs, hc, hv, h]

theorem encEnd_full (hs : e.state = .active) (hc : e.count ≠ 0)
    (h : emitDelta c (c.sentinel ^^^ e.prev) e = none) : encEnd c e = raiseEnc .capacityExceeded .noCause e := by
  simp [encEnd, hs, hc, h]

/-- The delta of a value to the one before it is what that value was made with. -/
theorem xor_prev_of_eq {x prev : Sample} (h : x = prev ^^^ delta) : x ^^^ prev = delta := by
  rw [h, BitVec.xor_comm prev, BitVec.xor_assoc, BitVec.xor_self, BitVec.xor_zero]

/-- Settles O27: each codeword's step answers nothing where the codeword does not fit, so the operation raises. -/
theorem codewordBeyondCapacityRaises : Obligations.CodewordBeyondCapacityRaises := by
  intro s t n hs hst hf ht
  obtain ⟨hwf, henc, -⟩ := (inv_iff s).1 hs
  subst ht
  refine ⟨fun v hv hc hn => ?_, fun hc hn => ?_, fun delta v hd hc hn => ?_⟩
  · subst hn
    exact exec_encSample hwf (encSample_first_full hst hc hv (firstValue_full hf))
  · subst hn
    have hnone : emitDelta s.cfg (s.enc.prev ^^^ s.enc.prev) s.enc = none := by
      rw [BitVec.xor_self]
      exact (emitDelta_zero _ _).trans (emitRepeat_full hf)
    exact exec_encSample hwf (encSample_later_full hst hc (henc.prev hst hc) hnone)
  · have hnone : emitDelta s.cfg delta s.enc = none := emitDelta_full hd hn hf
    refine ⟨fun hdelta hv => ?_, fun hdelta => ?_⟩
    · rw [← xor_prev_of_eq hdelta] at hnone
      exact exec_encSample hwf (encSample_later_full hst hc hv hnone)
    · rw [← xor_prev_of_eq hdelta] at hnone
      exact exec_encEnd hwf (encEnd_full hst hc hnone)

end Sys2Proof.Machine
end

section
/-! PROOFS of the family `41_bit_buffer`: opening the source, the raw reads, and the cache as a mirror of `IBUF`. -/

namespace Sys2Proof.Machine

variable {c : Cfg} {d d' : DecChannel} {n : Nat}

/-- A decoder operation on the machine, from what it does to its channel. -/
theorem onDec_of_eq {f : Cfg → DecChannel → DecChannel × Response} {s : State} {r : Response}
    (hwf : s.cfg.wf = true) (h : f s.cfg s.dec = (d', r)) : onDec f s = .next { s with dec := d', resp := some r } := by
  rw [onDec_eq s f hwf, h]
  rfl

/-! ### The cache stays a mirror of `IBUF` -/

/-- A cache without a valid bit mirrors any memory. -/
theorem cacheMirrors_of_empty (h : d.srcValid = 0) : CacheMirrors d := fun i hi => by omega

/-- What only reads the source keeps the mirror, by `cacheMirrors_readBits` along its reads. -/
theorem Kept.mirrors (h : Kept c d d') (hm : CacheMirrors d) : CacheMirrors d' := by
  obtain ⟨k, hk⟩ := h.took
  exact hk.mirrors hm

theorem Kept.refl (hd : DecFacts c d) : Kept c d d := ⟨hd, 0, .nothing hd.source⟩

/-- An operation on the encoder channel keeps the decoder's cache and memory (R15). -/
theorem onEnc_keeps_mirror {f : Cfg → EncChannel → EncChannel × Response} {s t : State} (hm : CacheMirrors s.dec)
    (h : onEnc f s = .next t) : CacheMirrors t.dec := by
  obtain ⟨-, rfl⟩ := onEnc_next h
  exact hm

/-- An operation on the decoder channel keeps the mirror of the machine where its rule keeps that of the channel. -/
theorem onDec_keeps_mirror {f : Cfg → DecChannel → DecChannel × Response}
    (hf : ∀ c d, DecFacts c d → CacheMirrors d → CacheMirrors (f c d).1) {s t : State} (hs : Inv s)
    (hm : CacheMirrors s.dec) (h : onDec f s = .next t) : CacheMirrors t.dec := by
  obtain ⟨-, -, hdec⟩ := (inv_iff s).1 hs
  obtain ⟨-, rfl⟩ := onDec_next h
  exact hf _ _ hdec hm

/-- `SRC_INIT` leaves an empty cache, or nothing changed (R140). -/
theorem srcInit_mirrors (len : Nat) (hm : CacheMirrors d) : CacheMirrors (srcInit len c d).1 := by
  unfold srcInit
  split_ifs
  · exact cacheMirrors_of_empty rfl
  · exact hm

/-- `DEC_BEGIN` leaves an empty cache, or nothing changed (R190). -/
theorem decBegin_mirrors (len : Nat) (hm : CacheMirrors d) : CacheMirrors (decBegin len c d).1 := by
  unfold decBegin
  split_ifs
  · exact cacheMirrors_of_empty rfl
  · exact hm

theorem rawRead_kept (result : Sample → OkResult) (hn : n ≤ 64) (hd : DecFacts c d) :
    Kept c d (rawRead n result d).1 := by
  unfold rawRead
  rcases readBits_cases hn hd.source with ⟨-, hnone⟩ | ⟨d', -, hsome, hc, hsrc⟩
  · rw [hnone]
    exact raiseDec_kept hd (by simp)
  · rw [hsome]
    exact ⟨hd.read hc hsrc, n, .read hd.source hn hsome⟩

theorem srcRdBit_kept (hd : DecFacts c d) : Kept c d (srcRdBit c d).1 := by
  unfold srcRdBit
  split_ifs
  · exact .refl hd
  · exact rawRead_kept _ (by omega) hd

theorem srcRdBits_kept (count : BitVec 7) (hd : DecFacts c d) : Kept c d (srcRdBits count c d).1 := by
  unfold srcRdBits
  split_ifs with hs
  · exact .refl hd
  · exact rawRead_kept _ (by omega) hd

theorem decStep_kept (hd : DecFacts c d) : Kept c d (decStep c d).1 := by
  unfold decStep
  split_ifs with hr
  · exact (decStepRule_stepped hd hr).kept'
  · exact .refl hd

theorem decNext_kept (hd : DecFacts c d) : Kept c d (decNext c d).1 := by
  unfold decNext
  split_ifs with hr
  · have hadv := nextRule_advanced hd hr
    exact ⟨hadv.facts, hadv.took.imp fun _ hk => hk.1⟩
  · exact .refl hd

theorem decRun_kept (hd : DecFacts c d) : Kept c d (decRun c d).1 := by
  unfold decRun
  split_ifs with hr
  · obtain ⟨hfacts, htook, -⟩ := runLoop_spec (out := []) hd hr (runBound_le d)
    exact ⟨hfacts, htook⟩
  · exact .refl hd

theorem decSetExpect_kept (en : Bool) (n : Nat) (hd : DecFacts c d) : Kept c d (decSetExpect en n c d).1 :=
  ⟨decSetExpect_facts en n hd, 0, (Took.nothing hd.source).congr ⟨rfl, rfl, rfl, rfl, rfl, rfl⟩⟩

/-- A codeword only reads the source where its rule does at the positions that select it; elsewhere it is refused. -/
theorem onCodeword_kept {i : Instr} {legal : Cfg → DecChannel → Bool}
    {rule : Cfg → DecChannel → DecChannel × StepAnswer} {response : StepAnswer → Response} (hd : DecFacts c d)
    (hrule : ∀ pos, codewordPos c d = some pos → i.standsAt pos = true → legal c d = true → Kept c d (rule c d).1) :
    Kept c d (onCodeword i legal rule response c d).1 := by
  unfold onCodeword
  split_ifs with hl
  · rw [Bool.and_eq_true, Option.any_eq_true] at hl
    obtain ⟨⟨pos, hpos, hi⟩, hlegal⟩ := hl
    exact hrule pos hpos hi hlegal
  · exact .refl hd

/-- Settles O10: an operation of the encoder does not reach the source; `SRC_INIT` and `DEC_BEGIN` empty the cache; every
other instruction changes the source by reads alone. -/
theorem operationsKeepCacheMirror : Obligations.OperationsKeepCacheMirror := by
  intro s t i hs hm h
  cases i with
  | snkInit | snkWrite | snkFinal | encBegin | encSample | encEnd => exact onEnc_keeps_mirror hm h
  | srcInit len => exact onDec_keeps_mirror (fun _ _ _ => srcInit_mirrors len) hs hm h
  | decBegin len => exact onDec_keeps_mirror (fun _ _ _ => decBegin_mirrors len) hs hm h
  | srcRdBit => exact onDec_keeps_mirror (fun _ _ hd => (srcRdBit_kept hd).mirrors) hs hm h
  | srcRdBits count => exact onDec_keeps_mirror (fun _ _ hd => (srcRdBits_kept count hd).mirrors) hs hm h
  | decStep => exact onDec_keeps_mirror (fun _ _ hd => (decStep_kept hd).mirrors) hs hm h
  | decNext => exact onDec_keeps_mirror (fun _ _ hd => (decNext_kept hd).mirrors) hs hm h
  | decRun => exact onDec_keeps_mirror (fun _ _ hd => (decRun_kept hd).mirrors) hs hm h
  | decSetExpect en n => exact onDec_keeps_mirror (fun _ _ hd => (decSetExpect_kept en n hd).mirrors) hs hm h
  | cwTag b =>
    exact onDec_keeps_mirror (fun _ _ hd => (onCodeword_kept hd fun _ _ _ _ => stepTag_kept b hd).mirrors) hs hm h
  | cwFirst v =>
    refine onDec_keeps_mirror (fun c d hd => (onCodeword_kept hd fun pos hpos hp _ => ?_).mirrors) hs hm h
    obtain rfl : pos = .first := beq_iff_eq.1 hp
    obtain ⟨hst, -⟩ := codewordPos_eq_first_iff.1 hpos
    exact stepFirst_kept v hd (by rw [hst]; rfl)
  | cwRepeat =>
    refine onDec_keeps_mirror (fun c d hd => (onCodeword_kept hd fun pos hpos hp _ => ?_).mirrors) hs hm h
    have hst := state_of_standsAt_data (fun _ => rfl) hpos hp
    exact stepRepeat_kept hd (by rw [hst]; rfl)
  | cwReuse bits =>
    refine onDec_keeps_mirror (fun c d hd => (onCodeword_kept hd fun pos hpos hp _ => ?_).mirrors) hs hm h
    exact stepReuse_kept bits hd (state_of_standsAt_data (fun _ => rfl) hpos hp)
  | cwNew lead len bits =>
    refine onDec_keeps_mirror (fun c d hd => (onCodeword_kept hd fun pos hpos hp hl => ?_).mirrors) hs hm h
    exact stepNew_kept bits hd (state_of_standsAt_data (fun _ => rfl) hpos hp) (newFits_lead hl)
  | cwPad n => exact onDec_keeps_mirror (fun _ _ hd => (onCodeword_kept hd fun _ _ _ _ => .refl hd).mirrors) hs hm h

/-! ### Raw reads -/

/-- A field of the stream bit by bit: its value's bit `n − 1 − i` is stream bit `i` (R8, R145). -/
theorem getElem?_eq_fieldValue_take {stream : List Bool} {i : Nat} (hn : n ≤ 64) (hlen : n ≤ stream.length)
    (hi : i < n) : stream[i]? = some ((fieldValue (stream.take n)).getLsbD (n - 1 - i)) := by
  have htake : (stream.take n).length = n := List.length_take_of_le hlen
  have hfield : fieldBits (fieldValue (stream.take n)) n = stream.take n := by
    simpa only [htake] using fieldBits_fieldValue (stream.take n) (htake.trans_le hn)
  calc stream[i]? = (stream.take n)[i]? := (List.getElem?_take_of_lt hi).symm
    _ = (fieldBits (fieldValue (stream.take n)) n)[i]? := by rw [hfield]
    _ = _ := by rw [fieldBits_getElem?, if_pos hi]

/-- A raw read of more bits than are left: the error entry, with nothing consumed (R146, R253). -/
theorem rawRead_short {result : Sample → OkResult} (h : (unreadBits d).length < n) :
    rawRead n result d =
      ({ d with err := ⟨.unexpectedEof, .rawRead⟩, state := .done }, .err .unexpectedEof .rawRead) := by
  rw [rawRead, readBits_none_iff.2 h]
  rfl

/-- A raw read of bits that are there consumes them and answers their value (R145). -/
theorem rawRead_read {result : Sample → OkResult} (hd : DecFacts c d) (hn : n ≤ 64) (h : n ≤ (unreadBits d).length) :
    ∃ d', Consumed d d' n ∧ rawRead n result d = (d', .ok (result (fieldValue ((unreadBits d).take n)))) := by
  rcases readBits_cases hn hd.source with ⟨hlt, -⟩ | ⟨d', -, hread, hc, -⟩
  · omega
  · exact ⟨d', hc, by rw [rawRead, hread]⟩

/-- `SRC_RDBIT` in `RAW` (R147). -/
theorem srcRdBit_of_raw (h : d.state = .raw) : srcRdBit c d = rawRead 1 (fun v => .bit (v.getLsbD 0)) d :=
  if_neg (not_not.2 h)

/-- Settles O30: the raw read of one bit, which is the head of the unread part of the stream. -/
theorem srcRdBitAnswersNextBit : Obligations.SrcRdBitAnswersNextBit := by
  intro s hs
  obtain ⟨hwf, -, hd⟩ := (inv_iff s).1 hs
  refine ⟨fun hst => ?_, fun hst hu => ?_, fun b rest hst hu => ?_⟩
  · exact onDec_of_refused hwf (srcRdBit_of_state_ne_raw hst)
  · exact onDec_of_eq hwf ((srcRdBit_of_raw hst).trans (rawRead_short (by simp [hu])))
  · have hlen : 1 ≤ (unreadBits s.dec).length := by simp [hu]
    have hb : (fieldValue ((unreadBits s.dec).take 1)).getLsbD 0 = b := by
      have hhead := getElem?_eq_fieldValue_take (by omega) hlen Nat.zero_lt_one
      rw [hu] at hhead ⊢
      exact (Option.some.inj hhead).symm
    obtain ⟨d, hc, hread⟩ := rawRead_read (result := fun v => .bit (v.getLsbD 0)) hd (by omega) hlen
    rw [hb] at hread
    exact ⟨d, hc, onDec_of_eq hwf ((srcRdBit_of_raw hst).trans hread)⟩

theorem srcRdBits_of_not_legal {count : BitVec 7} (h : d.state ≠ .raw ∨ count.toNat = 0 ∨ count.toNat > 64) :
    srcRdBits count c d = (d, .refused) := if_pos h

/-- `SRC_RDBITS` in `RAW`, for a count from 1 to 64 (R148). -/
theorem srcRdBits_of_legal {count : BitVec 7} (hst : d.state = .raw) (h1 : 1 ≤ count.toNat) (hn : count.toNat ≤ 64) :
    srcRdBits count c d = rawRead count.toNat .value d :=
  if_neg (by simp only [hst, ne_eq, not_true_eq_false, false_or]; omega)

/-- Settles O31: the raw read of `count` bits, whose value holds them bit by bit. -/
theorem srcRdBitsAnswersField : Obligations.SrcRdBitsAnswersField := by
  intro s count hs
  obtain ⟨hwf, -, hd⟩ := (inv_iff s).1 hs
  refine ⟨fun h => ?_, fun hst h1 hn hlt => ?_, fun hst h1 hn hlen => ?_⟩
  · exact onDec_of_refused hwf (srcRdBits_of_not_legal h)
  · exact onDec_of_eq hwf ((srcRdBits_of_legal hst h1 hn).trans (rawRead_short hlt))
  · obtain ⟨d, hc, hread⟩ := rawRead_read (result := .value) hd hn hlen
    have hvalue : (fieldValue ((unreadBits s.dec).take count.toNat)).toNat < 2 ^ count.toNat := by
      simpa only [List.length_take_of_le hlen] using fieldValue_toNat_lt ((unreadBits s.dec).take count.toNat)
    exact ⟨d, _, hc, onDec_of_eq hwf ((srcRdBits_of_legal hst h1 hn).trans hread), hvalue,
      fun i => getElem?_eq_fieldValue_take hn hlen⟩

/-! ### `SRC_INIT` -/

theorem withinCap_iff {cap : Option Nat} : withinCap n cap = true ↔ ∀ k, cap = some k → n ≤ k := by
  cases cap with
  | none => simp [withinCap]
  | some k =>
    simp only [withinCap, Bool.or_eq_true, beq_iff_eq, decide_eq_true_eq, Option.some.injEq, forall_eq']
    omega

/-- Settles O29: the two branches of the rule, by whether the slice lies within `IBUF`. -/
theorem srcInitConstructsSource : Obligations.SrcInitConstructsSource := by
  intro s len hwf
  refine ⟨fun hlen => ?_, fun k hcap hk => ?_⟩
  · exact onDec_of_eq hwf (f := srcInit len) (if_pos (withinCap_iff.2 hlen))
  · have hout : ¬ withinCap len s.cfg.ibufCap = true := fun hin => Nat.not_le.2 hk (withinCap_iff.1 hin k hcap)
    exact onDec_of_refused hwf (f := srcInit len) (if_neg hout)

end Sys2Proof.Machine
end

section
/-! PROOFS of the family `42_encoder`: opening an encode, the reserved value, and where the Window changes. -/

namespace Sys2Proof.Machine

variable {c : Cfg} {e e' : EncChannel} {d : DecChannel} {cw : CwReport} {v delta : Sample}

/-! ### `ENC_BEGIN` -/

/-- `ENC_BEGIN` on the channel: the restart of R256, with the encode's own registers cleared (R160). -/
theorem encBegin_eq (c : Cfg) (e : EncChannel) :
    encBegin c e = ({ restartEnc .active e with count := 0, prev := 0, win := c.initialWindow }, .ok .unit) := rfl

/-- Settles O21: the Window loaded is none in force or the pair of `WINDOW_INIT`, as the definition of `initialWindow`
says. -/
theorem encBeginStartsEncode : Obligations.EncBeginStartsEncode :=
  fun s hwf => onEnc_of_eq hwf (encBegin_eq s.cfg s.enc)

/-! ### `ENC_SAMPLE` -/

/-- The sentinel test comes before any codeword is chosen (R161). -/
theorem encSample_sentinel (hs : e.state = .active) :
    encSample c.sentinel c e = raiseEnc .reservedValueCollision .noCause e := by
  simp [encSample, hs]

/-- Settles O26. -/
theorem encSampleOfSentinelCollides : Obligations.EncSampleOfSentinelCollides :=
  fun _ hwf hs => exec_encSample hwf (encSample_sentinel hs)

/-- Everything `ENC_SAMPLE` can do (R161): refuse, raise, or write one codeword. -/
theorem encSample_cases (v : Sample) (c : Cfg) (e : EncChannel) :
    encSample v c e = (e, .refused) ∨ (∃ kind, encSample v c e = raiseEnc kind .noCause e) ∨
      ∃ e₁ cw, (if e.count = 0 then firstValue c v e else emitDelta c (v ^^^ e.prev) e) = some (e₁, cw) ∧
        encSample v c e = ({ e₁ with prev := v, count := e.count + 1 }, .ok (.codeword cw)) := by
  unfold encSample
  split
  · exact .inl rfl
  · split
    · exact .inr (.inl ⟨_, rfl⟩)
    · split
      · exact .inr (.inr ⟨_, _, ‹_›, rfl⟩)
      · exact .inr (.inl ⟨_, rfl⟩)

/-! ### Which codewords change the Window (R238) -/

theorem firstValue_win (h : firstValue c v e = some (e', cw)) : e'.win = e.win := by
  unfold firstValue at h
  simp only at h
  split at h
  · cases h
    split <;> simp
  · cases h

theorem emitRepeat_win (h : emitRepeat c e = some (e', cw)) : e'.win = e.win := by
  unfold emitRepeat at h
  split_ifs at h
  cases h
  exact writeBits_win ..

theorem reuseWindow_win (h : reuseWindow c delta e = some (e', cw)) : e'.win = e.win := by
  unfold reuseWindow at h
  simp only at h
  split_ifs at h
  cases h
  simp

theorem newWindow_name {lead trail : Nat} (h : newWindow c delta lead trail e = some (e', cw)) : cw.name = .new := by
  unfold newWindow at h
  simp only at h
  split_ifs at h
  cases h
  rfl

/-- Only the `NEW` branch of `emit_delta` touches the Window (R163, R165, R166). -/
theorem emitDelta_win (h : emitDelta c delta e = some (e', cw)) (hname : cw.name ≠ .new) : e'.win = e.win := by
  unfold emitDelta at h
  simp only at h
  split_ifs at h
  · exact emitRepeat_win h
  · exact reuseWindow_win h
  · exact absurd (newWindow_name h) hname

/-- `ENC_SAMPLE` without a `NEW` keeps the Window, whether it is refused, raises or writes another codeword. -/
theorem encSample_win (hnew : ∀ n, (encSample v c e).2 ≠ .ok (.codeword ⟨.new, n⟩)) :
    (encSample v c e).1.win = e.win := by
  rcases encSample_cases v c e with h | ⟨kind, h⟩ | ⟨e₁, cw, hwrote, h⟩
  · rw [h]
  · rw [h, raiseEnc_win]
  · rw [h] at hnew ⊢
    show e₁.win = e.win
    have hname : cw.name ≠ .new := fun hn => hnew cw.bits (by rw [← hn])
    split_ifs at hwrote
    · exact firstValue_win hwrote
    · exact emitDelta_win hwrote hname

/-- `DEC_STEP` outside `NEW_WINDOW` keeps the Window: the rule's own clause, or a refusal. -/
theorem decStep_win (hd : DecFacts c d) (hs : d.state ≠ .newWindow) : (decStep c d).1.win = d.win := by
  unfold decStep
  split_ifs with hr
  · exact (decStepRule_stepped hd hr).window hs
  · rfl

/-- Settles O15: both halves on the channel, carried to the machine. -/
theorem windowChangesOnlyByNew : Obligations.WindowChangesOnlyByNew := by
  refine ⟨fun s t v h hnew => ?_, fun s t hs hst h => ?_⟩
  · obtain ⟨-, rfl⟩ := onEnc_next (f := encSample v) h
    exact encSample_win fun n hn => hnew n (congrArg some hn)
  · obtain ⟨-, -, hdec⟩ := (inv_iff s).1 hs
    obtain ⟨-, rfl⟩ := onDec_next (f := decStep) h
    exact decStep_win hdec hst

end Sys2Proof.Machine
end

section
/-! PROOFS of the family `43_decoder`: `DEC_STEP` state by state, `DEC_NEXT` and `DEC_RUN` as repetitions of it, and the
answers of `decode`. -/

namespace Sys2Proof.Machine

variable {c : Cfg} {d d' : DecChannel} {n : Nat} {s : State}

/-! ### `DEC_BEGIN` and `DEC_SET_EXPECT` -/

/-- The channel at the start of the decode of a slice of `len` bytes (R190). -/
def begunDecode (len : Nat) (c : Cfg) (d : DecChannel) : DecChannel :=
  { restartDec .awaitingFirst len d with count := 0, prev := 0, cur := 0, m := 0, tag := 0, win := c.initialWindow }

theorem decBegin_of_fits {len : Nat} (h : ∀ k, c.ibufCap = some k → len ≤ k) :
    decBegin len c d = (begunDecode len c d, .ok .unit) := if_pos (withinCap_iff.2 h)

theorem decBegin_of_too_long {len k : Nat} (hcap : c.ibufCap = some k) (hk : k < len) :
    decBegin len c d = (d, .refused) :=
  if_neg fun hin => Nat.not_le.2 hk (withinCap_iff.1 hin k hcap)

/-- Settles O32: the two branches of the rule, by whether the slice lies within `IBUF`. -/
theorem decBeginStartsDecode : Obligations.DecBeginStartsDecode := fun _ len hwf =>
  ⟨fun hlen => onDec_of_eq hwf (f := decBegin len) (decBegin_of_fits hlen),
    fun _ hcap hk => onDec_of_refused hwf (f := decBegin len) (decBegin_of_too_long hcap hk)⟩

/-- Settles O46: the rule has one branch. -/
theorem decSetExpectSetsBoth : Obligations.DecSetExpectSetsBoth :=
  fun _ en n hwf => onDec_of_eq hwf (f := decSetExpect en n) rfl

/-! ### `DEC_STEP` is the rule of its state -/

theorem exec_decStep (hwf : s.cfg.wf = true) (hr : s.dec.state.running = true) :
    exec .decStep s =
      .next (s.setDec (decStepRule s.cfg s.dec).1 (stepResponse (decStepRule s.cfg s.dec).2)) :=
  (onDec_eq s decStep hwf).trans (by rw [decStep, if_pos hr])

/-- `DEC_STEP` in a running state, from what the rule of that state answers. -/
theorem exec_decStep_of_rule {st : DecState} {a : StepAnswer} (hwf : s.cfg.wf = true) (hst : s.dec.state = st)
    (hr : st.running = true) (h : decStepRule s.cfg s.dec = (d', a)) :
    exec .decStep s = .next { s with dec := d', resp := some (stepResponse a) } := by
  rw [exec_decStep hwf (hst ▸ hr), h]
  rfl

theorem decStepRule_awaitingFirst (h : d.state = .awaitingFirst) : decStepRule c d = ruleAwaitingFirst c d := by
  rw [decStepRule, h]

theorem decStepRule_repeating (h : d.state = .repeating) : decStepRule c d = ruleRepeat d := by
  rw [decStepRule, h]

theorem decStepRule_reuseWindow (h : d.state = .reuseWindow) : decStepRule c d = ruleReuseWindow d := by
  rw [decStepRule, h]

theorem decStepRule_newWindow (h : d.state = .newWindow) : decStepRule c d = ruleNewWindow c d := by
  rw [decStepRule, h]

theorem decStepRule_meaningfulBits (h : d.state = .readingMeaningfulBits) : decStepRule c d = ruleMeaningfulBits d := by
  rw [decStepRule, h]

theorem decStepRule_checkSentinel (h : d.state = .checkSentinel) : decStepRule c d = ruleCheckSentinel c d := by
  rw [decStepRule, h]

/-! ### The states that read no bit -/

/-- Settles O35: the rule has one branch. -/
theorem decStepRepeat : Obligations.DecStepRepeat :=
  fun _ hwf hst => exec_decStep_of_rule hwf hst rfl (decStepRule_repeating hst)

/-- Settles O36: the two branches of the rule, by whether a Window is in force. -/
theorem decStepReuseWindow : Obligations.DecStepReuseWindow := fun _ hwf hst =>
  ⟨fun hv => exec_decStep_of_rule hwf hst rfl ((decStepRule_reuseWindow hst).trans (ruleReuseWindow_valid hv)),
    fun hv => exec_decStep_of_rule hwf hst rfl ((decStepRule_reuseWindow hst).trans (ruleReuseWindow_invalid hv))⟩

/-- Settles O39: the three ends of the sentinel test. -/
theorem decStepCheckSentinel : Obligations.DecStepCheckSentinel := by
  intro s hwf hst
  have hrule := decStepRule_checkSentinel (c := s.cfg) hst
  refine ⟨fun hv => ?_, fun hv he => ?_, fun hv he hn => ?_⟩
  · exact exec_decStep_of_rule hwf hst rfl (hrule.trans (ruleCheckSentinel_emits hv))
  · exact exec_decStep_of_rule hwf hst rfl (hrule.trans (ruleCheckSentinel_ends hv he))
  · exact exec_decStep_of_rule hwf hst rfl (hrule.trans (ruleCheckSentinel_disagrees hv he hn))

/-! ### The control bits -/

/-- A control bit that is in the stream is consumed, and selects the next state. -/
theorem controlRule_consumes {cause : Cause} {next : Bool → DecState} {b : Bool} {rest : List Bool}
    (hd : sourceOk c d = true) (h : unreadBits d = b :: rest) :
    ∃ d', Consumed d d' 1 ∧ controlRule cause next d = ({ d' with state := next b }, .noSample) := by
  obtain ⟨_, d', hread, hrule⟩ := controlRule_read (cause := cause) (next := next) d.state hd h
  exact ⟨d', readBits_frame hd (by omega) hread, hrule⟩

/-- What R193 and R195 have in common, on the machine. -/
theorem exec_decStep_controlBit {st : DecState} {cause : Cause} {next : Bool → DecState} (hs : Inv s)
    (hst : s.dec.state = st) (hr : st.running = true)
    (hrule : decStepRule s.cfg s.dec = controlRule cause next s.dec) :
    (unreadBits s.dec = [] →
      exec .decStep s = .next { s with
        dec := { s.dec with err := ⟨.unexpectedEof, cause⟩, state := .done }
        resp := some (.err .unexpectedEof cause) }) ∧
    (∀ b rest, unreadBits s.dec = b :: rest →
      ∃ d, Consumed s.dec d 1 ∧
        exec .decStep s = .next { s with dec := { d with state := next b }, resp := some (.ok .noSample) }) := by
  obtain ⟨hwf, -, hd⟩ := (inv_iff s).1 hs
  refine ⟨fun hu => ?_, fun b rest hu => ?_⟩
  · exact exec_decStep_of_rule hwf hst hr (hrule.trans (controlRule_short s.dec.state hu))
  · obtain ⟨d, hc, hbit⟩ := controlRule_consumes (cause := cause) (next := next) hd.source hu
    exact ⟨d, hc, exec_decStep_of_rule hwf hst hr (hrule.trans hbit)⟩

/-- Settles O34: both states are `controlRule`, with their own cause and successors. -/
theorem decStepReadingControlBits : Obligations.DecStepReadingControlBits := by
  intro s hs
  have bitA (hst : s.dec.state = .readingControlA) := exec_decStep_controlBit hs hst rfl (decStepRule_controlA hst)
  have bitB (hst : s.dec.state = .readingControlB) := exec_decStep_controlBit hs hst rfl (decStepRule_controlB hst)
  exact ⟨fun hst => (bitA hst).1, fun a rest hst => (bitA hst).2 a rest,
    fun hst => (bitB hst).1, fun b rest hst => (bitB hst).2 b rest⟩

/-! ### The header of a `NEW` and the meaningful bits -/

/-- R197 as two parts of the stream and what their values do. -/
theorem ruleNewWindow_eq_consume {lead len : Nat} (hd : DecFacts c d)
    (hlead : lead = (fieldValue ((unreadBits d).take c.leadW.bits)).toNat)
    (hlen : len = (fieldValue (((unreadBits d).drop c.leadW.bits).take 6)).toNat) :
    ruleNewWindow c d = consume c.leadW.bits .header (consume 6 .header (acceptHeader lead len)) d := by
  have hb := leadW_bits_le c
  rcases readBits_cases (n := c.leadW.bits) (by omega) hd.source with ⟨-, hread⟩ | ⟨d₁, -, hread, hc, hsrc⟩
  · simp only [ruleNewWindow, consume, hread]
  · rcases readBits_cases (n := 6) (by omega) hsrc with ⟨-, hread'⟩ | ⟨d₂, -, hread', -, -⟩
    · simp only [ruleNewWindow, consume, hread, hread']
    · simp only [ruleNewWindow, consume, hread, hread', hlead, hlen, hc.unread_eq]

/-- Settles O37: the stream ends inside one of the two fields, or the header is read whole and `acceptHeader` decides. -/
theorem decStepNewWindow : Obligations.DecStepNewWindow := by
  intro s lead len hs hst hlead hlen
  obtain ⟨hwf, -, hd⟩ := (inv_iff s).1 hs
  have hb := leadW_bits_le s.cfg
  have hrule := (decStepRule_newWindow hst).trans (ruleNewWindow_eq_consume hd hlead hlen)
  refine ⟨fun hlt => ?_, fun hle hlt => ?_, fun hle => ?_⟩
  · exact exec_decStep_of_rule hwf hst rfl (hrule.trans (consume_short hlt))
  · obtain ⟨d, hshort, hc⟩ := consume_consume_short (cause := .header) (cause' := .header)
      (next := acceptHeader lead len) hd (by omega) hle hlt
    exact ⟨d, hc, exec_decStep_of_rule hwf hst rfl (hrule.trans hshort)⟩
  · obtain ⟨d, hread, hc, -⟩ := consume_consume_read (cause := .header) (cause' := .header)
      (next := acceptHeader lead len) hd (by omega) (by omega) hle
    have hheader := hrule.trans hread
    exact ⟨d, hc, fun hgt => exec_decStep_of_rule hwf hst rfl (hheader.trans (acceptHeader_overruns hgt)),
      fun hfits => exec_decStep_of_rule hwf hst rfl (hheader.trans (acceptHeader_fits hfits))⟩

/-- R198 as one part of the stream and what its value does. -/
theorem ruleMeaningfulBits_eq_consume (hd : DecFacts c d) :
    ruleMeaningfulBits d = consume d.m .bits (acceptBits (fieldValue ((unreadBits d).take d.m))) d := by
  rcases readBits_cases hd.m hd.source with ⟨-, hread⟩ | ⟨d', -, hread, -, -⟩ <;>
    simp only [ruleMeaningfulBits, consume, hread]

/-- Settles O38: the stream ends inside the field, or `acceptBits` takes its value. -/
theorem decStepReadingMeaningfulBits : Obligations.DecStepReadingMeaningfulBits := by
  intro s hs hst
  obtain ⟨hwf, -, hd⟩ := (inv_iff s).1 hs
  have hrule := (decStepRule_meaningfulBits (c := s.cfg) hst).trans (ruleMeaningfulBits_eq_consume hd)
  refine ⟨fun hlt => ?_, fun hle => ?_⟩
  · exact exec_decStep_of_rule hwf hst rfl (hrule.trans (consume_short hlt))
  · obtain ⟨d, hread, hc, -⟩ := consume_read (cause := .bits)
      (next := acceptBits (fieldValue ((unreadBits s.dec).take s.dec.m))) hd hd.m hle
    refine ⟨d, hc, ?_⟩
    rw [← hc.prev_eq, ← hc.win_eq]
    exact exec_decStep_of_rule hwf hst rfl (hrule.trans hread)

/-! ### The start of the stream -/

theorem finishDecode_ends (h : d.expectEn = false ∨ n = d.expect) :
    finishDecode n d = ({ d with state := .done }, .noSample) :=
  if_neg (by rcases h with h | h <;> simp [countDisagrees, h])

theorem finishDecode_disagrees (h : d.expectEn = true) (hn : n ≠ d.expect) :
    finishDecode n d = raiseDec .invariantViolation .noCause d :=
  if_pos (by simp [countDisagrees, h, hn])

/-- An empty slice is an empty sequence (R192). -/
theorem decStepRule_empty (hst : d.state = .awaitingFirst) (hl : d.srcLen = 0) :
    decStepRule c d = finishDecode 0 d :=
  (decStepRule_awaitingFirst hst).trans (if_pos hl)

/-- `DEC_TAG` behind the tag byte, where one is used (R192). -/
def latchedTag (c : Cfg) (d : DecChannel) : Byte :=
  if c.tagEn then (fieldValue ((unreadBits d).take 8)).setWidth 8 else d.tag

/-- A slice that ends inside the tag byte, which is then in use. -/
theorem decStepRule_tag_short (hd : DecFacts c d) (hst : d.state = .awaitingFirst) (hl : d.srcLen ≠ 0)
    (hlt : (unreadBits d).length < 8 * c.tagBytes) : decStepRule c d = raiseDec .unexpectedEof .first d := by
  have ht : c.tagEn = true := by
    by_contra ht
    simp [Cfg.tagBytes, ht] at hlt
  have h8 : (unreadBits d).length < 8 := by simpa [Cfg.tagBytes, ht] using hlt
  rw [← nextRule_of_rank_one hd (by rw [hst]; rfl) (by rw [hst]; rfl), nextRule_tagged hd hst hl ht, stepTag,
    consume_short h8]
  rfl

/-- Behind the tag byte, where one is used, the rule of `AWAITING_FIRST` is the `FIRST` codeword (R192). -/
theorem decStepRule_behind_tag (hd : DecFacts c d) (hst : d.state = .awaitingFirst) (hl : d.srcLen ≠ 0)
    (hlen : 8 * c.tagBytes ≤ (unreadBits d).length) :
    ∃ d₁, Consumed d d₁ (8 * c.tagBytes) ∧ DecFacts c { d₁ with tag := latchedTag c d } ∧
      decStepRule c d = stepFirst (fieldValue (((unreadBits d).drop (8 * c.tagBytes)).take 64))
        { d₁ with tag := latchedTag c d } := by
  rw [← nextRule_of_rank_one hd (by rw [hst]; rfl) (by rw [hst]; rfl)]
  cases ht : c.tagEn with
  | false =>
    have hbytes : c.tagBytes = 0 := by simp [Cfg.tagBytes, ht]
    have hsame : { d with tag := latchedTag c d } = d := by simp [latchedTag, ht]
    refine ⟨d, by rw [hbytes]; exact .refl d, by rwa [hsame], ?_⟩
    rw [nextRule_untagged hd hst hl ht, hsame, hbytes]
    rfl
  | true =>
    have hbytes : c.tagBytes = 1 := by simp [Cfg.tagBytes, ht]
    have hlatch : latchedTag c d = (fieldValue ((unreadBits d).take 8)).setWidth 8 := if_pos ht
    rw [hbytes] at hlen ⊢
    obtain ⟨d₁, htag, hc, hd₁⟩ := consume_read (cause := .first)
      (next := fun d' => (acceptTag ((latchedTag c d).setWidth 64) d', .noSample)) hd (show 8 ≤ 64 by omega) hlen
    have haccept : acceptTag ((latchedTag c d).setWidth 64) d₁ = { d₁ with tag := latchedTag c d } := by
      simp [acceptTag]
    refine ⟨d₁, hc, ⟨hd₁.source, hd₁.window, hd₁.m, hd₁.start, hd₁.counted, hd₁.bits, hd₁.err⟩, ?_⟩
    rw [nextRule_tagged hd hst hl ht, ← hlatch, stepTag, htag, haccept]
    rfl

/-- A read neither reads nor changes `DEC_TAG`. -/
theorem Consumed.of_withTag {t : Byte} (h : Consumed { d with tag := t } d' n) :
    ∃ d'', Consumed d d'' n ∧ d' = { d'' with tag := t } := by
  have ⟨heq, _⟩ := h
  exact ⟨_, h.transfer (d := d) ⟨rfl, rfl, rfl, rfl, rfl, rfl⟩, heq⟩

/-- Settles O33: the empty slice, the tag cut short, and behind the tag the `FIRST` codeword, cut short or whole. -/
theorem decStepAwaitingFirst : Obligations.DecStepAwaitingFirst := by
  intro s hs hst
  obtain ⟨hwf, -, hd⟩ := (inv_iff s).1 hs
  refine ⟨fun hl he hn => ?_, fun hl he => ?_, fun hl hlt => ?_, fun hl hlen => ⟨latchedTag s.cfg s.dec, rfl, ?_⟩⟩
  · exact exec_decStep_of_rule hwf hst rfl ((decStepRule_empty hst hl).trans (finishDecode_disagrees he hn.symm))
  · exact exec_decStep_of_rule hwf hst rfl ((decStepRule_empty hst hl).trans (finishDecode_ends (he.imp_right .symm)))
  · exact exec_decStep_of_rule hwf hst rfl (decStepRule_tag_short hd hst hl hlt)
  · obtain ⟨d₁, hc, hd₁, hrule⟩ := decStepRule_behind_tag hd hst hl hlen
    have hunread : unreadBits { d₁ with tag := latchedTag s.cfg s.dec } = unreadBits d₁ :=
      SameSource.unread ⟨rfl, rfl, rfl, rfl, rfl, rfl⟩
    have hleft := hc.unread_length
    refine ⟨fun hlt => ⟨d₁, hc, fun ht => ?_, ?_⟩, fun v hle hv => ?_⟩
    · have hbytes : 8 * s.cfg.tagBytes = 0 := by simp [Cfg.tagBytes, ht]
      rw [hbytes] at hc
      exact hc.eq_of_zero
    · exact exec_decStep_of_rule hwf hst rfl (hrule.trans (consume_short (by rw [hunread]; omega)))
    · obtain ⟨d₂, hc₂, hfirst⟩ := stepFirst_read v hd₁ (by rw [hunread]; omega)
      obtain ⟨d, hcd, rfl⟩ := hc₂.of_withTag
      rw [← hv, hfirst] at hrule
      exact ⟨d, hc.trans hcd, exec_decStep_of_rule hwf hst rfl hrule⟩

/-! ### `DEC_NEXT` as repeated `DEC_STEP` -/

/-- A rule has brought the decode to an answer, or nearer to one: the rank is now below `bound`, that of the state before
(R201). -/
def EndsOrAdvances (bound : Nat) (r : DecChannel × StepAnswer) : Prop :=
  (r.2 = .noSample → r.1.state = .done) ∨ (r.1.state.running = true ∧ r.1.state.rank < bound)

theorem EndsOrAdvances.raise (bound : Nat) (kind : ErrKind) (cause : Cause) (d : DecChannel) :
    EndsOrAdvances bound (raiseDec kind cause d) := .inl nofun

theorem finishDecode_endsOrAdvances (bound n : Nat) (d : DecChannel) : EndsOrAdvances bound (finishDecode n d) := by
  unfold finishDecode
  split
  · exact .raise ..
  · exact .inl fun _ => rfl

theorem controlRule_endsOrAdvances {bound : Nat} {cause : Cause} {next : Bool → DecState}
    (h : ∀ b, (next b).running = true ∧ (next b).rank < bound) : EndsOrAdvances bound (controlRule cause next d) := by
  unfold controlRule
  split
  · exact .raise ..
  · exact .inr (h _)

theorem ruleAwaitingFirst_endsOrAdvances (bound : Nat) : EndsOrAdvances bound (ruleAwaitingFirst c d) := by
  unfold ruleAwaitingFirst
  split
  · exact finishDecode_endsOrAdvances ..
  · split
    · exact .raise ..
    · split
      · exact .raise ..
      · exact .inl nofun

theorem ruleNewWindow_endsOrAdvances : EndsOrAdvances DecState.newWindow.rank (ruleNewWindow c d) := by
  unfold ruleNewWindow
  split
  · exact .raise ..
  · split
    · exact .raise ..
    · simp only [acceptHeader]
      split
      · exact .raise ..
      · exact .inr (by simp [DecState.running, DecState.rank])

/-- EVERY rule of the decoder, in every running state. Here the channel need not meet its invariant, which
`decStepRule_stepped` asks for and R201 does not. -/
theorem decStepRule_endsOrAdvances (c : Cfg) (hr : d.state.running = true) :
    EndsOrAdvances d.state.rank (decStepRule c d) := by
  cases hst : d.state with
  | idle | done | raw => rw [hst] at hr; cases hr
  | awaitingFirst =>
    rw [decStepRule_awaitingFirst hst]
    exact ruleAwaitingFirst_endsOrAdvances _
  | readingControlA =>
    rw [decStepRule_controlA hst]
    exact controlRule_endsOrAdvances (by decide)
  | repeating =>
    rw [decStepRule_repeating hst]
    exact .inl nofun
  | readingControlB =>
    rw [decStepRule_controlB hst]
    exact controlRule_endsOrAdvances (by decide)
  | reuseWindow =>
    rw [decStepRule_reuseWindow hst]
    cases hv : d.win.valid with
    | true => rw [ruleReuseWindow_valid hv]; exact .inr (by simp [DecState.running, DecState.rank])
    | false => rw [ruleReuseWindow_invalid hv]; exact .raise ..
  | newWindow =>
    rw [decStepRule_newWindow hst]
    exact ruleNewWindow_endsOrAdvances
  | readingMeaningfulBits =>
    rw [decStepRule_meaningfulBits hst, ruleMeaningfulBits]
    split
    · exact .raise ..
    · exact .inr (by simp [acceptBits, DecState.running, DecState.rank])
  | checkSentinel =>
    rw [decStepRule_checkSentinel hst, ruleCheckSentinel]
    split
    · exact finishDecode_endsOrAdvances ..
    · exact .inl nofun

/-- The loop of R201 has turns enough from every running state. -/
theorem nextLoop_succ_of_rank_le {fuel : Nat} (hr : d.state.running = true) (hf : d.state.rank ≤ fuel) :
    nextLoop c (fuel + 1) d = nextLoop c fuel d := by
  induction fuel generalizing d with
  | zero => have := DecState.rank_pos hr; omega
  | succ fuel ih =>
    conv_lhs => rw [nextLoop]
    conv_rhs => rw [nextLoop]
    split
    next hgo =>
      obtain ⟨hno, hne⟩ := hgo
      rcases decStepRule_endsOrAdvances c hr with hend | ⟨hrun, hrank⟩
      · exact absurd (hend hno) hne
      · exact ih hrun (by omega)
    next => rfl

/-- `DEC_NEXT` as one transition and the rest, from every running state (R201). -/
theorem nextRule_unfold_of_running (c : Cfg) (hr : d.state.running = true) :
    nextRule c d = if (decStepRule c d).2 = .noSample ∧ (decStepRule c d).1.state ≠ .done
      then nextRule c (decStepRule c d).1 else decStepRule c d := by
  have h : nextRule c d = nextLoop c 6 d := (nextLoop_succ_of_rank_le hr (DecState.rank_le _)).symm
  rw [h, nextLoop]
  rfl

/-- A rule that answers ends the `DEC_NEXT` that runs it. -/
theorem exec_decNext_of_end {a : StepAnswer} (hwf : s.cfg.wf = true) (hr : s.dec.state.running = true)
    (h : decStepRule s.cfg s.dec = (d', a)) (hend : a = .noSample → d'.state = .done) :
    exec .decNext s = .next (s.setDec d' (nextResponse a)) := by
  rw [exec_decNext hwf hr, nextRule_unfold_of_running s.cfg hr, h, if_neg fun ⟨hno, hne⟩ => hne (hend hno)]

/-- Behind a rule that did not answer, `DEC_NEXT` goes on from the channel it left. -/
theorem exec_decNext_of_advance (hwf : s.cfg.wf = true) (hr : s.dec.state.running = true)
    (h : decStepRule s.cfg s.dec = (d', .noSample)) (hne : d'.state ≠ .done) (r : Response) :
    exec .decNext s = exec .decNext (s.setDec d' r) := by
  have hrun : d'.state.running = true := by
    have hrule := decStepRule_endsOrAdvances s.cfg hr
    rw [h] at hrule
    rcases hrule with hend | ⟨hrun, -⟩
    · exact absurd (hend rfl) hne
    · exact hrun
  rw [exec_decNext hwf hr, nextRule_unfold_of_running s.cfg hr, h, if_pos ⟨rfl, hne⟩]
  exact (exec_decNext (s := s.setDec d' r) hwf hrun).symm

/-- Settles O40: by what the one rule answered. -/
theorem decNextIsRepeatedDecStep : Obligations.DecNextIsRepeatedDecStep := by
  intro s t r hr hstep hresp
  obtain ⟨hwf, -⟩ := onDec_next (f := decStep) hstep
  rw [exec_decStep hwf hr] at hstep
  cases hstep
  cases hresp
  rcases hrule : decStepRule s.cfg s.dec with ⟨d', a⟩
  have hend := exec_decNext_of_end hwf hr hrule
  cases a with
  | sample v => exact ⟨fun _ _ => hend nofun, nofun, nofun, nofun⟩
  | err kind cause => exact ⟨nofun, fun _ _ _ => hend nofun, nofun, nofun⟩
  | noSample =>
    exact ⟨nofun, nofun, fun _ hdone => hend fun _ => hdone, fun _ hne => exec_decNext_of_advance hwf hr hrule hne _⟩

/-! ### `DEC_NEXT` and `DEC_RUN` complete -/

theorem decRun_of_running (h : d.state.running = true) : decRun c d = runLoop c (avail d + 2) [] d := if_pos h

/-- `DEC_RUN` in a running state, from what the loop of R202 answers. -/
theorem exec_decRun_of_loop {r : Response} (hwf : s.cfg.wf = true) (hr : s.dec.state.running = true)
    (h : runLoop s.cfg (avail s.dec + 2) [] s.dec = (d', r)) : exec .decRun s = .next (s.setDec d' r) :=
  (onDec_eq s decRun hwf).trans (by rw [decRun_of_running hr, h])

/-- Settles O41: what the two loops answer, and the frame of a channel whose source has only been read. -/
theorem decNextAndDecRunComplete : Obligations.DecNextAndDecRunComplete := by
  intro s hs hr
  obtain ⟨hwf, -, hd⟩ := (inv_iff s).1 hs
  constructor
  · have hadv := nextRule_advanced hd hr
    obtain ⟨k, htook, -⟩ := hadv.took
    refine ⟨_, exec_decNext hwf hr, ⟨rfl, rfl, rfl, htook.ibuf, htook.epoch, htook.len, hadv.kept⟩, ?_⟩
    rcases hadv.answer with ⟨v, hans, hst, hprev, hcount⟩ | ⟨kind, cause, hans, hst, herr⟩ | ⟨hans, hst, herr, -⟩
    · have hrun : (nextRule s.cfg s.dec).1.state.running = true := by rw [hst]; rfl
      exact .inl ⟨v, by rw [hans]; rfl, hst, hprev, hcount, hadv.facts.noErr hrun⟩
    · exact .inr (.inr ⟨kind, cause, by rw [hans]; rfl, hst, herr⟩)
    · exact .inr (.inl ⟨by rw [hans]; rfl, hst, herr⟩)
  · obtain ⟨-, ⟨k, htook⟩, hst, hkept, hans⟩ := runLoop_spec (out := []) hd hr (runBound_le s.dec)
    refine ⟨_, exec_decRun_of_loop hwf hr rfl, ⟨rfl, rfl, rfl, htook.ibuf, htook.epoch, htook.len, hkept⟩, hst, ?_⟩
    rcases hans with ⟨vs, hvs, herr, hcount⟩ | ⟨kind, cause, hlatched, herr, -⟩
    · exact .inl ⟨vs, congrArg some hvs, herr, hcount⟩
    · exact .inr ⟨kind, cause, congrArg some hlatched, herr⟩

/-! ### `DEC_RUN` as repeated `DEC_NEXT` -/

theorem runLoop_of_end {f : Nat} {out : List Sample} (h : nextRule c d = (d', .noSample)) :
    runLoop c (f + 1) out d = (d', .ok (.samples out)) := by
  rw [runLoop, h]

theorem runLoop_of_err {f : Nat} {out : List Sample} {kind : ErrKind} {cause : Cause}
    (h : nextRule c d = (d', .err kind cause)) : runLoop c (f + 1) out d = (d', .err kind cause) := by
  rw [runLoop, h]

/-- `DEC_RUN` behind a `DEC_NEXT` that emitted a sample: the same run from there, the sample collected (R202). -/
theorem runLoop_of_sample {v : Sample} (hd : DecFacts c d) (hr : d.state.running = true)
    (h : nextRule c d = (d', .sample v)) :
    runLoop c (avail d + 2) [] d = runLoop c (avail d' + 2) [v] d' := by
  obtain ⟨hd', hst, hbound⟩ := runBound_sample hd hr h
  have hle := runBound_le d
  calc runLoop c (avail d + 2) [] d = runLoop c (avail d + 1) [v] d' := by rw [runLoop, h]; rfl
    _ = runLoop c (avail d' + 2) [v] d' := runLoop_fuel hd' (by rw [hst]; rfl) (by omega) (runBound_le d')

/-- The samples already collected stand in front of those of the run. -/
theorem runLoop_out_samples {f : Nat} {out vs : List Sample} (h : runLoop c f [] d = (d', .ok (.samples vs))) :
    runLoop c f out d = (d', .ok (.samples (out ++ vs))) := by
  rw [runLoop_out, h]

theorem runLoop_out_err {f : Nat} {out : List Sample} {kind : ErrKind} {cause : Cause}
    (h : runLoop c f [] d = (d', .err kind cause)) : runLoop c f out d = (d', .err kind cause) := by
  rw [runLoop_out, h]

/-- Settles O42: the first turn of the loop, and behind a sample the same run from where it left the channel. -/
theorem decRunIsRepeatedDecNext : Obligations.DecRunIsRepeatedDecNext := by
  intro s t r hs hr hnext hresp
  obtain ⟨hwf, -, hd⟩ := (inv_iff s).1 hs
  rw [exec_decNext hwf hr] at hnext
  cases hnext
  cases hresp
  rcases hrule : nextRule s.cfg s.dec with ⟨d', a⟩
  cases a with
  | err kind cause => exact ⟨fun _ _ _ => exec_decRun_of_loop hwf hr (runLoop_of_err hrule), nofun, nofun⟩
  | noSample => exact ⟨nofun, fun _ => exec_decRun_of_loop hwf hr (runLoop_of_end hrule), nofun⟩
  | sample v =>
    refine ⟨nofun, nofun, fun w hw => ?_⟩
    cases hw
    obtain ⟨hd', hst, -⟩ := runBound_sample hd hr hrule
    have hr' : d'.state.running = true := by rw [hst]; rfl
    have hrun := runLoop_of_sample hd hr hrule
    obtain ⟨-, -, -, -, hans⟩ := runLoop_spec (out := []) hd' hr' (runBound_le d')
    rcases hrest : runLoop s.cfg (avail d' + 2) [] d' with ⟨d'', r⟩
    rw [hrest] at hans
    refine ⟨_, exec_decRun_of_loop (s := s.setDec d' _) hwf hr' hrest, ?_⟩
    rcases hans with ⟨vs, rfl, -⟩ | ⟨kind, cause, rfl, -⟩
    · exact .inl ⟨vs, rfl, exec_decRun_of_loop hwf hr (hrun.trans (runLoop_out_samples hrest))⟩
    · exact .inr ⟨kind, cause, rfl, exec_decRun_of_loop hwf hr (hrun.trans (runLoop_out_err hrest))⟩

/-! ### `decode` -/

/-- A decoder operation that the host issues, from what it does to its channel. -/
theorem issue_onDec {i : Instr} {f : Cfg → DecChannel → DecChannel × Response} {r : Response}
    (hi : ∀ s, exec i s = onDec f s) (hwf : s.cfg.wf = true) (h : f s.cfg s.dec = (d', r)) :
    issue i s = some (s.setDec d' r, r) := by
  rw [issue, hi, onDec_eq s f hwf, h]
  rfl

theorem Memory.ofBytes_below {cap : Option Nat} {bs : List Byte} {a : Nat} (h : ∀ k, cap = some k → a + bs.length ≤ k) :
    (Memory.ofBytes a bs).below cap = true := by
  cases cap with
  | none => rfl
  | some k =>
    have hk := h k rfl
    clear h
    induction bs generalizing a with
    | nil => rfl
    | cons b bs ih =>
      rw [List.length_cons] at hk
      have htail := ih (a := a + 1) (by omega)
      simp only [Memory.below, Memory.ofBytes, List.all_cons, Bool.and_eq_true, decide_eq_true_eq] at htail ⊢
      exact ⟨by omega, htail⟩

/-- A decode begins with the invariant, whatever the channel held before but for `IBUF` (R190). -/
theorem begunDecode_facts {len : Nat} (hwf : c.wf = true) (hmem : d.ibuf.wf = true)
    (hbelow : d.ibuf.below c.ibufCap = true) (hlen : ∀ k, c.ibufCap = some k → len ≤ k) :
    DecFacts c (begunDecode len c d) where
  source := sourceOk_of_empty hmem hbelow (withinCap_iff.2 hlen) rfl rfl rfl
  window := initialWindow_ok hwf
  m := Nat.zero_le _
  start := fun _ => rfl
  counted := fun _ hne => absurd rfl hne
  bits := nofun
  err := .inl rfl

/-- The channel from which `decode` runs: the buffer in `IBUF`, the decode begun (R203). -/
def decodeStart (buffer : List Byte) (s : State) : DecChannel :=
  begunDecode buffer.length s.cfg (loadIbuf buffer s).dec

theorem decodeStart_facts {buffer : List Byte} (hwf : s.cfg.wf = true)
    (hlen : ∀ k, s.cfg.ibufCap = some k → buffer.length ≤ k) : DecFacts s.cfg (decodeStart buffer s) :=
  begunDecode_facts hwf (Memory.ofBytes_wf buffer 0)
    (Memory.ofBytes_below fun k hk => by rw [Nat.zero_add]; exact hlen k hk) hlen

theorem issue_decBegin_of_fits {buffer : List Byte} (hwf : s.cfg.wf = true)
    (hlen : ∀ k, s.cfg.ibufCap = some k → buffer.length ≤ k) :
    issue (.decBegin buffer.length) (loadIbuf buffer s) =
      some ((loadIbuf buffer s).setDec (decodeStart buffer s) (.ok .unit), .ok .unit) := by
  have hbegin : decBegin buffer.length s.cfg (loadIbuf buffer s).dec = (decodeStart buffer s, .ok .unit) :=
    decBegin_of_fits hlen
  exact issue_onDec (f := decBegin buffer.length) (fun _ => rfl) hwf hbegin

theorem issue_decRun_of_loop {r : Response} (hwf : s.cfg.wf = true) (hr : s.dec.state.running = true)
    (h : runLoop s.cfg (avail s.dec + 2) [] s.dec = (d', r)) : issue .decRun s = some (s.setDec d' r, r) :=
  issue_onDec (f := decRun) (fun _ => rfl) hwf ((decRun_of_running hr).trans h)

section Decode

variable {buffer : List Byte}

/-- `decode` of a buffer that fits `IBUF` answers the samples of the run (R203). -/
theorem decode_of_samples {vs : List Sample} (hwf : s.cfg.wf = true)
    (hlen : ∀ k, s.cfg.ibufCap = some k → buffer.length ≤ k)
    (h : runLoop s.cfg (avail (decodeStart buffer s) + 2) [] (decodeStart buffer s) = (d', .ok (.samples vs))) :
    decode buffer s = some (.ok vs) := by
  have hrun := issue_decRun_of_loop (s := (loadIbuf buffer s).setDec (decodeStart buffer s) (.ok .unit)) hwf rfl h
  simp [decode, issue_decBegin_of_fits hwf hlen, hrun]

/-- Or it fails with the kind of the error that ends the run. -/
theorem decode_of_err {kind : ErrKind} {cause : Cause} (hwf : s.cfg.wf = true)
    (hlen : ∀ k, s.cfg.ibufCap = some k → buffer.length ≤ k)
    (h : runLoop s.cfg (avail (decodeStart buffer s) + 2) [] (decodeStart buffer s) = (d', .err kind cause)) :
    decode buffer s = some (.error kind) := by
  have hrun := issue_decRun_of_loop (s := (loadIbuf buffer s).setDec (decodeStart buffer s) (.ok .unit)) hwf rfl h
  simp [decode, issue_decBegin_of_fits hwf hlen, hrun]

end Decode

/-- Settles O60: the run from the start, which begins with the invariant. -/
theorem decodeOfAnyBytesAnswers : Obligations.DecodeOfAnyBytesAnswers := by
  intro s buffer hwf hlen
  have hd := decodeStart_facts hwf hlen
  obtain ⟨-, -, -, -, hans⟩ := runLoop_spec (out := []) hd rfl (runBound_le (decodeStart buffer s))
  rcases hrun : runLoop s.cfg (avail (decodeStart buffer s) + 2) [] (decodeStart buffer s) with ⟨d', r⟩
  rw [hrun] at hans
  rcases hans with ⟨vs, rfl, -⟩ | ⟨kind, cause, rfl, -, rfl | ⟨rfl, hen⟩⟩
  · exact .inl ⟨vs, decode_of_samples hwf hlen hrun⟩
  · exact .inr (.inl (decode_of_err hwf hlen hrun))
  · exact .inr (.inr ⟨hen, decode_of_err hwf hlen hrun⟩)

end Sys2Proof.Machine
end

section
/-! PROOFS of the family `44_codec_properties`: the encoded stream of a sequence, and that the encoder writes it. -/

namespace Sys2Proof.Machine

variable {c : Cfg} {e e' : EncChannel} {cw : CwReport} {v delta : Sample} {n : Nat} {s t : State} {vs : List Sample}

/-! ### The stream of a sequence -/

/-- The bits of a codeword that stands for a delta under the Window `w`, and the Window behind it (R163 to R166). Where
both a `REUSE` and a `NEW` can hold the delta, either may stand there: the decoder reads both (R101). -/
inductive DeltaCode (c : Cfg) (w : Window) (delta : Sample) : List Bool → Window → Prop
  | repeated (zero : delta = 0) : DeltaCode c w delta [false] w
  | reuse (ne : delta ≠ 0) (valid : w.valid = true) (lead_le : w.lead ≤ clampedLead c delta)
      (trail_le : w.trail ≤ ctz64 delta) : DeltaCode c w delta (reuseBits w delta) w
  | new (ne : delta ≠ 0) : DeltaCode c w delta (newBits c (clampedLead c delta) (ctz64 delta) delta)
      ⟨true, clampedLead c delta, ctz64 delta⟩

/-- The stream behind a sample `prev` and under a Window: a codeword for each further sample, then the terminal one,
whose delta leads to `SENTINEL` (R168). -/
inductive DataStream (c : Cfg) : Sample → Window → List Sample → List Bool → Prop
  | terminal {prev : Sample} {w w' : Window} {bits : List Bool} (prev_ne : prev ≠ c.sentinel)
      (code : DeltaCode c w (c.sentinel ^^^ prev) bits w') : DataStream c prev w [] bits
  | sample {prev v : Sample} {w w' : Window} {vs : List Sample} {bits rest : List Bool} (ne : v ≠ c.sentinel)
      (code : DeltaCode c w (v ^^^ prev) bits w') (tail : DataStream c v w' vs rest) :
      DataStream c prev w (v :: vs) (bits ++ rest)

/-- The bytes hold the stream of the sequence `v :: vs` from the start, and behind it the bits that fill the last byte
(R92, R100). -/
def IsEncoding (c : Cfg) (v : Sample) (vs : List Sample) (bytes : List Byte) : Prop :=
  ∃ data pad, DataStream c v c.initialWindow vs data ∧
    bytes.flatMap byteBits = (firstBits c v ++ data) ++ pad ∧ pad.length < 8

/-! ### The bytes of `OBUF` as stream bits -/

/-- Byte after byte, most significant bit first, is stream bit after stream bit (R8). -/
theorem flatMap_byteBits_range (f : Nat → Byte) (n : Nat) :
    (List.range n).flatMap (fun a => byteBits (f a)) = (List.range (8 * n)).map (streamBit f) := by
  induction n with
  | zero => rfl
  | succ n ih =>
    have hbyte : byteBits (f n) = (List.range 8).map fun i => streamBit f (8 * n + i) := by
      apply List.ext_getElem?
      intro i
      rw [byteBits_getElem?, List.getElem?_map]
      by_cases hi : i < 8
      · simp [hi, streamBit, show (8 * n + i) / 8 = n by omega, show i % 8 = i by omega]
      · simp [hi]
    rw [List.range_succ, List.flatMap_append, ih, List.flatMap_singleton, hbyte, Nat.mul_succ, List.range_add,
      List.map_append, List.map_map]
    rfl

/-- The defined bytes of `OBUF` are the bits written and fewer than 8 more (R26). -/
theorem obufBytes_bits (e : EncChannel) :
    ∃ pad, (obufBytes e).flatMap byteBits = writtenBits e ++ pad ∧ pad.length < 8 := by
  obtain ⟨k, hlen, hk⟩ : ∃ k, 8 * snkLen e = e.wbits + k ∧ k < 8 :=
    ⟨8 * snkLen e - e.wbits, by unfold snkLen; omega, by unfold snkLen; omega⟩
  refine ⟨(List.range k).map fun i => streamBit (obufByte e) (e.wbits + i), ?_, by simpa using hk⟩
  rw [obufBytes, List.flatMap_map, flatMap_byteBits_range, hlen, List.range_add, List.map_append, List.map_map]
  rfl

/-! ### An `encode` that answers `Ok` has written the stream -/

theorem emitDelta_deltaCode (hp : paddingZero e = true) (h : emitDelta c delta e = some (e', cw)) :
    ∃ bits, DeltaCode c e.win delta bits e'.win ∧ writtenBits e' = writtenBits e ++ bits ∧ paddingZero e' = true := by
  rcases emitDelta_spec (c := c) (delta := delta) hp with hnone | ⟨e₁, w, cw₁, bits, hsome, hw, -, hcases⟩
  · cases hnone.symm.trans h
  · cases hsome.symm.trans h
    refine ⟨bits, ?_, (writtenBits_congr rfl rfl rfl).trans hw.written,
      (paddingZero_congr rfl rfl rfl).trans hw.padding⟩
    rcases hcases with ⟨hzero, rfl, -, rfl⟩ | ⟨hne, rfl, -, hv, hl, ht, rfl⟩ | ⟨hne, rfl, -, rfl⟩
    · exact .repeated hzero
    · exact .reuse hne hv hl ht
    · exact .new hne

/-- Behind the first sample, the loop of R168 and the `ENC_END` after it write the stream of the samples. -/
theorem sampleLoop_dataStream {r : OkResult} (hwf : s.cfg.wf = true) (hp : paddingZero s.enc = true)
    (hc : s.enc.count ≠ 0) (hprev : s.enc.prev ≠ s.cfg.sentinel) (hloop : sampleLoop vs s = some (t, none))
    (hend : encEnd s.cfg t.enc = (e, .ok r)) :
    ∃ bits, DataStream s.cfg s.enc.prev s.enc.win vs bits ∧ writtenBits e = writtenBits s.enc ++ bits := by
  induction vs generalizing s with
  | nil =>
    cases hloop
    obtain ⟨e₁, cw, hem, rfl⟩ := encEnd_ok hc hend
    obtain ⟨bits, hcode, hwritten, -⟩ := emitDelta_deltaCode hp hem
    exact ⟨bits, .terminal hprev hcode, (writtenBits_congr rfl rfl rfl).trans hwritten⟩
  | cons v vs ih =>
    obtain ⟨e₁, r₁, hsample, hrest⟩ := sampleLoop_cons_ok hwf hloop
    obtain ⟨-, hv, e₂, cw, hem, rfl⟩ := encSample_ok hsample
    rw [if_neg hc] at hem
    obtain ⟨bits, hcode, hwritten, hpad⟩ := emitDelta_deltaCode hp hem
    obtain ⟨rest, htail, hall⟩ := ih (s := s.setEnc { e₂ with prev := v, count := s.enc.count + 1 } (.ok r₁)) hwf
      ((paddingZero_congr rfl rfl rfl).trans hpad) (Nat.succ_ne_zero _) hv hrest hend
    refine ⟨bits ++ rest, .sample hv hcode htail, hall.trans ?_⟩
    have hsame : writtenBits { e₂ with prev := v, count := s.enc.count + 1 } = writtenBits e₂ :=
      writtenBits_congr rfl rfl rfl
    rw [State.setEnc_enc, hsame, hwritten, List.append_assoc]

theorem encode_isEncoding {bytes : List Byte} (hwf : s.cfg.wf = true)
    (h : encode (v :: vs) s = some (.ok bytes)) : IsEncoding s.cfg v vs bytes := by
  obtain ⟨t, e, r, hloop, hend, rfl⟩ := encode_ok hwf h
  obtain ⟨e₁, r₁, hfirst, hrest⟩ := sampleLoop_cons_ok (s := s.setEnc _ _) hwf hloop
  obtain ⟨-, hv, e₂, cw, hem, rfl⟩ := encSample_ok hfirst
  have hpad : paddingZero (encBegin s.cfg s.enc).1 = true := by simp [paddingZero_iff, encBegin, padCount]
  have hem : firstValue s.cfg v (encBegin s.cfg s.enc).1 = some (e₂, cw) := hem
  rcases firstValue_spec (c := s.cfg) (v := v) hpad with ⟨-, hnone⟩ | ⟨e₃, -, hsome, hw⟩
  · cases hnone.symm.trans hem
  cases hsome.symm.trans hem
  obtain ⟨data, hdata, hall⟩ := sampleLoop_dataStream (s := State.setEnc _ { e₂ with prev := v, count := _ } _) hwf
    ((paddingZero_congr rfl rfl rfl).trans hw.padding) (Nat.succ_ne_zero _) hv hrest hend
  have hwin : e₂.win = s.cfg.initialWindow := hw.win_eq
  have hwritten : writtenBits e = firstBits s.cfg v ++ data := by
    rw [hall]
    exact congrArg (· ++ data) ((writtenBits_congr rfl rfl rfl).trans hw.written)
  obtain ⟨pad, hbytes, hlt⟩ := obufBytes_bits e
  exact ⟨data, pad, hwin ▸ hdata, hwritten ▸ hbytes, hlt⟩

/-! ### A sink with room -/

/-- A running encode whose sink has room for `n` more samples and the terminal codeword, each at its longest: the first
sample whole and behind the tag, every other codeword a `NEW` of 64 meaningful bits (R291). -/
structure RoomFor (c : Cfg) (n : Nat) (e : EncChannel) : Prop where
  active : e.state = .active
  room : fits c e ((if e.count = 0 then 64 + 8 * c.tagBytes else c.leadW.bits + 72) + (c.leadW.bits + 72) * n) = true

/-- The first sample is written whole, and no more than it and its tag. -/
theorem firstValue_room (hf : fits c e (64 + 8 * c.tagBytes) = true) :
    ∃ e' cw, firstValue c v e = some (e', cw) ∧ e'.state = e.state ∧ e'.wbits = e.wbits + (64 + 8 * c.tagBytes) := by
  refine ⟨_, _, if_pos hf, ?_, ?_⟩
  · cases c.tagEn <;> simp
  · cases h : c.tagEn <;> simp [Cfg.tagBytes, h, Nat.add_assoc]

theorem encSample_roomFor (h : RoomFor c (n + 1) e) (hv : v ≠ c.sentinel) :
    ∃ e' r, encSample v c e = (e', .ok r) ∧ RoomFor c n e' := by
  have hroom := h.room
  rw [Nat.mul_succ] at hroom
  by_cases hc : e.count = 0
  · rw [if_pos hc] at hroom
    obtain ⟨e₁, cw, hem, hst, hbits⟩ := firstValue_room (e := e) (v := v) (fits_mono hroom (by omega))
    refine ⟨_, _, encSample_first h.active hc hv hem, hst.trans h.active, ?_⟩
    rw [if_neg (Nat.succ_ne_zero _)]
    exact fits_mono hroom (by show e₁.wbits + _ ≤ _; omega)
  · rw [if_neg hc] at hroom
    obtain ⟨e₁, cw, hem, hst, hbits⟩ := emitDelta_room (e := e) (delta := v ^^^ e.prev) (fits_mono hroom (by omega))
    refine ⟨_, _, encSample_later h.active hc hv hem, hst.trans h.active, ?_⟩
    rw [if_neg (Nat.succ_ne_zero _)]
    exact fits_mono hroom (by show e₁.wbits + _ ≤ _; omega)

theorem encEnd_roomFor (h : RoomFor c 0 e) : ∃ e' r, encEnd c e = (e', .ok r) := by
  by_cases hc : e.count = 0
  · exact ⟨_, _, encEnd_empty h.active hc⟩
  · have hroom := h.room
    rw [if_neg hc] at hroom
    obtain ⟨e₁, cw, hem, -⟩ := emitDelta_room (delta := c.sentinel ^^^ e.prev) hroom
    exact ⟨_, _, encEnd_terminal h.active hc hem⟩

/-- The loop of R168 goes on behind a sample that was taken. -/
theorem sampleLoop_cons_of_ok {r : OkResult} (hwf : s.cfg.wf = true) (h : encSample v s.cfg s.enc = (e, .ok r)) :
    sampleLoop (v :: vs) s = sampleLoop vs (s.setEnc e (.ok r)) := by
  rw [sampleLoop, issue_onEnc (f := encSample v) (fun _ => rfl) hwf, h]

/-- The loop of R168 stops at a sample that raises. -/
theorem sampleLoop_cons_of_err {kind : ErrKind} {cause : Cause} (hwf : s.cfg.wf = true)
    (h : encSample v s.cfg s.enc = (e, .err kind cause)) :
    sampleLoop (v :: vs) s = some (s.setEnc e (.err kind cause), some kind) := by
  rw [sampleLoop, issue_onEnc (f := encSample v) (fun _ => rfl) hwf, h]

theorem sampleLoop_roomFor (hwf : s.cfg.wf = true) (hvs : s.cfg.sentinel ∉ vs)
    (h : RoomFor s.cfg vs.length s.enc) : ∃ t, sampleLoop vs s = some (t, none) ∧ RoomFor s.cfg 0 t.enc := by
  induction vs generalizing s with
  | nil => exact ⟨s, rfl, h⟩
  | cons v vs ih =>
    obtain ⟨hv, hvs⟩ := not_or.1 (mt List.mem_cons.2 hvs)
    obtain ⟨e, r, hsample, hroom⟩ := encSample_roomFor h (Ne.symm hv)
    rw [sampleLoop_cons_of_ok hwf hsample]
    exact ih (s := s.setEnc e (.ok r)) hwf hvs hroom

/-- With room for every sample before it, the reserved value is met, and ends the loop (R161). -/
theorem sampleLoop_of_sentinel_mem (hwf : s.cfg.wf = true) (hvs : s.cfg.sentinel ∈ vs)
    (h : RoomFor s.cfg vs.length s.enc) : ∃ t, sampleLoop vs s = some (t, some .reservedValueCollision) := by
  induction vs generalizing s with
  | nil => cases hvs
  | cons v vs ih =>
    by_cases hv : v = s.cfg.sentinel
    · subst hv
      exact ⟨_, sampleLoop_cons_of_err hwf (encSample_sentinel h.active)⟩
    · obtain ⟨e, r, hsample, hroom⟩ := encSample_roomFor h hv
      rw [sampleLoop_cons_of_ok hwf hsample]
      exact ih (s := s.setEnc e (.ok r)) hwf ((List.mem_cons.1 hvs).resolve_left (Ne.symm hv)) hroom

/-- A sink that holds the bound of R291 for a sequence has room for it when the encode begins. -/
theorem roomFor_encBegin
    (h : ∀ k, c.obufCap = some k → (8 * c.tagBytes + 64 + (c.leadW.bits + 72) * n + 7) / 8 ≤ k) :
    RoomFor c n (encBegin c e).1 where
  active := rfl
  room := (fits_iff _ _ _).2 fun k hk => by
    have := h k hk
    show (0 + (64 + 8 * c.tagBytes + (c.leadW.bits + 72) * n) + 7) / 8 ≤ k
    omega

/-! ### `encode` from its loop -/

theorem issue_encBegin (hwf : s.cfg.wf = true) :
    issue .encBegin s = some (s.setEnc (encBegin s.cfg s.enc).1 (.ok .unit), .ok .unit) :=
  issue_onEnc (f := encBegin) (fun _ => rfl) hwf

theorem encode_of_failed {kind : ErrKind} (hwf : s.cfg.wf = true)
    (h : sampleLoop vs (s.setEnc (encBegin s.cfg s.enc).1 (.ok .unit)) = some (t, some kind)) :
    encode vs s = some (.error kind) := by
  simp [encode, issue_encBegin hwf, h]

theorem encode_of_end {r : OkResult} (hwf : s.cfg.wf = true)
    (h : sampleLoop vs (s.setEnc (encBegin s.cfg s.enc).1 (.ok .unit)) = some (t, none))
    (hend : encEnd s.cfg t.enc = (e, .ok r)) : encode vs s = some (.ok (obufBytes e)) := by
  have hcfg : t.cfg = s.cfg := (sampleLoop_keeps_cfg h).trans rfl
  have hissue : issue .encEnd t = some (t.setEnc e (.ok r), .ok r) := by
    rw [issue_onEnc (f := encEnd) (fun _ => rfl) (hcfg ▸ hwf), hcfg, hend]
  simp [encode, issue_encBegin hwf, h, hissue]

theorem encode_of_room (hwf : s.cfg.wf = true) (hvs : s.cfg.sentinel ∉ vs)
    (hcap : ∀ k, s.cfg.obufCap = some k →
      (8 * s.cfg.tagBytes + 64 + (s.cfg.leadW.bits + 72) * vs.length + 7) / 8 ≤ k) :
    ∃ bytes, encode vs s = some (.ok bytes) := by
  obtain ⟨t, hloop, hroom⟩ := sampleLoop_roomFor (s := s.setEnc (encBegin s.cfg s.enc).1 (.ok .unit)) hwf hvs
    (roomFor_encBegin hcap)
  obtain ⟨e, r, hend⟩ := encEnd_roomFor hroom
  exact ⟨_, encode_of_end hwf hloop hend⟩

/-- Settles O57: the samples before the reserved value fit the sink, and the reserved value ends the loop. -/
theorem encodeOfSentinelCollides : Obligations.EncodeOfSentinelCollides := by
  intro s values hwf hmem hcap
  obtain ⟨t, hloop⟩ := sampleLoop_of_sentinel_mem (s := s.setEnc (encBegin s.cfg s.enc).1 (.ok .unit)) hwf hmem
    (roomFor_encBegin hcap)
  exact encode_of_failed hwf hloop

end Sys2Proof.Machine
end

section
/-! PROOFS of the family `44_codec_properties`: the decoder reads the stream of a sequence back, and raises where it is
cut short. -/

namespace Sys2Proof

/-! ### No codeword is the beginning of another -/

section CutShort

variable {c : Cfg} {w : Window} {i : Instr} {bits stream rest : List Bool}

/-- A codeword of a data position is read back from its bits (R91). -/
theorem decodeData_dataCodeword (rest : List Bool) (hw : Machine.windowOk c w = true) (h : DataCodeword c w i bits) :
    decodeCodeword c w .data (bits ++ rest) = .ok (i, rest) := by
  cases h with
  | repeated => rfl
  | reuse hv hlt =>
    exact codewordDecodeInvertsEncode _ _ _ _ _ rest rfl (wf_cwReuse_iff.2 ⟨hv, Machine.windowOk_width hw hv, hlt⟩) rfl
  | new hlead hle hlt => exact codewordDecodeInvertsEncode _ _ _ _ _ rest rfl (wf_cwNew_iff.2 ⟨hlead, hle, hlt⟩) rfl

/-- A codeword cut short is no codeword: one read from its beginning would be read from the whole of it too. -/
theorem decodeData_cut (hw : Machine.windowOk c w = true) (h : DataCodeword c w i (stream ++ rest)) (hne : rest ≠ []) :
    ∃ why, decodeCodeword c w .data stream = .error why := by
  rcases hdec : decodeCodeword c w .data stream with why | ⟨j, left⟩
  · exact ⟨why, rfl⟩
  · obtain ⟨bits, hdata, rfl⟩ := decodeData_ok hdec
    have hwhole := decodeData_dataCodeword [] hw h
    have hbegin := decodeData_dataCodeword (left ++ rest) hw hdata
    rw [List.append_nil, List.append_assoc, hbegin] at hwhole
    cases hnil : left ++ rest with
    | nil => exact absurd (List.append_eq_nil_iff.1 hnil).2 hne
    | cons b bs => rw [hnil] at hwhole; cases hwhole

end CutShort

end Sys2Proof

namespace Sys2Proof.Machine

variable {c : Cfg} {d d' : DecChannel} {v delta prev : Sample} {w w' : Window} {bits data stream rest : List Bool}
  {vs : List Sample} {bytes : List Byte} {s : State} {i : Instr} {n : Nat}

/-! ### The codeword of a delta -/

/-- The two counts of a `NEW` in their fields of six bits, and the bounds of the counts they come from (R97, R166). -/
theorem newFields_toNat (hne : delta ≠ 0) :
    (BitVec.ofNat 6 (clampedLead c delta)).toNat = clampedLead c delta ∧
      (BitVec.ofNat 6 (64 - clampedLead c delta - ctz64 delta - 1)).toNat + 1 = 64 - clampedLead c delta - ctz64 delta ∧
      clampedLead c delta ≤ c.leadMax ∧ clampedLead c delta ≤ clz64 delta ∧ clampedLead c delta + ctz64 delta ≤ 63 := by
  have hsum := clz64_add_ctz64_le hne
  have hmin : clampedLead c delta = min (clz64 delta) c.leadMax := rfl
  simp only [BitVec.toNat_ofNat]
  omega

theorem setWidth_ofNat_six (h : n < 64) : (BitVec.ofNat 6 n).setWidth 64 = BitVec.ofNat 64 n := by
  apply BitVec.eq_of_toNat_eq
  rw [toNat_setWidth_of_six, BitVec.toNat_ofNat, BitVec.toNat_ofNat]
  omega

theorem reuseBits_dataCodeword (hne : delta ≠ 0) (hv : w.valid = true) (hl : w.lead ≤ clampedLead c delta) :
    DataCodeword c w (.cwReuse (meaningfulBits delta w.trail)) (reuseBits w delta) :=
  .reuse hv (meaningfulBits_lt (getLsbD_of_le_clz64 hne (hl.trans (Nat.min_le_left _ _))))

theorem newBits_dataCodeword (hne : delta ≠ 0) :
    DataCodeword c w (.cwNew (BitVec.ofNat 6 (clampedLead c delta))
        (BitVec.ofNat 6 (64 - clampedLead c delta - ctz64 delta - 1)) (meaningfulBits delta (ctz64 delta)))
      (newBits c (clampedLead c delta) (ctz64 delta) delta) := by
  obtain ⟨hlead, hlen, hmax, hclz, hsum⟩ := newFields_toNat (c := c) hne
  have hcode := DataCodeword.new (c := c) (w := w) (lead := BitVec.ofNat 6 (clampedLead c delta))
    (len := BitVec.ofNat 6 (64 - clampedLead c delta - ctz64 delta - 1)) (bits := meaningfulBits delta (ctz64 delta))
    (by rwa [hlead]) (by omega) (by rw [hlen]; exact meaningfulBits_lt (getLsbD_of_le_clz64 hne hclz))
  rwa [hlen, setWidth_ofNat_six (by omega), setWidth_ofNat_six (by omega)] at hcode

/-- What the encoder writes for a delta is a codeword of a data position. -/
theorem DeltaCode.dataCodeword (h : DeltaCode c w delta bits w') : ∃ i, DataCodeword c w i bits := by
  cases h with
  | repeated => exact ⟨_, .repeated⟩
  | reuse hne hv hl => exact ⟨_, reuseBits_dataCodeword hne hv hl⟩
  | new hne => exact ⟨_, newBits_dataCodeword hne⟩

/-! ### `DEC_NEXT` at the codeword of a delta -/

/-- The machine that holds a configuration and a decoder channel, all else at reset. -/
def machineOf (c : Cfg) (d : DecChannel) : State := { State.reset with cfg := c, dec := d }

theorem nextResponse_inj {a b : StepAnswer} (h : nextResponse a = nextResponse b) : a = b := by
  cases a <;> cases b <;> cases h <;> rfl

/-- `DEC_NEXT` at a data codeword is the rule that executes the codeword. -/
theorem nextRule_eq_of_exec {r : DecChannel × StepAnswer} (hwf : c.wf = true) (hd : DecFacts c d)
    (hs : d.state = .readingControlA) (h : DataCodeword c d.win i bits) (hu : unreadBits d = bits ++ rest)
    (hexec : exec i (machineOf c d) = .next ((machineOf c d).setDec r.1 (nextResponse r.2))) :
    nextRule c d = r ∧ unreadBits r.1 = rest := by
  obtain ⟨hnext, hunread⟩ := exec_dataCodeword (s := machineOf c d) hwf hd hs h hu
  have hsame := Host.Outcome.next.inj (hnext.symm.trans hexec)
  have hdec : (nextRule c d).1 = r.1 := congrArg State.dec hsame
  have hans : (nextRule c d).2 = r.2 := nextResponse_inj (Option.some.inj (congrArg State.resp hsame))
  exact ⟨Prod.ext hdec hans, hdec ▸ hunread⟩

theorem nextRule_cwReuse {x : Sample} (hwf : c.wf = true) (hd : DecFacts c d) (hs : d.state = .readingControlA)
    (h : DataCodeword c d.win (.cwReuse x) bits) (hu : unreadBits d = bits ++ rest) :
    nextRule c d = stepReuse c x d ∧ unreadBits (stepReuse c x d).1 = rest := by
  refine nextRule_eq_of_exec hwf hd hs h hu (exec_cwReuse (s := machineOf c d) hwf hs ?_)
  cases h with
  | reuse _ hlt => exact reuseFits_of hd.window fun _ => hlt

theorem nextRule_cwNew {lead len : BitVec 6} {x : Sample} (hwf : c.wf = true) (hd : DecFacts c d)
    (hs : d.state = .readingControlA) (h : DataCodeword c d.win (.cwNew lead len x) bits)
    (hu : unreadBits d = bits ++ rest) :
    nextRule c d = stepNew c lead.toNat len.toNat x d ∧ unreadBits (stepNew c lead.toNat len.toNat x d).1 = rest := by
  refine nextRule_eq_of_exec hwf hd hs h hu (exec_cwNew (s := machineOf c d) hwf hs ?_)
  cases h with
  | new hlead _ hlt => exact newFits_of hlead fun _ => hlt

/-- The whole of a `REUSE` or a `NEW` is read, and the value it gives is tested against `SENTINEL` (R196 to R199). -/
theorem nextRule_deltaCode (hwf : c.wf = true) (hd : DecFacts c d) (hs : d.state = .readingControlA)
    (h : DeltaCode c d.win delta bits w') (hne : delta ≠ 0) (hu : unreadBits d = bits ++ rest) :
    ∃ d' m, Consumed d d' bits.length ∧ unreadBits (nextRule c d).1 = rest ∧ nextRule c d =
      ruleCheckSentinel c { d' with win := w', m := m, cur := d.prev ^^^ delta, state := .checkSentinel } := by
  have hlen : bits.length ≤ (unreadBits d).length := by simp [hu]
  cases h with
  | repeated hzero => exact absurd hzero hne
  | reuse _ hv hl ht =>
    obtain ⟨hnext, hunread⟩ := nextRule_cwReuse hwf hd hs (reuseBits_dataCodeword hne hv hl) hu
    rw [reuseBits_length] at hlen ⊢
    obtain ⟨d', hc, hr⟩ := stepReuse_read (c := c) (meaningfulBits delta d.win.trail) hd hv hlen
    rw [deltaOf_meaningfulBits (getLsbD_of_le_ctz64 hne ht)] at hr
    exact ⟨d', d.win.width, hc, hnext ▸ hunread, hnext.trans (hr.trans (by rw [← hc.win_eq]))⟩
  | new _ =>
    obtain ⟨hlead, hlenf, -, -, hsum⟩ := newFields_toNat (c := c) hne
    obtain ⟨hnext, hunread⟩ := nextRule_cwNew hwf hd hs (newBits_dataCodeword hne) hu
    rw [newBits_length, ← hlenf] at hlen ⊢
    obtain ⟨d', hc, hr⟩ := stepNew_read (lead := (BitVec.ofNat 6 (clampedLead c delta)).toNat)
      (meaningfulBits delta (ctz64 delta)) hd (by omega) hlen
    have htrail : 64 - clampedLead c delta - (64 - clampedLead c delta - ctz64 delta) = ctz64 delta := by omega
    exact ⟨d', 64 - clampedLead c delta - ctz64 delta, hc, hnext ▸ hunread, hnext.trans (hr.trans (by
      rw [hlead, hlenf, htrail, deltaOf_meaningfulBits (getLsbD_of_le_ctz64 hne le_rfl)]))⟩

/-- The decoder between two codewords: the value it emitted last, the Window in force, the bits still to be read. -/
structure Between (c : Cfg) (d : DecChannel) (prev : Sample) (w : Window) (stream : List Bool) : Prop where
  facts : DecFacts c d
  state : d.state = .readingControlA
  prev : d.prev = prev
  win : d.win = w
  unread : unreadBits d = stream

theorem Between.running (h : Between c d prev w stream) : d.state.running = true := by rw [h.state]; rfl

/-- A `DEC_NEXT` that emitted a sample stands between two codewords, one sample further. -/
theorem between_of_sample (hd : DecFacts c d) (hr : d.state.running = true) (h : nextRule c d = (d', .sample v))
    (hw : d'.win = w) (hu : unreadBits d' = rest) :
    Between c d' v w rest ∧ d'.count = d.count + 1 ∧ d'.expect = d.expect ∧ d'.expectEn = d.expectEn := by
  have ha := nextRule_advanced hd hr
  rw [h] at ha
  rcases ha.answer with ⟨_, hv, hst, hprev, hcount⟩ | ⟨_, _, hv, -⟩ | ⟨hv, -⟩
  · cases hv
    exact ⟨⟨ha.facts, hst, hprev, hw, hu⟩, hcount, ha.kept⟩
  · cases hv
  · cases hv

/-- The codeword of the delta to a value other than `SENTINEL`: the value is emitted. -/
theorem nextRule_sample (hwf : c.wf = true) (hb : Between c d prev w (bits ++ rest))
    (h : DeltaCode c w (v ^^^ prev) bits w') (hv : v ≠ c.sentinel) :
    ∃ d', nextRule c d = (d', .sample v) ∧ d'.win = w' ∧ unreadBits d' = rest := by
  obtain ⟨hd, hs, rfl, rfl, hu⟩ := hb
  by_cases hzero : v ^^^ d.prev = 0
  · obtain rfl : v = d.prev := BitVec.xor_eq_zero_iff.1 hzero
    cases h with
    | reuse hne => exact absurd hzero hne
    | new hne => exact absurd hzero hne
    | repeated =>
      obtain ⟨hnext, hunread⟩ := nextRule_eq_of_exec (r := stepRepeat d) hwf hd hs .repeated hu
        (exec_cwRepeat (s := machineOf c d) hwf hs)
      obtain ⟨d', heq, hc, -⟩ := consume_read (cause := .controlA) (next := ruleRepeat) (n := 1) hd (by omega)
        (by simp [hu])
      have hrepeat : stepRepeat d = ruleRepeat d' := heq
      rw [hrepeat] at hnext hunread
      exact ⟨(ruleRepeat d').1, by rw [hnext, ← hc.prev_eq]; rfl, hc.win_eq, hunread⟩
  · obtain ⟨d', m, hc, hunread, hnext⟩ := nextRule_deltaCode hwf hd hs h hzero hu
    rw [xor_xor_cancel_comm_assoc, ruleCheckSentinel_emits hv] at hnext
    exact ⟨_, hnext, rfl, by rw [← hunread, hnext]⟩

/-- The terminal codeword: the decode ends, where the expected count agrees or is not checked. -/
theorem nextRule_terminal (hwf : c.wf = true) (hb : Between c d prev w (bits ++ rest))
    (h : DeltaCode c w (c.sentinel ^^^ prev) bits w') (hprev : prev ≠ c.sentinel)
    (he : d.expectEn = false ∨ d.count = d.expect) : ∃ d', nextRule c d = (d', .noSample) := by
  obtain ⟨hd, hs, rfl, rfl, hu⟩ := hb
  obtain ⟨d', m, hc, -, hnext⟩ := nextRule_deltaCode hwf hd hs h (xor_ne_zero hprev.symm) hu
  rw [xor_xor_cancel_comm_assoc] at hnext
  exact ⟨_, hnext.trans (ruleCheckSentinel_ends rfl (by rwa [← hc.expectEn_eq, ← hc.count_eq, ← hc.expect_eq] at he))⟩

/-- A codeword cut short raises `UnexpectedEof` (R102). -/
theorem nextRule_cut (hb : Between c d prev w stream) (h : DeltaCode c w delta (stream ++ rest) w') (hne : rest ≠ []) :
    ∃ d' cause, nextRule c d = raiseDec .unexpectedEof cause d' := by
  obtain ⟨hd, hs, rfl, rfl, rfl⟩ := hb
  obtain ⟨i, hdata⟩ := h.dataCodeword
  obtain ⟨why, herr⟩ := decodeData_cut hd.window hdata hne
  obtain ⟨cause, ⟨d', hnext, -⟩, -⟩ := nextRaises_data hd hs herr
  exact ⟨d', cause, hnext⟩

/-! ### The start of the stream -/

theorem drop_firstBits (c : Cfg) (v : Sample) (rest : List Bool) :
    (firstBits c v ++ rest).drop (8 * c.tagBytes) = fieldBits v 64 ++ rest := by
  cases ht : c.tagEn <;> simp [firstBits, Cfg.tagBytes, ht]

/-- The first sample, behind the tag where one is used, is emitted whatever it is (R192). -/
theorem nextRule_first (hd : DecFacts c d) (hst : d.state = .awaitingFirst) (hl : d.srcLen ≠ 0)
    (hu : unreadBits d = firstBits c v ++ rest) :
    ∃ d', nextRule c d = (d', .sample v) ∧ d'.win = d.win ∧ unreadBits d' = rest := by
  have hlen : (unreadBits d).length = 64 + 8 * c.tagBytes + rest.length := by
    rw [hu, List.length_append, firstBits_length]
  obtain ⟨d₁, hc, hd₁, hrule⟩ := decStepRule_behind_tag hd hst hl (by omega)
  have hunread : unreadBits { d₁ with tag := latchedTag c d } = fieldBits v 64 ++ rest := by
    have hsame : SameSource d₁ { d₁ with tag := latchedTag c d } := ⟨rfl, rfl, rfl, rfl, rfl, rfl⟩
    rw [hsame.unread, hc.unread_eq, hu, drop_firstBits]
  have hv : fieldValue (((unreadBits d).drop (8 * c.tagBytes)).take 64) = v := by
    rw [hu, drop_firstBits, List.take_left' (fieldBits_length _ _), fieldValue_fieldBits _ _ v.isLt]
  obtain ⟨d₂, hc₂, hfirst⟩ := stepFirst_read v hd₁ (by simp [hunread])
  have hnext : nextRule c d = stepFirst v { d₁ with tag := latchedTag c d } := by
    rw [nextRule_of_rank_one hd (by rw [hst]; rfl) (by rw [hst]; rfl), hrule, hv]
  refine ⟨_, hnext.trans hfirst, hc₂.win_eq.trans hc.win_eq, ?_⟩
  have hleft := stepFirst_unread hd₁ hunread
  rwa [hfirst] at hleft

/-- A stream that ends before the first sample does raises `UnexpectedEof` (R192). -/
theorem nextRule_first_cut (hd : DecFacts c d) (hst : d.state = .awaitingFirst) (hl : d.srcLen ≠ 0)
    (hlt : (unreadBits d).length < 64 + 8 * c.tagBytes) :
    ∃ d' cause, nextRule c d = raiseDec .unexpectedEof cause d' := by
  rw [nextRule_of_rank_one hd (by rw [hst]; rfl) (by rw [hst]; rfl)]
  by_cases htag : (unreadBits d).length < 8 * c.tagBytes
  · exact ⟨_, _, decStepRule_tag_short hd hst hl htag⟩
  · obtain ⟨d₁, hc, -, hrule⟩ := decStepRule_behind_tag hd hst hl (by omega)
    have hsame : SameSource d₁ { d₁ with tag := latchedTag c d } := ⟨rfl, rfl, rfl, rfl, rfl, rfl⟩
    have hleft := hc.unread_length
    exact ⟨_, _, hrule.trans (consume_short (by rw [hsame.unread]; omega))⟩

/-! ### `DEC_RUN` over the stream -/

/-- `DEC_RUN` ends in `UnexpectedEof`. -/
def RunRaisesEof (c : Cfg) (d : DecChannel) : Prop :=
  ∃ d' cause, runLoop c (avail d + 2) [] d = (d', .err .unexpectedEof cause)

/-- `DEC_RUN` ends with the samples `vs`. -/
def RunAnswers (c : Cfg) (d : DecChannel) (vs : List Sample) : Prop :=
  ∃ d', runLoop c (avail d + 2) [] d = (d', .ok (.samples vs))

theorem RunRaisesEof.of_next (h : ∃ d' cause, nextRule c d = raiseDec .unexpectedEof cause d') : RunRaisesEof c d :=
  have ⟨_, _, hnext⟩ := h
  ⟨_, _, runLoop_of_err hnext⟩

theorem RunRaisesEof.of_sample (hd : DecFacts c d) (hr : d.state.running = true) (h : nextRule c d = (d', .sample v))
    (hrun : RunRaisesEof c d') : RunRaisesEof c d :=
  have ⟨_, _, hrun⟩ := hrun
  ⟨_, _, (runLoop_of_sample hd hr h).trans (runLoop_out_err hrun)⟩

theorem RunAnswers.of_sample (hd : DecFacts c d) (hr : d.state.running = true) (h : nextRule c d = (d', .sample v))
    (hrun : RunAnswers c d' vs) : RunAnswers c d (v :: vs) :=
  have ⟨_, hrun⟩ := hrun
  ⟨_, (runLoop_of_sample hd hr h).trans (runLoop_out_samples hrun)⟩

/-- The stream behind a sample, read whole: one `DEC_NEXT` for each codeword. -/
theorem runAnswers_dataStream (hwf : c.wf = true) (hstream : DataStream c prev w vs data)
    (hb : Between c d prev w (data ++ rest)) (he : d.expectEn = false ∨ d.count + vs.length = d.expect) :
    RunAnswers c d vs := by
  induction hstream generalizing d with
  | terminal hprev hcode =>
    obtain ⟨d', hnext⟩ := nextRule_terminal hwf hb hcode hprev he
    exact ⟨d', runLoop_of_end hnext⟩
  | sample hv hcode htail ih =>
    rw [List.append_assoc] at hb
    obtain ⟨d', hnext, hwin, hunread⟩ := nextRule_sample hwf hb hcode hv
    obtain ⟨hb', hcount, hexpect, hen⟩ := between_of_sample hb.facts hb.running hnext hwin hunread
    rw [List.length_cons] at he
    refine .of_sample hb.facts hb.running hnext (ih hb' ?_)
    rw [hen, hexpect, hcount]
    exact he.imp_right fun he => by omega

/-- A stream of two parts cut short ends inside the first, or inside the second. -/
theorem cut_append {xs ys : List Bool} (h : xs ++ ys = stream ++ rest) :
    (∃ zs, zs ≠ [] ∧ xs = stream ++ zs) ∨ ∃ zs, stream = xs ++ zs ∧ ys = zs ++ rest := by
  rcases List.append_eq_append_iff.1 h with ⟨zs, hstream, hys⟩ | ⟨zs, hxs, hrest⟩
  · exact .inr ⟨zs, hstream, hys⟩
  · cases zs with
    | nil => exact .inr ⟨[], by simpa using hxs.symm, hrest.symm⟩
    | cons z zs => exact .inl ⟨z :: zs, List.cons_ne_nil _ _, hxs⟩

/-- The stream behind a sample, cut short anywhere: the codeword that is not whole raises. -/
theorem runRaisesEof_dataStream (hwf : c.wf = true) (hstream : DataStream c prev w vs data)
    (hdata : data = stream ++ rest) (hne : rest ≠ []) (hb : Between c d prev w stream) : RunRaisesEof c d := by
  induction hstream generalizing d stream with
  | terminal _ hcode =>
    subst hdata
    exact .of_next (nextRule_cut hb hcode hne)
  | sample hv hcode htail ih =>
    rcases cut_append hdata with ⟨zs, hzs, rfl⟩ | ⟨zs, rfl, hrest⟩
    · exact .of_next (nextRule_cut hb hcode hzs)
    · obtain ⟨d', hnext, hwin, hunread⟩ := nextRule_sample hwf hb hcode hv
      obtain ⟨hb', -⟩ := between_of_sample hb.facts hb.running hnext hwin hunread
      exact .of_sample hb.facts hb.running hnext (ih hrest hb')

/-! ### `decode` of an encoding -/

/-- A decode begins with the bits of the buffer unread (R61, R203). -/
theorem unreadBits_decodeStart (buffer : List Byte) (s : State) :
    unreadBits (decodeStart buffer s) = buffer.flatMap byteBits := by
  have hbytes : (List.range buffer.length).map (ibufByte (decodeStart buffer s)) = buffer := by
    apply List.ext_getElem
    · simp
    · intro a ha ha'
      have hread : (decodeStart buffer s).ibuf.read? a = buffer[a]? := by
        show (Memory.ofBytes 0 buffer).read? a = _
        simp [Memory.read?_ofBytes]
      simp [ibufByte, hread, List.getElem?_eq_getElem ha']
  have hunread : unreadBits (decodeStart buffer s) =
      (List.range buffer.length).flatMap fun i => byteBits (ibufByte (decodeStart buffer s) (0 + i)) := rfl
  simp only [Nat.zero_add] at hunread
  rw [hunread, ← List.flatMap_map, hbytes]

theorem byteStream_length (bytes : List Byte) : (bytes.flatMap byteBits).length = 8 * bytes.length := by
  simp [Nat.mul_comm]

/-- An encoding cut short by whole bytes is cut before the terminal codeword ends: its last byte holds a bit of it. -/
theorem data_eq_take_append {pad : List Bool} (h : bytes.flatMap byteBits = data ++ pad)
    (hpad : pad.length < 8) (hn : n < bytes.length) :
    ∃ zs, zs ≠ [] ∧ data = (bytes.take n).flatMap byteBits ++ zs := by
  have hlen := byteStream_length bytes
  have hcut := byteStream_length (bytes.take n)
  rw [h, List.length_append] at hlen
  rw [List.length_take, Nat.min_eq_left hn.le] at hcut
  rw [← List.take_append_drop n bytes, List.flatMap_append] at h
  rcases cut_append h.symm with hdata | ⟨zs, hstream, -⟩
  · exact hdata
  · rw [hstream, List.length_append] at hcut
    omega

theorem decode_isEncoding (hwf : s.cfg.wf = true) (h : IsEncoding s.cfg v vs bytes)
    (hlen : ∀ k, s.cfg.ibufCap = some k → bytes.length ≤ k)
    (he : s.dec.expectEn = false ∨ s.dec.expect = (v :: vs).length) : decode bytes s = some (.ok (v :: vs)) := by
  obtain ⟨data, pad, hdata, hbytes, -⟩ := h
  have hd := decodeStart_facts hwf hlen
  have hunread := (unreadBits_decodeStart bytes s).trans hbytes
  rw [List.append_assoc] at hunread
  have hl : bytes.length ≠ 0 := by
    intro hnil
    have hcount := congrArg List.length hbytes
    rw [byteStream_length, hnil, List.length_append, List.length_append, firstBits_length] at hcount
    omega
  obtain ⟨d', hnext, hwin, hleft⟩ := nextRule_first hd rfl hl hunread
  obtain ⟨hb, hcount, hexpect, hen⟩ := between_of_sample hd rfl hnext hwin hleft
  have hagree : d'.expectEn = false ∨ d'.count + vs.length = d'.expect := by
    rw [hen, hcount, hexpect]
    refine he.imp_right fun he => ?_
    show 0 + 1 + vs.length = s.dec.expect
    rw [he, List.length_cons, Nat.zero_add, Nat.add_comm]
  obtain ⟨d'', hrun⟩ := RunAnswers.of_sample hd rfl hnext (runAnswers_dataStream hwf hdata hb hagree)
  exact decode_of_samples hwf hlen hrun

theorem decode_truncated (hwf : s.cfg.wf = true) (h : IsEncoding s.cfg v vs bytes) (h1 : 1 ≤ n) (hn : n < bytes.length)
    (hlen : ∀ k, s.cfg.ibufCap = some k → n ≤ k) : decode (bytes.take n) s = some (.error .unexpectedEof) := by
  obtain ⟨data, pad, hdata, hbytes, hpad⟩ := h
  obtain ⟨zs, hzs, hcut⟩ := data_eq_take_append hbytes hpad hn
  have htake : (bytes.take n).length = n := by rw [List.length_take, Nat.min_eq_left hn.le]
  have hfits : ∀ k, s.cfg.ibufCap = some k → (bytes.take n).length ≤ k := by rwa [htake]
  have hd := decodeStart_facts hwf hfits
  have hl : (decodeStart (bytes.take n) s).srcLen ≠ 0 := by
    show (bytes.take n).length ≠ 0
    omega
  have hrun : RunRaisesEof s.cfg (decodeStart (bytes.take n) s) := by
    rw [← unreadBits_decodeStart _ s] at hcut
    rcases cut_append hcut with ⟨left, hleft, hfirst⟩ | ⟨left, hunread, hrest⟩
    · refine .of_next (nextRule_first_cut hd rfl hl ?_)
      rw [← firstBits_length s.cfg v, hfirst, List.length_append]
      exact Nat.lt_add_of_pos_right (List.length_pos_of_ne_nil hleft)
    · obtain ⟨d', hnext, hwin, hleft⟩ := nextRule_first hd rfl hl hunread
      obtain ⟨hb, -⟩ := between_of_sample hd rfl hnext hwin hleft
      exact .of_sample hd rfl hnext (runRaisesEof_dataStream hwf hdata hrest hzs hb)
  obtain ⟨d', cause, hrun⟩ := hrun
  exact decode_of_err hwf hfits hrun

/-! ### The empty sequence -/

theorem encode_nil (hwf : s.cfg.wf = true) : encode [] s = some (.ok []) := by
  have hend : encEnd s.cfg (encBegin s.cfg s.enc).1 = finishEncode (encBegin s.cfg s.enc).1 := encEnd_empty rfl rfl
  refine (encode_of_end (vs := []) hwf rfl hend).trans ?_
  rw [obufBytes, snkLen_of_empty rfl]
  rfl

/-- The decode of an empty slice ends at once, with the expected-count check (R192). -/
theorem nextRule_decodeStart_nil (hwf : s.cfg.wf = true) :
    nextRule s.cfg (decodeStart [] s) = finishDecode 0 (decodeStart [] s) :=
  (nextRule_of_rank_one (decodeStart_facts hwf fun _ _ => Nat.zero_le _) rfl rfl).trans (decStepRule_empty rfl rfl)

theorem decode_nil (hwf : s.cfg.wf = true) (he : s.dec.expectEn = false ∨ s.dec.expect = 0) :
    decode [] s = some (.ok []) :=
  decode_of_samples hwf (fun _ _ => Nat.zero_le _)
    (runLoop_of_end ((nextRule_decodeStart_nil hwf).trans (finishDecode_ends (he.imp_right .symm))))

/-- Settles O56: nothing is written where no sample was given, and an empty slice holds no sample. -/
theorem emptySequenceIsTheEmptyBuffer : Obligations.EmptySequenceIsTheEmptyBuffer := fun _ hwf =>
  ⟨encode_nil hwf, decode_nil hwf, fun hen hne => decode_of_err hwf (fun _ _ => Nat.zero_le _)
    (runLoop_of_err ((nextRule_decodeStart_nil hwf).trans (finishDecode_disagrees hen hne.symm)))⟩

/-! ### The size of an encoding -/

/-- The longest codeword is a `NEW` of 64 meaningful bits (R291). -/
theorem DeltaCode.length_le (h : DeltaCode c w delta bits w') : bits.length ≤ c.leadW.bits + 72 := by
  have hw := windowWidth_le w
  cases h with
  | repeated => simp
  | reuse => rw [reuseBits_length]; omega
  | new => rw [newBits_length]; omega

theorem DataStream.length_le (h : DataStream c prev w vs data) :
    data.length ≤ (c.leadW.bits + 72) * (vs.length + 1) := by
  induction h with
  | terminal _ hcode => simpa using hcode.length_le
  | sample _ hcode _ ih =>
    have hbits := hcode.length_le
    rw [List.length_append, List.length_cons, Nat.mul_succ _ (_ + 1)]
    omega

/-- An encoding lies within the bound of R291. -/
theorem IsEncoding.length_le (h : IsEncoding c v vs bytes) :
    bytes.length ≤ (8 * c.tagBytes + 64 + (c.leadW.bits + 72) * (v :: vs).length + 7) / 8 := by
  obtain ⟨data, pad, hdata, hbytes, hpad⟩ := h
  have hle := hdata.length_le
  have hlen := congrArg List.length hbytes
  rw [byteStream_length, List.length_append, List.length_append, firstBits_length] at hlen
  rw [List.length_cons]
  omega

/-! ### The obligations -/

/-- Settles O55: `encode` writes the stream of the sequence, which fits `IBUF`, and `DEC_RUN` reads it codeword by
codeword. -/
theorem decodeOfEncodeIsTheSequence : Obligations.DecodeOfEncodeIsTheSequence := by
  intro s values hwf hmem hcap he
  cases values with
  | nil => exact ⟨[], encode_nil hwf, decode_nil hwf he⟩
  | cons v vs =>
    obtain ⟨bytes, henc⟩ := encode_of_room hwf hmem fun k hk => hcap k (.inl hk)
    have hbytes := encode_isEncoding hwf henc
    exact ⟨bytes, henc, decode_isEncoding hwf hbytes (fun k hk => hbytes.length_le.trans (hcap k (.inr hk))) he⟩

/-- Settles O59: an encoding of no sample has no byte to cut; in every other the cut leaves a codeword that is not
whole. -/
theorem truncatedStreamIsUnexpectedEof : Obligations.TruncatedStreamIsUnexpectedEof := by
  intro s values bytes n hwf henc h1 hn hlen
  cases values with
  | nil =>
    cases (encode_nil hwf).symm.trans henc
    exact absurd hn (Nat.not_lt_zero n)
  | cons v vs => exact decode_truncated hwf (encode_isEncoding hwf henc) h1 hn hlen

end Sys2Proof.Machine
end
